-- ==== Sys2Proof/Word.lean ====
section
/-! DEFINITION. The word types of the block (00_scope.md rule R10: every value is an unsigned
integer of a stated width). -/

namespace Sys2Proof

/-- One byte of a compressed buffer (10_state.md rule R18). -/
abbrev Byte := BitVec 8

/-- A register, a command word, or one source element (rules R17, R27, R53). -/
abbrev Word := BitVec 32

/-- One decoded element, and the width of `RDATA` (rules R19, R26). -/
abbrev Elem := BitVec 64

end Sys2Proof
end

