-- ==== Sys2Proof/Config.lean ====
section
/-! DEFINITION. The names the whole model uses (the three codecs, the error kinds), the
implementation parameters of 00_scope.md rule R8, and the free values: what the buffers hold before
anything has written them (20_memory.md rule R51), and where a platform maps the block (rule R46). -/

namespace Sys2Proof

/-- The codec indices `FWP = 0`, `FOR = 1`, `MBP = 2` of 00_scope.md rule R11.  `forb` is FOR, by
the document's selector name `forblock` (`for` is a word of Lean). -/
inductive Codec where
  | fwp
  | forb
  | mbp
  deriving DecidableEq, Repr

/-- The recoverable error kinds of 60_exceptions.md rule R112. -/
inductive RejectKind where
  | unknownCodecSelector
  | illegalCommand
  | illegalWidth
  | notConfigured
  | capacity
  | underrun
  | stale
  | index
  deriving DecidableEq, Repr

/-- The fatal error kinds of 60_exceptions.md rule R112.  The block raises the first only; the other
two are the host validator's, and their codes are reserved (rules R125, R126). -/
inductive FatalKind where
  | granularityError
  | roundTripMismatch
  | sizeLawViolation
  deriving DecidableEq, Repr

/-- The implementation parameters `N_MAX` and `G_FIXED` with the constraints of 00_scope.md rule
R8.  The constraints are fields, so no state carries a parameter the spec does not allow. -/
structure Params where
  nMax : Nat
  gFixed : Nat
  nMax_ok : 32 ≤ nMax ∧ nMax ≤ 2 ^ 26 - 1 ∧ nMax % 32 = 0
  gFixed_ok : gFixed = 1 ∨ gFixed = 2 ∨ gFixed = 4 ∨ gFixed = 8
  deriving DecidableEq, Repr

/-- The parameters of the state after reset.  `G_FIXED = 8` is the default of rule R8.
DESIGN CHOICE (log 1): `N_MAX` is OPEN in rule R8; 1024 is the value the vectors of
95_test_vectors.md take.  Unsafe where a claim rests on it; no statement about a next state does,
because each holds for the parameters of any state. -/
def Config.params : Params where
  nMax := 1024
  gFixed := 8
  nMax_ok := by decide
  gFixed_ok := by decide

/-- Free value (log 3): what source element `i` holds before anything has written it; unspecified
but stable, so a function of the place alone (20_memory.md rule R51). -/
opaque Config.powerOnSrc : Nat → Word

/-- Free value (log 3): what byte `a` of a compressed buffer holds before anything has written it
(20_memory.md rule R51). -/
opaque Config.powerOnCbuf : Codec → Nat → Byte

/-- Free value (log 3): what element `i` of a decoded buffer holds before anything has written it
(20_memory.md rule R51). -/
opaque Config.powerOnDbuf : Codec → Nat → Elem

/-- Open parameter `BASE_REG` (rules R8, R46): where a platform maps the register file. -/
opaque Config.baseReg : Nat

/-- Open parameter `BASE_SRC` (rules R8, R46). -/
opaque Config.baseSrc : Nat

/-- Open parameters `BASE_CBUF[c]` (rules R8, R46). -/
opaque Config.baseCbuf : Codec → Nat

/-- Open parameters `BASE_DBUF[c]` (rules R8, R46). -/
opaque Config.baseDbuf : Codec → Nat

end Sys2Proof
end

