-- ==== Sys2Proof/Syntax.lean ====
section
/-! DEFINITION. The instructions of the block: one constructor for each of the thirteen rows of
spec/opcode_table.json.  The first eleven are the words written to `CMD` (format C, 30_encoding.md
rule R57), the last two the operations written to `CTRL` (format K, rule R59).  Counts, indices and
widths are numbers of elements and bits, so they are `Nat`; the field bounds are checked in
WellFormed.lean. -/

namespace Sys2Proof

inductive Instr where
  /-- `nop`, 44_system.md rule R103. -/
  | nop
  /-- `cfg.fwp B`, 40_config.md rule R65. -/
  | cfgFwp (b : Nat)
  /-- `cfg.for B`, 40_config.md rule R66. -/
  | cfgFor (b : Nat)
  /-- `cfg.mbp B`, 40_config.md rule R67. -/
  | cfgMbp (b : Nat)
  /-- `pack.fwp N`, 41_fixed_width.md rule R76. -/
  | packFwp (n : Nat)
  /-- `pack.for N`, 42_frame_of_reference.md rule R85. -/
  | packFor (n : Nat)
  /-- `pack.mbp N`, 43_mini_block.md rule R95. -/
  | packMbp (n : Nat)
  /-- `unpack.fwp n`, 41_fixed_width.md rule R80. -/
  | unpackFwp (n : Nat)
  /-- `unpack.for n`, also written `update n`, 42_frame_of_reference.md rule R87. -/
  | unpackFor (n : Nat)
  /-- `unpack.mbp n`, 43_mini_block.md rule R97. -/
  | unpackMbp (n : Nat)
  /-- `at i`, 42_frame_of_reference.md rule R88 (`at` is a word of Lean). -/
  | atIndex (i : Nat)
  /-- `srst`, 44_system.md rule R105. -/
  | srst
  /-- `clrerr`, 44_system.md rule R104. -/
  | clrerr
  deriving DecidableEq, Repr

end Sys2Proof
end

