-- ==== Sys2Proof/WellFormed.lean ====
section
/-! DEFINITION. Which instructions have a word: the operand fits its field (30_encoding.md rule
R56).  These are the checks the assembler of rule R61 makes, and no more: whether a width is in a
codec's range, or a count meets a granularity, is a run-time check of the block. -/

namespace Sys2Proof

/-- The operand fits its field: `B` has 6 bits, a count or an index has 26 (rules R56 and R61). -/
def Instr.wf : Instr → Bool
  | .nop => true
  | .cfgFwp b => decide (b < 2 ^ 6)
  | .cfgFor b => decide (b < 2 ^ 6)
  | .cfgMbp b => decide (b < 2 ^ 6)
  | .packFwp n => decide (n < 2 ^ 26)
  | .packFor n => decide (n < 2 ^ 26)
  | .packMbp n => decide (n < 2 ^ 26)
  | .unpackFwp n => decide (n < 2 ^ 26)
  | .unpackFor n => decide (n < 2 ^ 26)
  | .unpackMbp n => decide (n < 2 ^ 26)
  | .atIndex i => decide (i < 2 ^ 26)
  | .srst => true
  | .clrerr => true

end Sys2Proof
end

