-- ==== Sys2Proof/Decode.lean ====
section
/-! DEFINITION. The command decoder (30_encoding.md rules R57 to R60), the `CTRL` decoder (rule
R59), the encoder, and the mask-and-match table of rule R57, which is the opcode table of the spec. -/

namespace Sys2Proof

/-- What the decoder reads from a word written to `CMD`: one of the eleven instructions, or the
cause it is rejected with (rule R60). -/
inductive Decoded where
  | instr (i : Instr)
  | illegal (k : RejectKind)
  deriving DecidableEq, Repr

/-- The two formats of rule R53, by the register whose write carries them. -/
inductive Port where
  /-- Format C, the word written to `CMD`. -/
  | cmd
  /-- Format K, the word written to `CTRL`. -/
  | ctrl
  deriving DecidableEq, Repr

/-- Field `OP`, bits 31:28 (rule R53). -/
def opField (w : Word) : Nat := w.toNat >>> 28

/-- Field `CSEL`, bits 27:26 (rule R53). -/
def cselField (w : Word) : Nat := (w.toNat >>> 26) % 2 ^ 2

/-- Field `ARG`, bits 25:0, an unsigned number (rules R53, R56). -/
def argField (w : Word) : Nat := w.toNat % 2 ^ 26

/-- The instruction of row `(op, cs)` of rule R57's table with operand `arg`: step 6 of its
procedure.  No other pair reaches step 6 (`selectInstr_isSome`). -/
def selectInstr (op cs arg : Nat) : Option Instr :=
  match op, cs with
  | 1, 0 => some (.cfgFwp arg)
  | 1, 1 => some (.cfgFor arg)
  | 1, 2 => some (.cfgMbp arg)
  | 2, 0 => some (.packFwp arg)
  | 2, 1 => some (.packFor arg)
  | 2, 2 => some (.packMbp arg)
  | 3, 0 => some (.unpackFwp arg)
  | 3, 1 => some (.unpackFor arg)
  | 3, 2 => some (.unpackMbp arg)
  | 4, 1 => some (.atIndex arg)
  | _, _ => none

/-- The decode procedure of rule R57, its steps in its order. -/
def decodeCmd (w : Word) : Decoded :=
  let op := opField w
  let cs := cselField w
  let arg := argField w
  if 5 ≤ op then .illegal .illegalCommand
  else if op = 0 then
    if w = 0 then .instr .nop else .illegal .illegalCommand
  else if cs = 3 then .illegal .unknownCodecSelector
  else if op = 4 ∧ cs ≠ 1 then .illegal .illegalCommand
  else if op = 1 ∧ arg >>> 6 ≠ 0 then .illegal .illegalCommand
  else
    match selectInstr op cs arg with
    | some i => .instr i
    | none => .illegal .illegalCommand

/-- The operation a word written to `CTRL` asks for, or none (rule R59): a word with a bit of 31:2
set does nothing, then bit 0 is `SRST`, then bit 1 is `CLRERR`. -/
def decodeCtrl (d : Word) : Option Instr :=
  if d.toNat >>> 2 ≠ 0 then none
  else if d.getLsbD 0 then some .srst
  else if d.getLsbD 1 then some .clrerr
  else none

/-- The format of an instruction, by the register its word is written to. -/
def Instr.port : Instr → Port
  | .nop => .cmd
  | .cfgFwp _ => .cmd
  | .cfgFor _ => .cmd
  | .cfgMbp _ => .cmd
  | .packFwp _ => .cmd
  | .packFor _ => .cmd
  | .packMbp _ => .cmd
  | .unpackFwp _ => .cmd
  | .unpackFor _ => .cmd
  | .unpackMbp _ => .cmd
  | .atIndex _ => .cmd
  | .srst => .ctrl
  | .clrerr => .ctrl

/-- The instruction a decoding found, if it found one. -/
def Decoded.instr? : Decoded → Option Instr
  | .instr i => some i
  | .illegal _ => none

/-- The decoder of a port. -/
def decodeAt (p : Port) (w : Word) : Option Instr :=
  match p with
  | .cmd => (decodeCmd w).instr?
  | .ctrl => decodeCtrl w

/-- A format C word from its three fields (rule R53); an operand that does not fit is cut to its
field, which a well-formed instruction never needs. -/
def commandWord (op cs arg : Nat) : Word :=
  BitVec.ofNat 32 (op % 2 ^ 4 * 2 ^ 28 + cs % 2 ^ 2 * 2 ^ 26 + arg % 2 ^ 26)

/-- The word of an instruction, from the encodings of rules R59 and R61.  `srst` is d = 1; its
other spelling d = 3 decodes to it too (rule R105). -/
def encode : Instr → Word
  | .nop => commandWord 0 0 0
  | .cfgFwp b => commandWord 1 0 b
  | .cfgFor b => commandWord 1 1 b
  | .cfgMbp b => commandWord 1 2 b
  | .packFwp n => commandWord 2 0 n
  | .packFor n => commandWord 2 1 n
  | .packMbp n => commandWord 2 2 n
  | .unpackFwp n => commandWord 3 0 n
  | .unpackFor n => commandWord 3 1 n
  | .unpackMbp n => commandWord 3 2 n
  | .atIndex i => commandWord 4 1 i
  | .srst => 0x00000001
  | .clrerr => 0x00000002

/-- One row of the opcode table: a port, a match and a mask (rules R57, R59). -/
structure OpcodeRow where
  mnemonic : String
  port : Port
  pattern : Word
  mask : Word
  deriving DecidableEq, Repr

/-- The row of opcode_table.json an instruction stands for. -/
def Instr.row : Instr → OpcodeRow
  | .nop => ⟨"nop", .cmd, 0x00000000, 0xFFFFFFFF⟩
  | .cfgFwp _ => ⟨"cfg.fwp", .cmd, 0x10000000, 0xFFFFFFC0⟩
  | .cfgFor _ => ⟨"cfg.for", .cmd, 0x14000000, 0xFFFFFFC0⟩
  | .cfgMbp _ => ⟨"cfg.mbp", .cmd, 0x18000000, 0xFFFFFFC0⟩
  | .packFwp _ => ⟨"pack.fwp", .cmd, 0x20000000, 0xFC000000⟩
  | .packFor _ => ⟨"pack.for", .cmd, 0x24000000, 0xFC000000⟩
  | .packMbp _ => ⟨"pack.mbp", .cmd, 0x28000000, 0xFC000000⟩
  | .unpackFwp _ => ⟨"unpack.fwp", .cmd, 0x30000000, 0xFC000000⟩
  | .unpackFor _ => ⟨"unpack.for", .cmd, 0x34000000, 0xFC000000⟩
  | .unpackMbp _ => ⟨"unpack.mbp", .cmd, 0x38000000, 0xFC000000⟩
  | .atIndex _ => ⟨"at", .cmd, 0x44000000, 0xFC000000⟩
  | .srst => ⟨"srst", .ctrl, 0x00000001, 0xFFFFFFFD⟩
  | .clrerr => ⟨"clrerr", .ctrl, 0x00000002, 0xFFFFFFFF⟩

/-- A word is an instance of a row: `(w & mask) == match` (rule R57). -/
def OpcodeRow.matches (r : OpcodeRow) (w : Word) : Bool := w &&& r.mask == r.pattern

/-- The eleven rows of rule R57's table, in its order. -/
def commandTable : List OpcodeRow :=
  [Instr.nop, .cfgFwp 0, .cfgFor 0, .cfgMbp 0, .packFwp 0, .packFor 0, .packMbp 0,
    .unpackFwp 0, .unpackFor 0, .unpackMbp 0, .atIndex 0].map Instr.row

/-- The two rows of format K (rule R59). -/
def controlTable : List OpcodeRow := [Instr.srst, .clrerr].map Instr.row

/-- The instruction a word of the opcode table stands for, both formats together.  The thirteen
patterns are pairwise disjoint, so the row tells the port (log 7). -/
def decodeTableWord (nbits w : Nat) : Option Instr :=
  let word := BitVec.ofNat 32 (w % 2 ^ nbits)
  (decodeAt .cmd word).or (decodeAt .ctrl word)

/-- The port a word of the opcode table is written to: `CTRL` for the words of `srst` and `clrerr`,
else `CMD` (log 7). -/
def tablePort (word : Word) : Port :=
  if (decodeAt .cmd word).isNone && (decodeAt .ctrl word).isSome then .ctrl else .cmd

end Sys2Proof
end

