-- ==== Sys2Proof/Machine/State.lean ====
section
/-! DEFINITION. The state of the block (10_state.md rule R15), the transactions of its host and
their answers (20_memory.md rule R40), and the state after reset (rule R38). -/

namespace Sys2Proof.Machine

/-- A buffer: its written places and what they hold, addresses strictly rising (`Memory.wf`).  A
place that is not listed has never been written (log 3).  `Memory 8` is a list of `Host.Cell`. -/
abbrev Memory (w : Nat) := List (Nat × BitVec w)

/-- What engine `c` owns (rule R16). -/
structure Engine where
  /-- `WIDTH[c]`, rule R20. -/
  width : BitVec 6
  /-- `CFGD[c]`, rule R20. -/
  cfgd : Bool
  /-- `CLEN[c]`, rule R21. -/
  clen : Word
  /-- `DCNT[c]`, rule R22. -/
  dcnt : Word
  /-- `CBUF[c]`, rule R18. -/
  cbuf : Memory 8
  /-- `DBUF[c]`, rule R19. -/
  dbuf : Memory 64
  deriving DecidableEq, Repr

/-- The host transactions of rule R40, with the operands a caller may get wrong left unchecked:
`off` any byte offset, `size` the access width in bytes (rule R43), `c` any engine number, and `a`,
`i` any index (rule R44). -/
inductive Transaction where
  | regRead (off size : Nat)
  | regWrite (off size : Nat) (d : Word)
  | srcRead (i : Nat)
  | srcWrite (i : Nat) (v : Word)
  | cbufRead (c a : Nat)
  | cbufWrite (c a : Nat) (b : Byte)
  | dbufRead (c i : Nat)
  | hardReset
  deriving DecidableEq, Repr

/-- The answer to a transaction: `OKAY`, with the data of a read, or `ERROR` (rule R40).  `none`:
no transaction has been answered yet (log 2). -/
inductive Response where
  | none
  | okay
  | byte (b : Byte)
  | word (d : Word)
  | elem (v : Elem)
  | error
  deriving DecidableEq, Repr

/-- The complete architectural state of rule R15, then the model's own three fields. -/
structure State where
  /-- `SRC`, rule R17. -/
  src : Memory 32
  /-- Engine FWP. -/
  fwp : Engine
  /-- Engine FOR. -/
  forb : Engine
  /-- Engine MBP. -/
  mbp : Engine
  /-- `VALID`, rule R23. -/
  valid : Bool
  /-- `ERR`, rule R24. -/
  err : Bool
  /-- `ECAUSE`, rule R24. -/
  ecause : BitVec 4
  /-- `EINFO`, rule R24. -/
  einfo : Word
  /-- `HALT`, rule R25. -/
  halt : Bool
  /-- `FCAUSE`, rule R25. -/
  fcause : BitVec 4
  /-- `FINFO`, rule R25. -/
  finfo : Word
  /-- `RDATA`, rule R26. -/
  rdata : Elem
  /-- The implementation's parameters, which no step changes (rule R8, log 1). -/
  params : Params
  /-- The host's pending transactions, the next one first (rule R63, log 2). -/
  script : List Transaction
  /-- The answer to the last transaction (rule R40, log 2). -/
  resp : Response
  deriving DecidableEq, Repr

/-- Reasons for which the machine stops with a fault: NONE.  Every error the spec describes is a
recoverable or a fatal error of the block, and both are next states (60_exceptions.md rules R114,
R115); a bad access is a response `ERROR` (rule R40). -/
inductive Fault where
  deriving DecidableEq, Repr

/-- Reasons for which a step is refused. -/
inductive Refusal where
  /-- Raised by `exec` for an instruction that has no meaning yet.  Safe. -/
  | notModelled (mnemonic : String)
  /-- Raised by `pack.fwp`, `pack.for` and `pack.mbp` when a source element is not below `2^WIDTH`:
  undefined in 41_fixed_width.md rule R83, which says that a model refuses the command (log 5).
  Safe. -/
  | sourceOutOfRange
  deriving DecidableEq, Repr

/-- An engine after reset: its registers 0 (rule R38), its buffers never written (rule R51). -/
def Engine.reset : Engine where
  width := 0
  cfgd := false
  clen := 0
  dcnt := 0
  cbuf := []
  dbuf := []

/-- The machine right after power-on and reset (rules R38, R134): every register and flag 0, no
buffer place written, nothing pending.  Every register's value is the spec's; the parameters and the
last two fields are the model's (logs 1 and 2). -/
def State.reset : State where
  src := []
  fwp := .reset
  forb := .reset
  mbp := .reset
  valid := false
  err := false
  ecause := 0
  einfo := 0
  halt := false
  fcause := 0
  finfo := 0
  rdata := 0
  params := Config.params
  script := []
  resp := .none

end Sys2Proof.Machine
end

