-- ==== Sys2Proof/Machine/Ops.lean ====
section
/-! DEFINITION. The named operations over buffers and registers; raising an error of either tier
(60_exceptions.md rules R114, R115), its return (rule R128), and reset (rule R134). -/

namespace Sys2Proof.Machine

/-! ### Buffers -/

/-- What a listed place holds; `none` where nothing has been written. -/
def Memory.find? {w : Nat} : Memory w → Nat → Option (BitVec w)
  | [], _ => none
  | (k, v) :: rest, a => if k = a then some v else Memory.find? rest a

/-- Write one place, keeping the addresses strictly rising. -/
def Memory.set {w : Nat} : Memory w → Nat → BitVec w → Memory w
  | [], a, v => [(a, v)]
  | (k, x) :: rest, a, v =>
    if a < k then (a, v) :: (k, x) :: rest
    else if a = k then (a, v) :: rest
    else (k, x) :: Memory.set rest a v

/-- The values `vs` at the places `start`, `start + 1`, and so on. -/
def Memory.block {w : Nat} (start : Nat) : List (BitVec w) → Memory w
  | [] => []
  | v :: vs => (start, v) :: Memory.block (start + 1) vs

/-- Write `vs` to the places `0 .. vs.length - 1` and leave every other place as it was: the store
of a pack or an unpack, which always begins at index 0 (30_encoding.md rule R56). -/
def Memory.setPrefix {w : Nat} (m : Memory w) (vs : List (BitVec w)) : Memory w :=
  Memory.block 0 vs ++ m.filter (fun p => decide (vs.length ≤ p.1))

/-- The canonical form: addresses strictly rising, so that one place has one entry and equal lists
of writes are equal data.  What an unlisted place reads as is a free value, which no definition can
compare with, so a written place stays listed whatever it holds (log 3). -/
def Memory.wf {w : Nat} (m : Memory w) : Bool :=
  decide (m.Pairwise (fun p q => p.1 < q.1))

/-- Every listed address is one of the `size` places of the space (20_memory.md rule R44). -/
def Memory.within {w : Nat} (m : Memory w) (size : Nat) : Bool :=
  m.all (fun p => decide (p.1 < size))

/-! ### Engines -/

/-- The engine of a codec. -/
def State.engine (s : State) : Codec → Engine
  | .fwp => s.fwp
  | .forb => s.forb
  | .mbp => s.mbp

/-- Replace the engine of a codec. -/
def State.setEngine (s : State) (c : Codec) (e : Engine) : State :=
  match c with
  | .fwp => { s with fwp := e }
  | .forb => { s with forb := e }
  | .mbp => { s with mbp := e }

/-- The codec of an engine number; `none` for a number that is not 0 to 2 (rules R11, R44). -/
def codecOfNat? : Nat → Option Codec
  | 0 => some .fwp
  | 1 => some .forb
  | 2 => some .mbp
  | _ => none

/-- `WMAX[c]`, 00_scope.md rule R7. -/
def wmax : Codec → Nat
  | .fwp => 56
  | .forb => 56
  | .mbp => 32

/-- `MBSZ`, the elements of a mini-block, 00_scope.md rule R7. -/
def mbsz : Nat := 16

/-- The required granularity `G[c]`, rules R7, R81, R92, R98. -/
def granularity (p : Params) : Codec → Nat
  | .fwp => p.gFixed
  | .forb => p.gFixed
  | .mbp => 32

/-- `CCAP[c]`, the bytes of a compressed buffer, rules R8 and R18. -/
def ccap (p : Params) : Codec → Nat
  | .fwp => 7 * p.nMax
  | .forb => 7 * p.nMax
  | .mbp => 4 * p.nMax

/-- `ceil(x / 8)`, 00_scope.md rule R10. -/
def ceilDiv8 (x : Nat) : Nat := (x + 7) >>> 3

/-- The width `B` an engine is constructed at, as a number. -/
def State.widthOf (s : State) (c : Codec) : Nat := (s.engine c).width.toNat

/-! ### Reading the buffers -/

/-- `SRC[i]`: what was last written there, or what power-on left (rule R51). -/
def State.srcElem (s : State) (i : Nat) : Word :=
  (s.src.find? i).getD (Config.powerOnSrc i)

/-- `CBUF[c][a]`. -/
def State.cbufByte (s : State) (c : Codec) (a : Nat) : Byte :=
  ((s.engine c).cbuf.find? a).getD (Config.powerOnCbuf c a)

/-- `DBUF[c][i]`. -/
def State.dbufElem (s : State) (c : Codec) (i : Nat) : Elem :=
  ((s.engine c).dbuf.find? i).getD (Config.powerOnDbuf c i)

/-! ### The views of rule R42: narrower than an element, and in a flat address space -/

/-- Byte `k` of the SRC window: `SRC[i]` is at byte offset `4 × i`, little-endian. -/
def State.srcWindowByte (s : State) (k : Nat) : Byte :=
  (s.srcElem (k / 4)).extractLsb' (8 * (k % 4)) 8

/-- Byte `k` of the window of `DBUF[c]`: element i is at byte offset `8 × i`, little-endian. -/
def State.dbufWindowByte (s : State) (c : Codec) (k : Nat) : Byte :=
  (s.dbufElem c (k / 8)).extractLsb' (8 * (k % 8)) 8

/-- Where a platform maps `SRC[i]` (rules R42, R46). -/
def srcFlatAddr (i : Nat) : Nat := Config.baseSrc + 4 * i

/-- Where a platform maps `CBUF[c][a]`. -/
def cbufFlatAddr (c : Codec) (a : Nat) : Nat := Config.baseCbuf c + a

/-- Where a platform maps `DBUF[c][i]`. -/
def dbufFlatAddr (c : Codec) (i : Nat) : Nat := Config.baseDbuf c + 8 * i

/-- Where a platform maps the register at byte offset `off` (rule R27). -/
def regFlatAddr (off : Nat) : Nat := Config.baseReg + off

/-! ### Errors and their return -/

/-- The code of a recoverable kind, 60_exceptions.md rule R112. -/
def rejectCode : RejectKind → BitVec 4
  | .unknownCodecSelector => 1
  | .illegalCommand => 2
  | .illegalWidth => 3
  | .notConfigured => 4
  | .capacity => 5
  | .underrun => 6
  | .stale => 7
  | .index => 8

/-- The code of a fatal kind, rule R112. -/
def fatalCode : FatalKind → BitVec 4
  | .granularityError => 1
  | .roundTripMismatch => 2
  | .sizeLawViolation => 3

/-- `reject Kind(w)`: entry into the recoverable tier (rules R12, R114). -/
def rejectWith (k : RejectKind) (w : Word) (s : State) : State :=
  { s with err := true, ecause := rejectCode k, einfo := w }

/-- `halt Kind(w)`: entry into the fatal tier (rules R12, R115). -/
def haltWith (k : FatalKind) (w : Word) (s : State) : State :=
  { s with halt := true, fcause := fatalCode k, finfo := w }

/-- The return from the recoverable tier (rules R104, R128). -/
def clearError (s : State) : State :=
  { s with err := false, ecause := 0, einfo := 0 }

/-- An engine's registers at their reset values, its buffers as they were (rule R38). -/
def Engine.resetRegs (e : Engine) : Engine :=
  { e with width := 0, cfgd := false, clen := 0, dcnt := 0 }

/-- A reset, hard or soft (rules R38, R134, R135): every register and flag of rule R38 at 0; the
seven buffers keep what they hold.  It is also the only return from the fatal tier (rule R128). -/
def resetRegs (s : State) : State :=
  { s with
    fwp := s.fwp.resetRegs, forb := s.forb.resetRegs, mbp := s.mbp.resetRegs,
    valid := false, err := false, ecause := 0, einfo := 0,
    halt := false, fcause := 0, finfo := 0, rdata := 0 }

/-- What a command's checks decide. -/
inductive Check where
  | pass
  | reject (k : RejectKind)
  | halt (k : FatalKind)
  deriving DecidableEq, Repr

/-- Run a command under its checks (rule R127): the first check that fails raises its error with the
command word `w`, and then nothing else happens (rule R110). -/
def guarded (ck : Check) (w : Word) (s : State) (body : Host.Outcome State Fault Refusal) :
    Host.Outcome State Fault Refusal :=
  match ck with
  | .pass => body
  | .reject k => .next (rejectWith k w s)
  | .halt k => .next (haltWith k w s)

/-! ### Stores of the engines -/

/-- The store of a pack: `CBUF[c][0..L)` and `CLEN[c]` (rule R47). -/
def storePacked (c : Codec) (bytes : List Byte) (len : Nat) (s : State) : State :=
  s.setEngine c
    { s.engine c with cbuf := (s.engine c).cbuf.setPrefix bytes, clen := BitVec.ofNat 32 len }

/-- The store of an unpack: `DBUF[c][0..n)` and `DCNT[c]` (rule R47). -/
def storeDecoded (c : Codec) (vals : List Elem) (s : State) : State :=
  s.setEngine c
    { s.engine c with
      dbuf := (s.engine c).dbuf.setPrefix vals, dcnt := BitVec.ofNat 32 vals.length }

/-- The configuration of an engine at width `b` (40_config.md rule R64). -/
def configure (c : Codec) (b : Nat) (s : State) : State :=
  s.setEngine c
    { s.engine c with width := BitVec.ofNat 6 b, cfgd := true, clen := 0, dcnt := 0 }

end Sys2Proof.Machine
end

