-- ==== Sys2Proof/Machine/Operands.lean ====
section
/-! DEFINITION. The data operands of the commands: the source sequence, the packed layout
(41_fixed_width.md rules R70 to R75), extraction (rule R78), the running sum
(42_frame_of_reference.md rule R86) and mini-blocks (43_mini_block.md rule R93).  A byte array is a
function from an index to a byte, as the pure functions of the spec read it. -/

namespace Sys2Proof.Machine

/-- `SRC[0..n)`, the source operand of a pack (rule R56). -/
def srcPrefix (n : Nat) (s : State) : List Word := (List.range n).map s.srcElem

/-- The `require` line of rules R76, R85 and R95: every source element is below `2^b` (rule R83). -/
def srcFits (n b : Nat) (s : State) : Bool :=
  (List.range n).all (fun i => decide ((s.srcElem i).toNat < 2 ^ b))

/-! ### The bit string and the packed layout -/

/-- `bitof(buf, k)`, rule R70. -/
def bitOf (byteAt : Nat → Byte) (k : Nat) : Bool := (byteAt (k >>> 3)).getLsbD (k % 8)

/-- `sum over b in 0..n-1 of (f b << b)`. -/
def bitSum (f : Nat → Bool) : Nat → Nat
  | 0 => 0
  | n + 1 => bitSum f n + (f n).toNat <<< n

/-- `bitval(k)` of rule R75: bit `k mod B` of element `k div B` when `k < B × n`, else a padding
bit, 0.  A source element has no bits above 31, so it is zero-extended (90_conflicts.md C1). -/
def packedBit (vals : List Word) (b k : Nat) : Bool :=
  decide (k < b * vals.length) && (vals.getD (k / b) 0).getLsbD (k % b)

/-- `PackBits(V, B)`, the layout of rule R71, in the closed form of rule R75. -/
def packBits (vals : List Word) (b : Nat) : List Byte :=
  (List.range (ceilDiv8 (b * vals.length))).map fun a =>
    BitVec.ofNat 8 (bitSum (fun j => packedBit vals b (8 * a + j)) 8)

/-! ### The pack datapath, with the transient state of 10_state.md rule R35 -/

/-- `ACC`, `NB`, `WPTR` and the bytes written so far, `buf[0..WPTR)`. -/
structure Datapath where
  acc : BitVec 64
  nb : Nat
  wptr : Nat
  out : List Byte
  deriving DecidableEq, Repr

/-- The datapath at the start of a command (rule R35). -/
def Datapath.init : Datapath := ⟨0, 0, 0, []⟩

/-- `buf[WPTR] <- ACC[7:0]; WPTR <- WPTR + 1`. -/
def Datapath.emit (d : Datapath) : Datapath :=
  { d with out := d.out ++ [d.acc.extractLsb' 0 8], wptr := d.wptr + 1 }

/-- The inner loop of rule R72, `while NB >= 8`; `fuel` bounds its turns (at most 7, rule R77). -/
def Datapath.flush : Nat → Datapath → Datapath
  | 0, d => d
  | fuel + 1, d =>
    if 8 ≤ d.nb then
      let e := d.emit
      Datapath.flush fuel { e with acc := e.acc >>> 8, nb := e.nb - 8 }
    else d

/-- One turn of the outer loop of rule R72: merge one value of `b` bits, then flush. -/
def Datapath.push (b : Nat) (d : Datapath) (v : Word) : Datapath :=
  Datapath.flush 8 { d with acc := d.acc ||| (v.setWidth 64 <<< d.nb), nb := d.nb + b }

/-- Finalisation and padding, rule R73. -/
def Datapath.finish (d : Datapath) : Datapath := if 0 < d.nb then d.emit else d

/-- The bytes the datapath writes for `V` at width `b` (rules R72, R73). -/
def packDatapath (vals : List Word) (b : Nat) : List Byte :=
  (vals.foldl (Datapath.push b) Datapath.init).finish.out

/-! ### Extraction -/

/-- The little-endian window of rule R78: `sum over j in 0..k-1 of (buf[a + j] << (8 × j))`. -/
def window (byteAt : Nat → Byte) (a : Nat) : Nat → Nat
  | 0 => 0
  | k + 1 => window byteAt a k + (byteAt (a + k)).toNat <<< (8 * k)

/-- `Extract(buf, B, i)`, rule R78: the window of the bytes the element touches, shifted right by
the bit offset, masked with `mask(B) = 2^B - 1`. -/
def extract (byteAt : Nat → Byte) (b i : Nat) : Nat :=
  let p := i * b
  let a := p >>> 3
  let o := p % 8
  let k := ceilDiv8 (o + b)
  (window byteAt a k >>> o) &&& (2 ^ b - 1)

/-- `UNPACK_TABLE[w]`, 10_state.md rule R36: the entry for width `w`, a function of a byte array and
an element index.  Which routine computes an entry cannot be observed (41_fixed_width.md rule
R79). -/
def unpackTable (w : Nat) : (Nat → Byte) → Nat → Nat := fun byteAt i => extract byteAt w i

/-- The elements 0 to n − 1 of a byte array packed at width `b`, zero-extended to 64 bits. -/
def extractAll (byteAt : Nat → Byte) (b n : Nat) : List Elem :=
  (List.range n).map fun i => BitVec.ofNat 64 (unpackTable b byteAt i)

/-- The loop of rule R86 from element `i` on, `SUM` being `sum`: the next `n` values of `A`. -/
def runSumFrom (byteAt : Nat → Byte) (b : Nat) (sum : Elem) (i : Nat) : Nat → List Elem
  | 0 => []
  | n + 1 =>
    let next := sum + BitVec.ofNat 64 (unpackTable b byteAt i)
    next :: runSumFrom byteAt b next (i + 1) n

/-- `RunSum(buf, B, n)`, rule R86: the running sum modulo 2^64, from 0. -/
def runSum (byteAt : Nat → Byte) (b n : Nat) : List Elem := runSumFrom byteAt b 0 0 n

/-- The exact sum of the elements 0 to n − 1 of a byte array, the sum in rule R86's closed form. -/
def extractSum (byteAt : Nat → Byte) (b : Nat) : Nat → Nat
  | 0 => 0
  | n + 1 => extractSum byteAt b n + extract byteAt b n

/-! ### Mini-blocks -/

/-- Mini-block `m` of a sequence: elements `16 × m` to `16 × m + 15` (rule R93). -/
def miniBlock (vals : List Word) (m : Nat) : List Word := (vals.drop (mbsz * m)).take mbsz

/-- The bytes of `pack.mbp`: the mini-blocks, each packed on its own, back to back (rules R93, R95). -/
def packMiniBlocks (vals : List Word) (b : Nat) : List Byte :=
  (List.range (vals.length / mbsz)).flatMap fun m => packBits (miniBlock vals m) b

/-- The elements of `unpack.mbp`: lane `j` of mini-block `m` is extracted from the `2 × B` bytes of
that mini-block with its local index (rules R94, R97). -/
def unpackMiniBlocks (byteAt : Nat → Byte) (b n : Nat) : List Elem :=
  (List.range (n / mbsz)).flatMap fun m => extractAll (fun a => byteAt (2 * b * m + a)) b mbsz

end Sys2Proof.Machine
end

