-- ==== Sys2Proof/Machine/Flags.lean ====
section
/-! DEFINITION. Flags, checks and registers: the checks of every command in the order of
60_exceptions.md rule R127, the life of `VALID` (42_frame_of_reference.md rule R89), the outputs
(rule R129), and the register file (10_state.md rules R27 to R34). -/

namespace Sys2Proof.Machine

/-! ### The checks of a command -/

/-- Check 8: the width of a `cfg` (rule R64). -/
def cfgCheck (c : Codec) (b : Nat) : Check :=
  if b < 1 ∨ wmax c < b then .reject .illegalWidth else .pass

/-- Checks 9 to 11, of a `pack` and an `unpack` with count `n`. -/
def countCheck (c : Codec) (n : Nat) (s : State) : Check :=
  if (s.engine c).cfgd = false then .reject .notConfigured
  else if s.params.nMax < n then .reject .capacity
  else if n % granularity s.params c ≠ 0 then .halt .granularityError
  else .pass

/-- The bytes `n` elements need at the width of the engine, rule R122. -/
def bytesNeeded (c : Codec) (n : Nat) (s : State) : Nat := ceilDiv8 (s.widthOf c * n)

/-- Checks 9 to 12, of an `unpack` with count `n`. -/
def unpackCheck (c : Codec) (n : Nat) (s : State) : Check :=
  match countCheck c n s with
  | .pass => if (s.engine c).clen.toNat < bytesNeeded c n s then .reject .underrun else .pass
  | .reject k => .reject k
  | .halt k => .halt k

/-- Checks 9, 13 and 14, of `at i`. -/
def atCheck (i : Nat) (s : State) : Check :=
  if s.forb.cfgd = false then .reject .notConfigured
  else if s.valid = false then .reject .stale
  else if s.forb.dcnt.toNat ≤ i then .reject .index
  else .pass

/-! ### `VALID` -/

/-- The compressed data of engine `c`, or its reading, has changed: clears `VALID` when c = FOR, and
does nothing for the other two (rules R23, R89). -/
def invalidate (c : Codec) (s : State) : State :=
  match c with
  | .fwp => s
  | .forb => { s with valid := false }
  | .mbp => s

/-- `VALID` as `CSTAT[c]` shows it: 0 in `CSTAT[FWP]` and `CSTAT[MBP]` (rule R30). -/
def State.validOf (s : State) : Codec → Bool
  | .fwp => false
  | .forb => s.valid
  | .mbp => false

/-! ### Outputs -/

/-- The output `o_err`, rule R129. -/
def State.oErr (s : State) : Bool := s.err

/-- The output `o_halt`, rule R129. -/
def State.oHalt (s : State) : Bool := s.halt

/-! ### The register file -/

/-- The registers of rule R27. -/
inductive Reg where
  | id
  | cmd
  | status
  | ecause
  | einfo
  | fcause
  | finfo
  | ctrl
  | rdataLo
  | rdataHi
  | nmax
  | cstat (c : Codec)
  | caps (c : Codec)
  | clen (c : Codec)
  | dcnt (c : Codec)
  | ccap (c : Codec)
  /-- An offset of the space that the map does not list. -/
  | reserved
  deriving DecidableEq, Repr

/-- The register map of rule R27: every listed offset.  The bank of engine c starts at
`0x40 + 0x20 × c`. -/
def regMap : List (Nat × Reg) :=
  [(0x000, .id), (0x004, .cmd), (0x008, .status), (0x00C, .ecause), (0x010, .einfo),
    (0x014, .fcause), (0x018, .finfo), (0x01C, .ctrl), (0x020, .rdataLo), (0x024, .rdataHi),
    (0x028, .nmax),
    (0x040, .cstat .fwp), (0x044, .caps .fwp), (0x048, .clen .fwp), (0x04C, .dcnt .fwp),
    (0x050, .ccap .fwp),
    (0x060, .cstat .forb), (0x064, .caps .forb), (0x068, .clen .forb), (0x06C, .dcnt .forb),
    (0x070, .ccap .forb),
    (0x080, .cstat .mbp), (0x084, .caps .mbp), (0x088, .clen .mbp), (0x08C, .dcnt .mbp),
    (0x090, .ccap .mbp)]

/-- The register an access reaches; `none` for a response `ERROR`: the access is not a whole
naturally aligned 32-bit word, or its offset is at or above 0x0C0 (rules R33, R43, R44). -/
def regAt? (off size : Nat) : Option Reg :=
  if size ≠ 4 ∨ off % 4 ≠ 0 ∨ 0x0C0 ≤ off then none
  else some ((regMap.lookup off).getD .reserved)

/-- The constant `ID_VALUE`, rule R31. -/
def idValue : Word := 0x42504331

/-- `STATUS`, rule R28. -/
def statusWord (s : State) : Word := BitVec.ofNat 32 (s.err.toNat + s.halt.toNat <<< 1)

/-- `CSTAT[c]`, rule R30. -/
def cstatWord (c : Codec) (s : State) : Word :=
  BitVec.ofNat 32 (s.widthOf c + (s.engine c).cfgd.toNat <<< 8 + (s.validOf c).toNat <<< 9)

/-- The field `MBSZ[c]` of `CAPS[c]`: 16 for MBP, 0 for FWP and FOR (rule R32). -/
def mbszField : Codec → Nat
  | .fwp => 0
  | .forb => 0
  | .mbp => mbsz

/-- `CAPS[c]`, rule R32: `WMIN`, `WMAX`, `GRAN`, `MBSZ`. -/
def capsWord (p : Params) (c : Codec) : Word :=
  BitVec.ofNat 32
    (1 + wmax c <<< 8 + granularity p c <<< 16 + mbszField c <<< 24)

/-- What a register reads as (rules R28 to R33): a write-only register and a reserved offset read
0. -/
def readReg (r : Reg) (s : State) : Word :=
  match r with
  | .id => idValue
  | .cmd => 0
  | .status => statusWord s
  | .ecause => s.ecause.setWidth 32
  | .einfo => s.einfo
  | .fcause => s.fcause.setWidth 32
  | .finfo => s.finfo
  | .ctrl => 0
  | .rdataLo => s.rdata.extractLsb' 0 32
  | .rdataHi => s.rdata.extractLsb' 32 32
  | .nmax => BitVec.ofNat 32 s.params.nMax
  | .cstat c => cstatWord c s
  | .caps c => capsWord s.params c
  | .clen c => (s.engine c).clen
  | .dcnt c => (s.engine c).dcnt
  | .ccap c => BitVec.ofNat 32 (ccap s.params c)
  | .reserved => 0

/-- A host write to `CLEN[c]`, rule R34: ignored above `CCAP[c]`, else stored, and `VALID` cleared
when c = FOR. -/
def writeClen (c : Codec) (v : Word) (s : State) : State :=
  if ccap s.params c < v.toNat then s
  else invalidate c (s.setEngine c { s.engine c with clen := v })

/-- `CbufWrite(c, a, b)` with response OKAY, 20_memory.md rule R40. -/
def writeCbuf (c : Codec) (a : Nat) (b : Byte) (s : State) : State :=
  invalidate c (s.setEngine c { s.engine c with cbuf := (s.engine c).cbuf.set a b })

/-- `SrcWrite(i, v)` with response OKAY, rule R40. -/
def writeSrc (i : Nat) (v : Word) (s : State) : State := { s with src := s.src.set i v }

end Sys2Proof.Machine
end

