-- ==== Sys2Proof/Machine/Construction.lean ====
section
/-! DEFINITION. The CFG family: `cfg.fwp`, `cfg.for`, `cfg.mbp` (40_config.md rules R64 to R67). -/

namespace Sys2Proof.Machine

/-- The common semantics of rule R64. -/
def cfgEngine (c : Codec) (b : Nat) (w : Word) (s : State) : Host.Outcome State Fault Refusal :=
  guarded (cfgCheck c b) w s (.next (invalidate c (configure c b s)))

/-- `cfg.fwp B`, rule R65. -/
def execCfgFwp (b : Nat) (s : State) : Host.Outcome State Fault Refusal :=
  cfgEngine .fwp b (encode (.cfgFwp b)) s

/-- `cfg.for B`, rule R66. -/
def execCfgFor (b : Nat) (s : State) : Host.Outcome State Fault Refusal :=
  cfgEngine .forb b (encode (.cfgFor b)) s

/-- `cfg.mbp B`, rule R67. -/
def execCfgMbp (b : Nat) (s : State) : Host.Outcome State Fault Refusal :=
  cfgEngine .mbp b (encode (.cfgMbp b)) s

end Sys2Proof.Machine
end

