-- ==== Sys2Proof/Machine/FixedWidth.lean ====
section
/-! DEFINITION. The fixed-width family: `pack.fwp`, `unpack.fwp` (41_fixed_width.md rules R76, R80),
and the pack that FWP and FOR share (42_frame_of_reference.md rule R85: FOR stores its input exactly
like FWP). -/

namespace Sys2Proof.Machine

/-- The pack of rules R76 and R85: the checks, the `require` line, the packed bytes, the exact
length; the compressed data has changed, which clears `VALID` for FOR. -/
def packFixed (c : Codec) (n : Nat) (w : Word) (s : State) : Host.Outcome State Fault Refusal :=
  guarded (countCheck c n s) w s <|
    if srcFits n (s.widthOf c) s then
      .next (invalidate c
        (storePacked c (packBits (srcPrefix n s) (s.widthOf c)) (ceilDiv8 (s.widthOf c * n)) s))
    else .refused .sourceOutOfRange

/-- `pack.fwp N`, rule R76. -/
def execPackFwp (n : Nat) (s : State) : Host.Outcome State Fault Refusal :=
  packFixed .fwp n (encode (.packFwp n)) s

/-- `unpack.fwp n`, rule R80. -/
def execUnpackFwp (n : Nat) (s : State) : Host.Outcome State Fault Refusal :=
  guarded (unpackCheck .fwp n s) (encode (.unpackFwp n)) s <|
    .next (storeDecoded .fwp (extractAll (s.cbufByte .fwp) (s.widthOf .fwp) n) s)

end Sys2Proof.Machine
end

