-- ==== Sys2Proof/Machine/FrameOfReference.lean ====
section
/-! DEFINITION. The frame-of-reference family: `pack.for`, `unpack.for` (`update`), `at`
(42_frame_of_reference.md rules R85 to R88). -/

namespace Sys2Proof.Machine

/-- `pack.for N`, rule R85. -/
def execPackFor (n : Nat) (s : State) : Host.Outcome State Fault Refusal :=
  packFixed .forb n (encode (.packFor n)) s

/-- `unpack.for n`, written `update n`, rule R87: the running sum, the count, and `VALID` set. -/
def execUnpackFor (n : Nat) (s : State) : Host.Outcome State Fault Refusal :=
  guarded (unpackCheck .forb n s) (encode (.unpackFor n)) s <|
    .next { storeDecoded .forb (runSum (s.cbufByte .forb) (s.widthOf .forb) n) s with
      valid := true }

/-- `at i`, rule R88: one lookup into the materialised array. -/
def execAtIndex (i : Nat) (s : State) : Host.Outcome State Fault Refusal :=
  guarded (atCheck i s) (encode (.atIndex i)) s <|
    .next { s with rdata := s.dbufElem .forb i }

end Sys2Proof.Machine
end

