-- ==== Sys2Proof/Machine/MiniBlock.lean ====
section
/-! DEFINITION. The mini-block family: `pack.mbp`, `unpack.mbp` (43_mini_block.md rules R93 to
R98). -/

namespace Sys2Proof.Machine

/-- The length `pack.mbp N` reports, rule R96: `4 × N`, the spec's choice of a conservative bound
(log 6). -/
def conservativeLength (n : Nat) : Nat := 4 * n

/-- `pack.mbp N`, rule R95. -/
def execPackMbp (n : Nat) (s : State) : Host.Outcome State Fault Refusal :=
  guarded (countCheck .mbp n s) (encode (.packMbp n)) s <|
    if srcFits n (s.widthOf .mbp) s then
      .next (storePacked .mbp (packMiniBlocks (srcPrefix n s) (s.widthOf .mbp))
        (conservativeLength n) s)
    else .refused .sourceOutOfRange

/-- `unpack.mbp n`, rule R97. -/
def execUnpackMbp (n : Nat) (s : State) : Host.Outcome State Fault Refusal :=
  guarded (unpackCheck .mbp n s) (encode (.unpackMbp n)) s <|
    .next (storeDecoded .mbp (unpackMiniBlocks (s.cbufByte .mbp) (s.widthOf .mbp) n) s)

end Sys2Proof.Machine
end

