-- ==== Sys2Proof/Machine/System.lean ====
section
/-! DEFINITION. The operations that are not codec work: `nop`, `clrerr`, `srst` (44_system.md rules
R103 to R105). -/

namespace Sys2Proof.Machine

/-- `nop`, rule R103: changes no state. -/
def execNop (s : State) : Host.Outcome State Fault Refusal := .next s

/-- `clrerr`, rule R104: acted on in every state; clears the recoverable record only. -/
def execClrerr (s : State) : Host.Outcome State Fault Refusal := .next (clearError s)

/-- `srst`, rule R105: acted on in every state; the effect of a hard reset (rule R135). -/
def execSrst (s : State) : Host.Outcome State Fault Refusal := .next (resetRegs s)

end Sys2Proof.Machine
end

