-- ==== Sys2Proof/Machine/Dispatch.lean ====
section
/-! DEFINITION. One arm per instruction: the effect of an accepted command, or of an operation of
`CTRL`. -/

namespace Sys2Proof.Machine

def exec (i : Instr) (s : State) : Host.Outcome State Fault Refusal :=
  match i with
  | .nop => Sys2Proof.Machine.execNop s
  | .cfgFwp b => Sys2Proof.Machine.execCfgFwp b s
  | .cfgFor b => Sys2Proof.Machine.execCfgFor b s
  | .cfgMbp b => Sys2Proof.Machine.execCfgMbp b s
  | .packFwp n => Sys2Proof.Machine.execPackFwp n s
  | .packFor n => Sys2Proof.Machine.execPackFor n s
  | .packMbp n => Sys2Proof.Machine.execPackMbp n s
  | .unpackFwp n => Sys2Proof.Machine.execUnpackFwp n s
  | .unpackFor n => Sys2Proof.Machine.execUnpackFor n s
  | .unpackMbp n => Sys2Proof.Machine.execUnpackMbp n s
  | .atIndex k => Sys2Proof.Machine.execAtIndex k s
  | .srst => Sys2Proof.Machine.execSrst s
  | .clrerr => Sys2Proof.Machine.execClrerr s

end Sys2Proof.Machine
end

