-- ==== Sys2Proof/Machine/Transactions.lean ====
section
/-! DEFINITION. The host transactions (20_memory.md rule R40): command acceptance (44_system.md rule
R102), the `CTRL` write (30_encoding.md rule R59), registers and buffers. -/

namespace Sys2Proof.Machine

/-- Keep the answer of the transaction for the host. -/
def answer (r : Response) (s : State) : State := { s with resp := r }

/-- A transaction with response `ERROR`: no state changes and no data is returned (rule R40). -/
def answerError (s : State) : Host.Outcome State Fault Refusal := .next (answer .error s)

/-- A write to `CMD`, rule R102: dropped while `HALT` or `ERR` is 1; else decoded, and performed or
rejected with its cause. -/
def writeCmd (w : Word) (s : State) : Host.Outcome State Fault Refusal :=
  if s.halt then .next s
  else if s.err then .next s
  else
    match decodeCmd w with
    | .instr i => exec i s
    | .illegal k => .next (rejectWith k w s)

/-- A write to `CTRL`, rule R59: acted on in every state. -/
def writeCtrl (d : Word) (s : State) : Host.Outcome State Fault Refusal :=
  match decodeCtrl d with
  | some i => exec i s
  | none => .next s

/-- A write to a register (rules R33, R34, R40): a read-only register and a reserved offset ignore
it. -/
def writeReg (r : Reg) (d : Word) (s : State) : Host.Outcome State Fault Refusal :=
  match r with
  | .cmd => writeCmd d s
  | .ctrl => writeCtrl d s
  | .clen c => .next (writeClen c d s)
  | .id => .next s
  | .status => .next s
  | .ecause => .next s
  | .einfo => .next s
  | .fcause => .next s
  | .finfo => .next s
  | .rdataLo => .next s
  | .rdataHi => .next s
  | .nmax => .next s
  | .cstat _ => .next s
  | .caps _ => .next s
  | .dcnt _ => .next s
  | .ccap _ => .next s
  | .reserved => .next s

/-- `RegRead(off)`. -/
def regRead (off size : Nat) (s : State) : Host.Outcome State Fault Refusal :=
  match regAt? off size with
  | some r => .next (answer (.word (readReg r s)) s)
  | none => answerError s

/-- `RegWrite(off, d)`: the response of a `CMD` write is OKAY whatever becomes of the command (rules
R102, R114, R115). -/
def regWrite (off size : Nat) (d : Word) (s : State) : Host.Outcome State Fault Refusal :=
  match regAt? off size with
  | some r => writeReg r d (answer .okay s)
  | none => answerError s

/-- `SrcRead(i)`. -/
def srcRead (i : Nat) (s : State) : Host.Outcome State Fault Refusal :=
  if i < s.params.nMax then .next (answer (.word (s.srcElem i)) s) else answerError s

/-- `SrcWrite(i, v)`. -/
def srcWrite (i : Nat) (v : Word) (s : State) : Host.Outcome State Fault Refusal :=
  if i < s.params.nMax then .next (answer .okay (writeSrc i v s)) else answerError s

/-- `CbufRead(c, a)`. -/
def cbufRead (c a : Nat) (s : State) : Host.Outcome State Fault Refusal :=
  match codecOfNat? c with
  | some e =>
    if a < ccap s.params e then .next (answer (.byte (s.cbufByte e a)) s) else answerError s
  | none => answerError s

/-- `CbufWrite(c, a, b)`. -/
def cbufWrite (c a : Nat) (b : Byte) (s : State) : Host.Outcome State Fault Refusal :=
  match codecOfNat? c with
  | some e =>
    if a < ccap s.params e then .next (answer .okay (writeCbuf e a b s)) else answerError s
  | none => answerError s

/-- `DbufRead(c, i)`: no staleness check (70_reset_and_hazards.md rule R140). -/
def dbufRead (c i : Nat) (s : State) : Host.Outcome State Fault Refusal :=
  match codecOfNat? c with
  | some e =>
    if i < s.params.nMax then .next (answer (.elem (s.dbufElem e i)) s) else answerError s
  | none => answerError s

/-- `HardReset`, rule R134. -/
def hardReset (s : State) : Host.Outcome State Fault Refusal :=
  .next (answer .okay (resetRegs s))

/-- One transaction of the host (rule R40). -/
def perform (t : Transaction) (s : State) : Host.Outcome State Fault Refusal :=
  match t with
  | .regRead off size => regRead off size s
  | .regWrite off size d => regWrite off size d s
  | .srcRead i => srcRead i s
  | .srcWrite i v => srcWrite i v s
  | .cbufRead c a => cbufRead c a s
  | .cbufWrite c a b => cbufWrite c a b s
  | .dbufRead c i => dbufRead c i s
  | .hardReset => hardReset s

/-- The byte offset of a port's register (rule R53). -/
def portOffset : Port → Nat
  | .cmd => 0x004
  | .ctrl => 0x01C

/-- The transaction that issues a word at a port (rule R61). -/
def issueWord (p : Port) (w : Word) : Transaction := .regWrite (portOffset p) 4 w

/-- The transaction that issues an instruction (rule R61). -/
def issue (i : Instr) : Transaction := issueWord i.port (encode i)

/-- The next pending transaction leaves the script. -/
def popScript (s : State) : State := { s with script := s.script.tail }

/-- One step of the block: perform the first pending transaction of the host; with none pending the
block does nothing (00_scope.md rule R6, log 2). -/
def stepBlock (s : State) : Host.Outcome State Fault Refusal :=
  match s.script with
  | [] => .next s
  | t :: _ => perform t (popScript s)

/-- Put the write of a table word before every pending transaction (logs 2 and 7). -/
def placeWord (s : State) (nbits w : Nat) : State :=
  let word := BitVec.ofNat 32 (w % 2 ^ nbits)
  { s with script := issueWord (tablePort word) word :: s.script }

end Sys2Proof.Machine
end

