-- ==== Sys2Proof/Machine/Step.lean ====
section
/-! DEFINITION. The step of the machine: one host transaction (00_scope.md rule R5). -/

namespace Sys2Proof.Machine

/-- One step: the first pending transaction with all of its effects. -/
def step (s : State) : Host.Outcome State Fault Refusal := stepBlock s

/-- The state whose very next step issues the table word `w`: the block fetches nothing (10_state.md
rule R14), so a word stands where the host's next transaction stands (logs 2 and 7). -/
def State.withFetchWord (s : State) (nbits w : Nat) : State := placeWord s nbits w

end Sys2Proof.Machine
end

