-- ==== Sys2Proof/Safety.lean ====
section
/-! DEFINITION. The terms claims about the block use: the states it can be in (44_system.md rule
R107), the invariant of 10_state.md rule R37, what an operation leaves as it was, the instructions of
one shape, the order of checks of 60_exceptions.md rule R127, the life of `VALID`
(42_frame_of_reference.md rule R89), and the checks of the host's validator (rules R125, R126). -/

namespace Sys2Proof.Machine

/-! ### States and runs -/

/-- Commands are accepted (rule R107). -/
def Ready (s : State) : Prop := s.halt = false ∧ s.err = false

/-- Every source element of a pack fits the width `b`: the duty of 70_reset_and_hazards.md rule
R138. -/
def SrcBelow (n b : Nat) (s : State) : Prop := ∀ i, i < n → (s.srcElem i).toNat < 2 ^ b

/-- The state a transaction with answer `r` starts from: it has left the script, and the answer
stands. -/
def afterHead (r : Response) (s : State) : State := { s with script := s.script.tail, resp := r }

/-! ### What stays as it was -/

/-- The registers of engine `c` are unchanged. -/
def SameRegs (c : Codec) (s t : State) : Prop :=
  (t.engine c).width = (s.engine c).width ∧ (t.engine c).cfgd = (s.engine c).cfgd ∧
    (t.engine c).clen = (s.engine c).clen ∧ (t.engine c).dcnt = (s.engine c).dcnt

/-- Every byte of `CBUF[c]` reads as before. -/
def SameCbuf (c : Codec) (s t : State) : Prop := ∀ a, t.cbufByte c a = s.cbufByte c a

/-- Every element of `DBUF[c]` reads as before. -/
def SameDbuf (c : Codec) (s t : State) : Prop := ∀ i, t.dbufElem c i = s.dbufElem c i

/-- Everything engine `c` owns (rule R16), `VALID` and `RDATA` apart, is unchanged. -/
def SameEngine (c : Codec) (s t : State) : Prop :=
  SameRegs c s t ∧ SameCbuf c s t ∧ SameDbuf c s t

/-- Every element of `SRC` reads as before. -/
def SameSrc (s t : State) : Prop := ∀ i, t.srcElem i = s.srcElem i

/-- Both error records are unchanged. -/
def SameRecords (s t : State) : Prop :=
  t.err = s.err ∧ t.ecause = s.ecause ∧ t.einfo = s.einfo ∧
    t.halt = s.halt ∧ t.fcause = s.fcause ∧ t.finfo = s.finfo

/-- The parameters, the pending transactions and the answer are unchanged. -/
def SameHost (s t : State) : Prop :=
  t.params = s.params ∧ t.script = s.script ∧ t.resp = s.resp

/-- All that a command to engine `c` may never write: the other engines, the source, the error
records, the parameters and the host's side. -/
def SameOutside (c : Codec) (s t : State) : Prop :=
  (∀ d, d ≠ c → SameEngine d s t) ∧ SameSrc s t ∧ SameRecords s t ∧ SameHost s t

/-! ### Instructions of one shape -/

/-- `cfg.c B`. -/
def cfgOf : Codec → Nat → Instr
  | .fwp => .cfgFwp
  | .forb => .cfgFor
  | .mbp => .cfgMbp

/-- `pack.c N`. -/
def packOf : Codec → Nat → Instr
  | .fwp => .packFwp
  | .forb => .packFor
  | .mbp => .packMbp

/-- `unpack.c n`. -/
def unpackOf : Codec → Nat → Instr
  | .fwp => .unpackFwp
  | .forb => .unpackFor
  | .mbp => .unpackMbp

/-- The engine an instruction is addressed to (rule R16); none for `nop`, `srst`, `clrerr`. -/
def addressee : Instr → Option Codec
  | .nop => none
  | .cfgFwp _ => some .fwp
  | .cfgFor _ => some .forb
  | .cfgMbp _ => some .mbp
  | .packFwp _ => some .fwp
  | .packFor _ => some .forb
  | .packMbp _ => some .mbp
  | .unpackFwp _ => some .fwp
  | .unpackFor _ => some .forb
  | .unpackMbp _ => some .mbp
  | .atIndex _ => some .forb
  | .srst => none
  | .clrerr => none

/-- The number of a codec, rule R11. -/
def codecIndex : Codec → Nat
  | .fwp => 0
  | .forb => 1
  | .mbp => 2

/-- The conditions under which a count passes checks 9 to 11 of rule R127: the engine is
constructed, the count is within the capacity and a multiple of the granularity. -/
def CountOk (c : Codec) (n : Nat) (s : State) : Prop :=
  (s.engine c).cfgd = true ∧ n ≤ s.params.nMax ∧ n % granularity s.params c = 0

/-- The bytes of n elements are present: check 12 passes (rule R122). -/
def EnoughBytes (c : Codec) (n : Nat) (s : State) : Prop :=
  ceilDiv8 (s.widthOf c * n) ≤ (s.engine c).clen.toNat

/-! ### The order of checks, rule R127 -/

/-- What one line of rule R127 reports. -/
inductive Verdict where
  | dropped
  | rejected (code : BitVec 4)
  | halted (code : BitVec 4)
  deriving DecidableEq, Repr

/-- The fourteen lines of rule R127 for a word `w` written to `CMD`, with the codes of rule R112. -/
def priorityList (w : Word) (s : State) : List (Bool × Verdict) :=
  let op := opField w
  let cs := cselField w
  let arg := argField w
  let c := (codecOfNat? cs).getD .fwp
  [ (s.halt, .dropped),
    (s.err, .dropped),
    (decide (5 ≤ op), .rejected 2),
    (decide (op = 0 ∧ w ≠ 0), .rejected 2),
    (decide (cs = 3), .rejected 1),
    (decide (op = 4 ∧ cs ≠ 1), .rejected 2),
    (decide (op = 1 ∧ arg >>> 6 ≠ 0), .rejected 2),
    (decide (op = 1 ∧ (arg = 0 ∨ wmax c < arg)), .rejected 3),
    (decide ((op = 2 ∨ op = 3 ∨ op = 4) ∧ (s.engine c).cfgd = false), .rejected 4),
    (decide ((op = 2 ∨ op = 3) ∧ s.params.nMax < arg), .rejected 5),
    (decide ((op = 2 ∨ op = 3) ∧ arg % granularity s.params c ≠ 0), .halted 1),
    (decide (op = 3 ∧ (s.engine c).clen.toNat < ceilDiv8 (s.widthOf c * arg)), .rejected 6),
    (decide (op = 4 ∧ s.valid = false), .rejected 7),
    (decide (op = 4 ∧ s.forb.dcnt.toNat ≤ arg), .rejected 8) ]

/-- The first check that fails decides. -/
def firstVerdict : List (Bool × Verdict) → Option Verdict
  | [] => none
  | (true, v) :: _ => some v
  | (false, _) :: rest => firstVerdict rest

/-! ### The life of `VALID`, rule R89 -/

/-- What the next step does to `VALID`: sets it, clears it, or leaves it.  A command counts only when
it is accepted and passes its checks. -/
def validEvent (s : State) : Option Bool :=
  match s.script with
  | .hardReset :: _ => some false
  | .cbufWrite c a _ :: _ => if c = 1 ∧ a < ccap s.params .forb then some false else none
  | .regWrite off size d :: _ =>
    if size ≠ 4 then none
    else if off = 0x068 then if d.toNat ≤ ccap s.params .forb then some false else none
    else if off = 0x01C then if decodeCtrl d = some .srst then some false else none
    else if off = 0x004 then
      if s.halt ∨ s.err then none
      else
        match decodeCmd d with
        | .instr (.cfgFor b) => if 1 ≤ b ∧ b ≤ 56 then some false else none
        | .instr (.packFor n) => if countCheck .forb n s = .pass then some false else none
        | .instr (.unpackFor n) => if unpackCheck .forb n s = .pass then some true else none
        | _ => none
    else none
  | _ => none

/-! ### The invariant of rule R37 -/

/-- Rule R37, its clauses (a) to (h), and the canonical form of the seven buffers. -/
structure BlockInv (s : State) : Prop where
  /-- (a) -/
  unconfigured : ∀ c, (s.engine c).cfgd = false → (s.engine c).width = 0 ∧ (s.engine c).dcnt = 0
  /-- (b) -/
  configured : ∀ c, (s.engine c).cfgd = true → 1 ≤ s.widthOf c ∧ s.widthOf c ≤ wmax c
  /-- (c) -/
  clen_le : ∀ c, (s.engine c).clen.toNat ≤ ccap s.params c
  /-- (d) -/
  dcnt_le : ∀ c, (s.engine c).dcnt.toNat ≤ s.params.nMax
  /-- (e) -/
  valid_array : s.valid = true →
    s.forb.cfgd = true ∧
      ceilDiv8 (s.widthOf .forb * s.forb.dcnt.toNat) ≤ s.forb.clen.toNat ∧
      ∀ i, i < s.forb.dcnt.toNat →
        (s.dbufElem .forb i).toNat =
          extractSum (s.cbufByte .forb) (s.widthOf .forb) (i + 1) % 2 ^ 64
  /-- (f), recoverable record -/
  no_err : s.err = false → s.ecause = 0 ∧ s.einfo = 0
  /-- (f), fatal record -/
  no_halt : s.halt = false → s.fcause = 0 ∧ s.finfo = 0
  /-- (g), recoverable record -/
  err_code : s.err = true → 1 ≤ s.ecause.toNat ∧ s.ecause.toNat ≤ 8
  /-- (g), fatal record -/
  halt_code : s.halt = true → s.fcause = 1
  /-- (h) -/
  one_tier : ¬(s.err = true ∧ s.halt = true)
  /-- Canonical form of `SRC`. -/
  src_wf : s.src.wf = true ∧ s.src.within s.params.nMax = true
  /-- Canonical form of `CBUF[c]`. -/
  cbuf_wf : ∀ c, (s.engine c).cbuf.wf = true ∧
    (s.engine c).cbuf.within (ccap s.params c) = true
  /-- Canonical form of `DBUF[c]`. -/
  dbuf_wf : ∀ c, (s.engine c).dbuf.wf = true ∧ (s.engine c).dbuf.within s.params.nMax = true

/-! ### The host's validator, rules R125 and R126 -/

/-- The exact sum of the source elements 0 to n − 1. -/
def srcSum (s : State) : Nat → Nat
  | 0 => 0
  | n + 1 => srcSum s n + (s.srcElem n).toNat

/-- What the validator expects of decoded element `i`: the source element, or for FOR its prefix
sum (rule R125). -/
def expectedElem (c : Codec) (s : State) (i : Nat) : Nat :=
  match c with
  | .fwp => (s.srcElem i).toNat
  | .forb => srcSum s (i + 1)
  | .mbp => (s.srcElem i).toNat

/-- The validator finds a RoundTripMismatch (rule R125). -/
def RoundTripMismatch (c : Codec) (n : Nat) (s : State) : Prop :=
  ∃ i, i < n ∧ (s.dbufElem c i).toNat ≠ expectedElem c s i

/-- The validator finds a SizeLawViolation (rule R126); MBP is exempt. -/
def SizeLawViolation (c : Codec) (b n : Nat) (s : State) : Prop :=
  c ≠ .mbp ∧ (s.engine c).clen.toNat ≠ ceilDiv8 (b * n)

end Sys2Proof.Machine
end

