-- ==== Sys2Proof/Certificates/Slice0/Obligations.lean ====
section
/-! DEFINITION. The statements for the provers.  Each docstring names the rule of the spec it
formalises.  A statement about an instruction holds for every well-formed and ill-formed operand
unless it says otherwise, and for every allowed `N_MAX` and `G_FIXED`, because the parameters are
those of the state. -/

open Sys2Proof Sys2Proof.Machine

/-! ### Encoding -/

/-- Decoding an encoded well-formed instruction at its port, or as a table word, gives it back with
every operand at every value its field admits (30_encoding.md rules R53, R57, R59). -/
def Obligations.DecodeOfEncodeIsTheInstruction : Prop :=
  ∀ i : Instr, i.wf = true →
    decodeAt i.port (encode i) = some i ∧ decodeTableWord 32 (encode i).toNat = some i

/-- Each command word has one meaning: the word of the instruction it decodes to is the word itself,
so the word an instruction records in `EINFO` or `FINFO` is the word written (rules R57, R111). -/
def Obligations.EncodeOfDecodedCommandIsItsWord : Prop :=
  ∀ (w : Word) (i : Instr), decodeCmd w = .instr i →
    i.wf = true ∧ i.port = .cmd ∧ encode i = w

/-- Rule R57: a word is instruction X exactly when `(w & mask_X) == match_X`, the eleven patterns
are pairwise disjoint, and a word that matches none is rejected with the cause of the first step of
the procedure that applies; the operand of an instruction is its field; a step of the Ready block carries
the decision out. -/
def Obligations.CommandWordsAreTheElevenPatterns : Prop :=
  (∀ (w : Word) (i : Instr), decodeCmd w = .instr i →
    i.row ∈ commandTable ∧ i.row.matches w = true ∧ encode i = w) ∧
  (∀ (w : Word) (r : OpcodeRow), r ∈ commandTable → r.matches w = true →
    ∃ i, decodeCmd w = .instr i ∧ i.row = r) ∧
  (commandTable.length = 11 ∧
    commandTable.Pairwise fun r r' => ∀ w : Word, ¬(r.matches w = true ∧ r'.matches w = true)) ∧
  (∀ w : Word, (∀ r ∈ commandTable, r.matches w = false) →
    decodeCmd w =
      if 5 ≤ opField w then .illegal .illegalCommand
      else if opField w = 0 then .illegal .illegalCommand
      else if cselField w = 3 then .illegal .unknownCodecSelector
      else .illegal .illegalCommand) ∧
  (∀ (s : State) (w : Word) (rest : List Transaction), Ready s →
    s.script = .regWrite 0x004 4 w :: rest →
    (∀ i, decodeCmd w = .instr i → step s = exec i (afterHead .okay s)) ∧
    (∀ k, decodeCmd w = .illegal k →
      step s = .next { afterHead .okay s with err := true, ecause := rejectCode k, einfo := w }))

/-- Rule R59: the decoding of a word written to `CTRL`, in every state, no such write sets `ERR`, and
the two words are those of the rows of the opcode table. -/
def Obligations.ControlWriteIsSrstClrerrOrNothing : Prop :=
  (∀ d : Word, Instr.srst.row.matches d = true ↔ decodeCtrl d = some .srst) ∧
  (∀ d : Word, Instr.clrerr.row.matches d = true ↔ decodeCtrl d = some .clrerr) ∧
  ∀ (s : State) (d : Word) (rest : List Transaction),
    s.script = .regWrite 0x01C 4 d :: rest →
    (d.toNat / 4 ≠ 0 → step s = .next (afterHead .okay s)) ∧
    (d.toNat / 4 = 0 → d.getLsbD 0 = true → step s = exec .srst (afterHead .okay s)) ∧
    (d.toNat / 4 = 0 → d.getLsbD 0 = false → d.getLsbD 1 = true →
      step s = exec .clrerr (afterHead .okay s)) ∧
    (d = 0 → step s = .next (afterHead .okay s)) ∧
    (∀ t, step s = .next t → t.err = true → s.err = true)

/-- Words written out from the spec's encodings (rules R61, R65 to R67, R76, R80, R85, R87, R88,
R95, R97, R103 to R105 and the vectors of 95_test_vectors.md) decode to what they stand for. -/
def Obligations.WordsOfTheSpecDecode : Prop :=
  decodeCmd 0x00000000 = .instr .nop ∧
  decodeCmd 0x10000004 = .instr (.cfgFwp 4) ∧
  decodeCmd 0x14000038 = .instr (.cfgFor 56) ∧
  decodeCmd 0x18000020 = .instr (.cfgMbp 32) ∧
  decodeCmd 0x20000010 = .instr (.packFwp 16) ∧
  decodeCmd 0x24000008 = .instr (.packFor 8) ∧
  decodeCmd 0x28000030 = .instr (.packMbp 48) ∧
  decodeCmd 0x30000018 = .instr (.unpackFwp 24) ∧
  decodeCmd 0x34000108 = .instr (.unpackFor 264) ∧
  decodeCmd 0x38000040 = .instr (.unpackMbp 64) ∧
  decodeCmd 0x44000007 = .instr (.atIndex 7) ∧
  decodeCmd 0x10000044 = .illegal .illegalCommand ∧
  decodeCmd 0x1C000004 = .illegal .unknownCodecSelector ∧
  decodeCmd 0x4C000000 = .illegal .unknownCodecSelector ∧
  decodeCmd 0x5C000000 = .illegal .illegalCommand ∧
  decodeCtrl 0x00000001 = some .srst ∧
  decodeCtrl 0x00000003 = some .srst ∧
  decodeCtrl 0x00000002 = some .clrerr ∧
  decodeCtrl 0x00000004 = none

/-! ### The step -/

/-- A step runs the decoded instruction: a `CMD` write of a word that decodes to `i`, in the Ready
state, and a `CTRL` write that decodes to `i`, in every state, is `exec i` at the state whose
transaction has left the script with answer OKAY (rules R59, R102). -/
def Obligations.StepRunsTheDecodedInstruction : Prop :=
  ∀ (s : State) (w : Word) (i : Instr) (rest : List Transaction),
    (s.script = .regWrite 0x004 4 w :: rest → Ready s → decodeCmd w = .instr i →
      step s = exec i (afterHead .okay s)) ∧
    (s.script = .regWrite 0x01C 4 w :: rest → decodeCtrl w = some i →
      step s = exec i (afterHead .okay s))

/-- Rule R102: while `HALT` or `ERR` is 1 a `CMD` write has no effect and is answered OKAY; else the
word is decoded and performed, or rejected with its cause; and a step that answers then either
completes with no error, or changes the recoverable record only, or the fatal record only. -/
def Obligations.CommandAcceptance : Prop :=
  ∀ (s : State) (w : Word) (rest : List Transaction),
    s.script = .regWrite 0x004 4 w :: rest →
    (s.halt = true → step s = .next (afterHead .okay s)) ∧
    (s.halt = false → s.err = true → step s = .next (afterHead .okay s)) ∧
    (Ready s → ∀ i, decodeCmd w = .instr i → step s = exec i (afterHead .okay s)) ∧
    (Ready s → ∀ k, decodeCmd w = .illegal k →
      step s = .next { afterHead .okay s with err := true, ecause := rejectCode k, einfo := w }) ∧
    (Ready s → ∀ t, step s = .next t →
      (t.err = false ∧ t.halt = false) ∨
      (∃ code, t = { afterHead .okay s with err := true, ecause := code, einfo := w }) ∨
      (∃ code, t = { afterHead .okay s with halt := true, fcause := code, finfo := w }))

/-- A table word placed where the next transaction stands is run by the very next step.  How a word
is placed is the model's choice (logs 2 and 7); that the step runs it rests on rules R59 and R102. -/
def Obligations.PlacedTableWordIsRunNext : Prop :=
  ∀ (s : State) (w : Nat) (i : Instr), w < 2 ^ 32 → decodeTableWord 32 w = some i →
    (Ready s ∨ i.port = .ctrl) →
    step (s.withFetchWord 32 w) = exec i { s with resp := .okay }

/-- With no transaction pending the block does nothing (00_scope.md rule R6: it changes state only
inside a transaction; that a step without one is a next state is the model's choice, log 2). -/
def Obligations.IdleBlockKeepsItsState : Prop :=
  ∀ s : State, s.script = [] → step s = .next s

/-- No step faults, and the only refusal is that of a pack whose checks pass and whose source does
not fit: every other transaction, in every state, answers a next state (rules R60, R83, R110).  That
a step with none pending is a next state is the model's choice (log 2), and that the refusal comes
after the checks is read from the pseudocode of rule R76 (log 5). -/
def Obligations.OnlyAnUnfitSourceStopsAStep : Prop :=
  ∀ s : State,
    (∃ t, step s = .next t) ∨
    (step s = .refused .sourceOutOfRange ∧ Ready s ∧
      ∃ c n w rest, s.script = .regWrite 0x004 4 w :: rest ∧ decodeCmd w = .instr (packOf c n) ∧
        CountOk c n s ∧ ¬SrcBelow n (s.widthOf c) s)

/-! ### Errors -/

/-- Rule R127: for every word written to `CMD`, in every state, the first failing check of the
fourteen decides, with the codes of rule R112, and records the word and nothing else; when none
fails the instruction runs and raises no error. -/
def Obligations.FirstFailingCheckDecides : Prop :=
  ∀ (s : State) (w : Word) (rest : List Transaction),
    s.script = .regWrite 0x004 4 w :: rest →
    match firstVerdict (priorityList w s) with
    | some .dropped => step s = .next (afterHead .okay s)
    | some (.rejected code) =>
      step s = .next { afterHead .okay s with err := true, ecause := code, einfo := w }
    | some (.halted code) =>
      step s = .next { afterHead .okay s with halt := true, fcause := code, finfo := w }
    | none =>
      ∃ i, decodeCmd w = .instr i ∧ step s = exec i (afterHead .okay s) ∧
        ∀ t, step s = .next t → t.err = false ∧ t.halt = false

/-- Rule R118: a count that is not a multiple of `G[c]`, on a constructed engine and within the
capacity, halts the block, for `pack` and `unpack` of every engine, whatever is in `CLEN[c]`. -/
def Obligations.BadGranularityHaltsTheBlock : Prop :=
  ∀ (c : Codec) (n : Nat) (i : Instr) (s : State), (i = packOf c n ∨ i = unpackOf c n) →
    (s.engine c).cfgd = true → n ≤ s.params.nMax →
    n % (if c = .mbp then 32 else s.params.gFixed) ≠ 0 →
    exec i s = .next { s with halt := true, fcause := 1, finfo := encode i }

/-- Rule R120: `pack.c`, `unpack.c` and `at` on an engine that is not constructed are rejected with
NotConfigured, whatever their operand. -/
def Obligations.UnconfiguredEngineRejects : Prop :=
  ∀ (c : Codec) (n : Nat) (i : Instr) (s : State),
    (i = packOf c n ∨ i = unpackOf c n ∨ (c = .forb ∧ i = .atIndex n)) →
    (s.engine c).cfgd = false →
    exec i s = .next { s with err := true, ecause := 4, einfo := encode i }

/-- A count above `N_MAX` on a constructed engine is rejected with Capacity, a multiple of the
granularity or not (rules R121, R127).  The remark of rule R121 on `N_MAX = 2^26 − 1` is not stated:
rule R8 allows no such value (log 8). -/
def Obligations.CountAboveCapacityRejects : Prop :=
  ∀ (c : Codec) (n : Nat) (i : Instr) (s : State), (i = packOf c n ∨ i = unpackOf c n) →
    (s.engine c).cfgd = true → s.params.nMax < n →
    exec i s = .next { s with err := true, ecause := 5, einfo := encode i }

/-- Rule R122: an unpack whose count passes the checks before it and needs more bytes than `CLEN[c]`
is rejected with Underrun. -/
def Obligations.MissingBytesReject : Prop :=
  ∀ (c : Codec) (n : Nat) (s : State), CountOk c n s →
    (s.engine c).clen.toNat < ceilDiv8 (s.widthOf c * n) →
    exec (unpackOf c n) s =
      .next { s with err := true, ecause := 6, einfo := encode (unpackOf c n) }

/-- Nothing but a reset leaves the fatal tier: while `HALT = 1` no step clears or overwrites `HALT`,
`FCAUSE` or `FINFO` unless it is `HardReset` or an `srst` (rules R25, R115, R128). -/
def Obligations.HaltIsLeftOnlyByAReset : Prop :=
  ∀ s t : State, s.halt = true → step s = .next t →
    (t.halt = true ∧ t.fcause = s.fcause ∧ t.finfo = s.finfo) ∨
    (∃ rest, s.script = .hardReset :: rest) ∨
    (∃ d rest, s.script = .regWrite 0x01C 4 d :: rest ∧ decodeCtrl d = some .srst)

/-- The recoverable record stays until it is acknowledged: while `ERR = 1` no step changes `ERR`,
`ECAUSE` or `EINFO` unless it is `clrerr`, `srst` or `HardReset` (rules R24, R114, R128). -/
def Obligations.RejectionRecordStaysUntilAcknowledged : Prop :=
  ∀ s t : State, s.err = true → step s = .next t →
    (t.err = true ∧ t.ecause = s.ecause ∧ t.einfo = s.einfo) ∨
    (∃ rest, s.script = .hardReset :: rest) ∨
    (∃ d rest i, s.script = .regWrite 0x01C 4 d :: rest ∧ decodeCtrl d = some i)

/-- Only a command written to `CMD` raises an error (rule R110): a step that sets `ERR` or `HALT`
performs a `CMD` write in the Ready state, and then sets exactly one of the two, records that word,
and leaves every engine, the source, `VALID` and `RDATA` as they were (rules R114, R115). -/
def Obligations.ErrorsAreRaisedByCommandsOnly : Prop :=
  ∀ s t : State, step s = .next t →
    ((s.err = false ∧ t.err = true) ∨ (s.halt = false ∧ t.halt = true)) →
    Ready s ∧ ∃ w rest, s.script = .regWrite 0x004 4 w :: rest ∧
      (∀ c, t.engine c = s.engine c) ∧ t.src = s.src ∧ t.valid = s.valid ∧ t.rdata = s.rdata ∧
      ((t.err = true ∧ t.einfo = w ∧ t.halt = false ∧ t.fcause = s.fcause ∧ t.finfo = s.finfo) ∨
        (t.halt = true ∧ t.finfo = w ∧ t.err = false ∧ t.ecause = s.ecause ∧ t.einfo = s.einfo))

/-! ### CFG -/

/-- Rule R64, with the width ranges of rules R65 to R67: `cfg.fwp`, `cfg.for`, `cfg.mbp` at a legal
width construct the engine and change nothing else; at any other width they are rejected with
IllegalWidth and change nothing but the record. -/
def Obligations.CfgConstructsTheEngine : Prop :=
  ∀ (c : Codec) (b : Nat) (s : State),
    (1 ≤ b → b ≤ (if c = .mbp then 32 else 56) →
      ∃ t, exec (cfgOf c b) s = .next t ∧
        t.widthOf c = b ∧ (t.engine c).cfgd = true ∧ (t.engine c).clen = 0 ∧
        (t.engine c).dcnt = 0 ∧
        t.valid = (if c = .forb then false else s.valid) ∧ t.rdata = s.rdata ∧
        SameCbuf c s t ∧ SameDbuf c s t ∧ SameOutside c s t) ∧
    ((b = 0 ∨ (if c = .mbp then 32 else 56) < b) →
      exec (cfgOf c b) s =
        .next { s with err := true, ecause := 3, einfo := encode (cfgOf c b) })

/-- After a `cfg.c` an unpack of at least one element is rejected with Underrun, because `CLEN[c]`
is 0, until something supplies data again (rule R69). -/
def Obligations.ReconfiguredEngineHoldsNoData : Prop :=
  ∀ (c : Codec) (b n : Nat) (s t : State), 1 ≤ b → b ≤ (if c = .mbp then 32 else 56) →
    exec (cfgOf c b) s = .next t → 1 ≤ n → n ≤ s.params.nMax →
    n % granularity s.params c = 0 →
    exec (unpackOf c n) t =
      .next { t with err := true, ecause := 6, einfo := encode (unpackOf c n) }

/-! ### Pack -/

/-- `pack.fwp` and `pack.for` complete when the count passes its checks and the source fits (rules
R71, R74, R76, R85, R91): bit j of element i is bit `i × B + j` of the buffer, the padding bits are
0, `CLEN[c]` is exactly `ceil(B × N / 8)`, `VALID` is cleared for FOR; bytes beyond, and everything
else, are unchanged. -/
def Obligations.PackFixedWritesTheLayout : Prop :=
  ∀ (c : Codec) (n : Nat) (s : State), c ≠ .mbp → CountOk c n s → SrcBelow n (s.widthOf c) s →
    ∃ t, exec (packOf c n) s = .next t ∧
      (t.engine c).clen.toNat = ceilDiv8 (s.widthOf c * n) ∧
      (∀ i j, i < n → j < s.widthOf c →
        bitOf (t.cbufByte c) (i * s.widthOf c + j) = (s.srcElem i).getLsbD j) ∧
      (∀ k, s.widthOf c * n ≤ k → k < 8 * ceilDiv8 (s.widthOf c * n) →
        bitOf (t.cbufByte c) k = false) ∧
      (∀ a, ceilDiv8 (s.widthOf c * n) ≤ a → t.cbufByte c a = s.cbufByte c a) ∧
      (t.engine c).width = (s.engine c).width ∧ (t.engine c).cfgd = (s.engine c).cfgd ∧
      (t.engine c).dcnt = (s.engine c).dcnt ∧ SameDbuf c s t ∧
      t.valid = (if c = .forb then false else s.valid) ∧ t.rdata = s.rdata ∧ SameOutside c s t

/-- `pack.mbp` completes when the count passes its checks and the source fits (rules R93, R95, R96):
bit t of lane j of mini-block m is bit `16 × B × m + j × B + t`, `CLEN[MBP]` is `4 × N`, the spec's
decided bound; bytes at or beyond the used length `B × N / 8`, and everything else, are unchanged. -/
def Obligations.PackMbpWritesMiniBlocks : Prop :=
  ∀ (n : Nat) (s : State), CountOk .mbp n s → SrcBelow n (s.widthOf .mbp) s →
    ∃ t, exec (.packMbp n) s = .next t ∧
      t.mbp.clen.toNat = 4 * n ∧
      (∀ m j k, m < n / 16 → j < 16 → k < s.widthOf .mbp →
        bitOf (t.cbufByte .mbp) (16 * s.widthOf .mbp * m + j * s.widthOf .mbp + k) =
          (s.srcElem (16 * m + j)).getLsbD k) ∧
      (∀ a, s.widthOf .mbp * n / 8 ≤ a → t.cbufByte .mbp a = s.cbufByte .mbp a) ∧
      t.mbp.width = s.mbp.width ∧ t.mbp.cfgd = s.mbp.cfgd ∧ t.mbp.dcnt = s.mbp.dcnt ∧
      SameDbuf .mbp s t ∧ t.valid = s.valid ∧ t.rdata = s.rdata ∧ SameOutside .mbp s t

/-- A pack is refused exactly when its checks pass and some source value does not fit its width, and
that can happen only for widths of at most 31 (rule R83).  That the checks come before the refusal is
the model's reading of the pseudocode of rule R76 (log 5). -/
def Obligations.PackIsRefusedExactlyForAnUnfitSource : Prop :=
  ∀ (c : Codec) (n : Nat) (s : State),
    (exec (packOf c n) s = .refused .sourceOutOfRange ↔
      CountOk c n s ∧ ∃ i, i < n ∧ 2 ^ s.widthOf c ≤ (s.srcElem i).toNat) ∧
    (exec (packOf c n) s = .refused .sourceOutOfRange → s.widthOf c ≤ 31)

/-! ### Unpack and `at` -/

/-- `unpack.fwp` completes when the count passes its checks and the bytes are there (rules R78,
R80): element i has the B bits at bit `i × B` of the buffer and zeros above; elements at or beyond n,
and everything else, are unchanged. -/
def Obligations.UnpackFwpExtractsTheElements : Prop :=
  ∀ (n : Nat) (s : State), CountOk .fwp n s → EnoughBytes .fwp n s →
    ∃ t, exec (.unpackFwp n) s = .next t ∧
      t.fwp.dcnt.toNat = n ∧
      (∀ i j, i < n → j < 64 →
        (t.dbufElem .fwp i).getLsbD j =
          (decide (j < s.widthOf .fwp) && bitOf (s.cbufByte .fwp) (i * s.widthOf .fwp + j))) ∧
      (∀ i, n ≤ i → t.dbufElem .fwp i = s.dbufElem .fwp i) ∧
      t.fwp.width = s.fwp.width ∧ t.fwp.cfgd = s.fwp.cfgd ∧ t.fwp.clen = s.fwp.clen ∧
      SameCbuf .fwp s t ∧ t.valid = s.valid ∧ t.rdata = s.rdata ∧ SameOutside .fwp s t

/-- `unpack.for`, written `update`, completes when the count passes its checks and the bytes are
there (rules R86, R87): element i is the sum of the extracted elements 0 to i modulo 2^64, `VALID`
is set; elements at or beyond n, and everything else, are unchanged. -/
def Obligations.UnpackForMaterialisesTheRunningSum : Prop :=
  ∀ (n : Nat) (s : State), CountOk .forb n s → EnoughBytes .forb n s →
    ∃ t, exec (.unpackFor n) s = .next t ∧
      t.forb.dcnt.toNat = n ∧ t.valid = true ∧
      (∀ i, i < n → (t.dbufElem .forb i).toNat =
        extractSum (s.cbufByte .forb) (s.widthOf .forb) (i + 1) % 2 ^ 64) ∧
      (∀ i, n ≤ i → t.dbufElem .forb i = s.dbufElem .forb i) ∧
      t.forb.width = s.forb.width ∧ t.forb.cfgd = s.forb.cfgd ∧ t.forb.clen = s.forb.clen ∧
      SameCbuf .forb s t ∧ t.rdata = s.rdata ∧ SameOutside .forb s t

/-- `unpack.mbp` completes when the count passes its checks and the bytes are there (rules R97,
R101): lane j of mini-block m has the B bits at bit `16 × B × m + j × B` and zeros above, whatever
the other lanes hold; elements at or beyond n, and everything else, are unchanged. -/
def Obligations.UnpackMbpExtractsTheLanes : Prop :=
  ∀ (n : Nat) (s : State), CountOk .mbp n s → EnoughBytes .mbp n s →
    ∃ t, exec (.unpackMbp n) s = .next t ∧
      t.mbp.dcnt.toNat = n ∧
      (∀ m j k, m < n / 16 → j < 16 → k < 64 →
        (t.dbufElem .mbp (16 * m + j)).getLsbD k =
          (decide (k < s.widthOf .mbp) &&
            bitOf (s.cbufByte .mbp) (16 * s.widthOf .mbp * m + j * s.widthOf .mbp + k))) ∧
      (∀ i, n ≤ i → t.dbufElem .mbp i = s.dbufElem .mbp i) ∧
      t.mbp.width = s.mbp.width ∧ t.mbp.cfgd = s.mbp.cfgd ∧ t.mbp.clen = s.mbp.clen ∧
      SameCbuf .mbp s t ∧ t.valid = s.valid ∧ t.rdata = s.rdata ∧ SameOutside .mbp s t

/-- Rule R88: `at i` copies `DBUF[FOR][i]` to `RDATA` and writes nothing else; it is rejected with
NotConfigured, Stale or Index, the first that applies, and then `RDATA` keeps its value. -/
def Obligations.AtReadsTheMaterialisedArray : Prop :=
  ∀ (i : Nat) (s : State),
    (s.forb.cfgd = true → s.valid = true → i < s.forb.dcnt.toNat →
      exec (.atIndex i) s = .next { s with rdata := s.dbufElem .forb i }) ∧
    (s.forb.cfgd = false →
      exec (.atIndex i) s =
        .next { s with err := true, ecause := 4, einfo := encode (.atIndex i) }) ∧
    (s.forb.cfgd = true → s.valid = false →
      exec (.atIndex i) s =
        .next { s with err := true, ecause := 7, einfo := encode (.atIndex i) }) ∧
    (s.forb.cfgd = true → s.valid = true → s.forb.dcnt.toNat ≤ i →
      exec (.atIndex i) s =
        .next { s with err := true, ecause := 8, einfo := encode (.atIndex i) })

/-- Rule R89, the complete life of `VALID`: a step sets it, clears it or leaves it exactly as the
rule lists. -/
def Obligations.ValidFollowsItsLifecycle : Prop :=
  ∀ s t : State, step s = .next t → t.valid = (validEvent s).getD s.valid

/-- Rule R84: a pack or an unpack issued again leaves the state exactly as the first left it. -/
def Obligations.RepeatingACommandChangesNothing : Prop :=
  ∀ (c : Codec) (n : Nat) (i : Instr) (s t : State), (i = packOf c n ∨ i = unpackOf c n) →
    exec i s = .next t → exec i t = .next t

/-! ### System operations and reset -/

/-- Rule R103: `nop` changes no state and raises no error, accepted or dropped; any other word with
`OP = 0` is IllegalCommand. -/
def Obligations.NopChangesNothing : Prop :=
  (∀ s : State, exec .nop s = .next s) ∧
  (∀ (s : State) (rest : List Transaction), s.script = .regWrite 0x004 4 0x00000000 :: rest →
    step s = .next (afterHead .okay s)) ∧
  (∀ (s : State) (w : Word) (rest : List Transaction), s.script = .regWrite 0x004 4 w :: rest →
    Ready s → opField w = 0 → w ≠ 0 →
    step s = .next { afterHead .okay s with err := true, ecause := 2, einfo := w })

/-- Rule R104: `clrerr`, in every state, clears `ERR`, `ECAUSE` and `EINFO` and changes nothing
else, not `HALT`, `FCAUSE` or `FINFO`. -/
def Obligations.ClrerrClearsTheRecoverableRecord : Prop :=
  (∀ s : State, exec .clrerr s = .next { s with err := false, ecause := 0, einfo := 0 }) ∧
  (∀ (s : State) (rest : List Transaction), s.script = .regWrite 0x01C 4 0x00000002 :: rest →
    step s = .next { afterHead .okay s with err := false, ecause := 0, einfo := 0 })

/-- Rule R105 with the values of rule R38: `srst`, in every state, puts every register and flag to
its reset value and keeps the contents of the seven buffers; both its words do so. -/
def Obligations.SrstResetsRegistersAndKeepsBuffers : Prop :=
  (∀ s : State, ∃ t, exec .srst s = .next t ∧
    (∀ c, (t.engine c).width = 0 ∧ (t.engine c).cfgd = false ∧ (t.engine c).clen = 0 ∧
      (t.engine c).dcnt = 0 ∧ SameCbuf c s t ∧ SameDbuf c s t) ∧
    t.valid = false ∧ t.err = false ∧ t.ecause = 0 ∧ t.einfo = 0 ∧
    t.halt = false ∧ t.fcause = 0 ∧ t.finfo = 0 ∧ t.rdata = 0 ∧
    SameSrc s t ∧ SameHost s t) ∧
  (∀ (s : State) (d : Word) (rest : List Transaction), (d = 1 ∨ d = 3) →
    s.script = .regWrite 0x01C 4 d :: rest → step s = exec .srst (afterHead .okay s))

/-- Rule R135 with rule R134: a hard reset has exactly the effect of `srst`, and after it the block
is Ready with both outputs 0. -/
def Obligations.HardResetHasTheEffectOfSrst : Prop :=
  ∀ (s : State) (rest : List Transaction), s.script = .hardReset :: rest →
    step s = exec .srst (afterHead .okay s) ∧
    ∃ t, step s = .next t ∧ Ready t ∧ t.oErr = false ∧ t.oHalt = false

/-- The values of rule R38 in the state the model starts from, with no buffer place written (rule
R51).  Its parameters, its empty script and its answer are the model's choice (logs 1 and 2). -/
def Obligations.ResetStateHasTheResetValues : Prop :=
  (∀ c, (State.reset.engine c).width = 0 ∧ (State.reset.engine c).cfgd = false ∧
    (State.reset.engine c).clen = 0 ∧ (State.reset.engine c).dcnt = 0 ∧
    (∀ a, State.reset.cbufByte c a = Config.powerOnCbuf c a) ∧
    (∀ i, State.reset.dbufElem c i = Config.powerOnDbuf c i)) ∧
  (∀ i, State.reset.srcElem i = Config.powerOnSrc i) ∧
  State.reset.valid = false ∧ State.reset.err = false ∧ State.reset.ecause = 0 ∧
  State.reset.einfo = 0 ∧ State.reset.halt = false ∧ State.reset.fcause = 0 ∧
  State.reset.finfo = 0 ∧ State.reset.rdata = 0

/-! ### Isolation -/

/-- Rule R16: a command addressed to engine c writes no state of another engine, and no engine
writes `SRC`; `VALID` and `RDATA` are FOR's. -/
def Obligations.EnginesShareNoMutableState : Prop :=
  ∀ (i : Instr) (c : Codec) (s t : State), addressee i = some c → exec i s = .next t →
    (∀ d, d ≠ c → SameEngine d s t) ∧ SameSrc s t ∧
    (c ≠ .forb → t.valid = s.valid ∧ t.rdata = s.rdata)

/-- The result of a command depends on the addressed engine, the source and the parameters alone (rules
R16, R47): of two states that agree on these and on `VALID`, both complete, or both raise the same
error of the same tier with the same word, or both are refused.  When both complete the engine and
`VALID` come out alike, `at` gives both the same `RDATA`, and every other command leaves `RDATA`. -/
def Obligations.CommandsReadOnlyTheirOwnEngine : Prop :=
  ∀ (i : Instr) (c : Codec) (s s' : State), addressee i = some c →
    s'.engine c = s.engine c → (∀ k, s'.srcElem k = s.srcElem k) → s'.valid = s.valid →
    s'.params = s.params →
    (∀ t, exec i s = .next t → ∃ t', exec i s' = .next t' ∧
      t'.engine c = t.engine c ∧ t'.valid = t.valid ∧
      ((SameRecords s t ∧ SameRecords s' t' ∧
          ((∃ k, i = .atIndex k) → t'.rdata = t.rdata) ∧
          ((∀ k, i ≠ .atIndex k) → t.rdata = s.rdata ∧ t'.rdata = s'.rdata)) ∨
        (∃ code w, t = { s with err := true, ecause := code, einfo := w } ∧
          t' = { s' with err := true, ecause := code, einfo := w }) ∨
        (∃ code w, t = { s with halt := true, fcause := code, finfo := w } ∧
          t' = { s' with halt := true, fcause := code, finfo := w }))) ∧
    (∀ r, exec i s = .refused r → exec i s' = .refused r)

/-- The Underrun check guarantees that an unpack reads no byte at or beyond `CLEN[c]` (rules R21,
R51, R80): two states that agree below it decode the same elements. -/
def Obligations.UnpackReadsOnlyBelowClen : Prop :=
  ∀ (c : Codec) (n : Nat) (s s' t t' : State), SameRegs c s s' → s'.params = s.params →
    (∀ a, a < (s.engine c).clen.toNat → s'.cbufByte c a = s.cbufByte c a) →
    CountOk c n s → EnoughBytes c n s →
    exec (unpackOf c n) s = .next t → exec (unpackOf c n) s' = .next t' →
    ∀ i, i < n → t'.dbufElem c i = t.dbufElem c i

/-! ### The laws of the codecs -/

/-- Rule R82: the round-trip law of FWP, for the script `cfg.fwp B`, `pack.fwp N`, `unpack.fwp N`
run step by step. -/
def Obligations.RoundTripLawOfFwp : Prop :=
  ∀ (b n : Nat) (s : State) (rest : List Transaction), Ready s → 1 ≤ b → b ≤ 56 →
    n ≤ s.params.nMax → n % s.params.gFixed = 0 → SrcBelow n b s →
    s.script = issue (.cfgFwp b) :: issue (.packFwp n) :: issue (.unpackFwp n) :: rest →
    ∃ t : State, Sys2Proof.core.run 3 s = .next t ∧ t.err = false ∧ t.halt = false ∧
      t.fwp.clen.toNat = ceilDiv8 (b * n) ∧ t.fwp.dcnt.toNat = n ∧
      ∀ i, i < n → t.dbufElem .fwp i = (s.srcElem i).setWidth 64

/-- Rule R90: the prefix-sum law of FOR, for the script `cfg.for B`, `pack.for N`, `update N`, the
sum being exact; and then `at i` gives `RDATA` the same value. -/
def Obligations.PrefixSumLawOfFor : Prop :=
  ∀ (b n : Nat) (s : State) (rest : List Transaction), Ready s → 1 ≤ b → b ≤ 56 →
    n ≤ s.params.nMax → n % s.params.gFixed = 0 → SrcBelow n b s →
    s.script = issue (.cfgFor b) :: issue (.packFor n) :: issue (.unpackFor n) :: rest →
    ∃ t : State, Sys2Proof.core.run 3 s = .next t ∧ t.err = false ∧ t.halt = false ∧
      t.valid = true ∧ t.forb.dcnt.toNat = n ∧ t.forb.clen.toNat = ceilDiv8 (b * n) ∧
      (∀ i, i < n → (t.dbufElem .forb i).toNat = srcSum s (i + 1)) ∧
      (∀ i, i < n → ∃ u, exec (.atIndex i) t = .next u ∧ u.rdata.toNat = srcSum s (i + 1))

/-- Rule R99: the round-trip law of MBP, for the script `cfg.mbp B`, `pack.mbp N`, `unpack.mbp N`.
Nothing is claimed of `CLEN[MBP]`. -/
def Obligations.RoundTripLawOfMbp : Prop :=
  ∀ (b n : Nat) (s : State) (rest : List Transaction), Ready s → 1 ≤ b → b ≤ 32 →
    n ≤ s.params.nMax → n % 32 = 0 → SrcBelow n b s →
    s.script = issue (.cfgMbp b) :: issue (.packMbp n) :: issue (.unpackMbp n) :: rest →
    ∃ t : State, Sys2Proof.core.run 3 s = .next t ∧ t.err = false ∧ t.halt = false ∧
      t.mbp.dcnt.toNat = n ∧ ∀ i, i < n → t.dbufElem .mbp i = (s.srcElem i).setWidth 64

/-- The host's validator finds neither a RoundTripMismatch nor a SizeLawViolation after the script of
a codec when the host kept its duties (rules R125, R126: in a model it is a theorem). -/
def Obligations.HostValidatorFindsNoDefect : Prop :=
  ∀ (c : Codec) (b n : Nat) (s t : State) (rest : List Transaction), Ready s → 1 ≤ b →
    b ≤ (if c = .mbp then 32 else 56) → n ≤ s.params.nMax → n % granularity s.params c = 0 →
    SrcBelow n b s →
    s.script = issue (cfgOf c b) :: issue (packOf c n) :: issue (unpackOf c n) :: rest →
    Sys2Proof.core.run 3 s = .next t →
    ¬RoundTripMismatch c n t ∧ ¬SizeLawViolation c b n t

/-- Rule R75: the datapath of rules R72 and R73 computes exactly the array of rule R71. -/
def Obligations.PackDatapathComputesPackBits : Prop :=
  ∀ (vals : List Word) (b : Nat), 1 ≤ b → b ≤ 56 → (∀ v ∈ vals, v.toNat < 2 ^ b) →
    packDatapath vals b = packBits vals b

/-- The invariant of rule R72 after the values `vals`: `NB = (i × B) mod 8`, `WPTR = (i × B) >> 3`
bytes written, `ACC < 2^NB`. -/
def Obligations.PackDatapathKeepsItsInvariant : Prop :=
  ∀ (vals : List Word) (b : Nat), 1 ≤ b → b ≤ 56 → (∀ v ∈ vals, v.toNat < 2 ^ b) →
    let d := vals.foldl (Datapath.push b) Datapath.init
    d.nb = (vals.length * b) % 8 ∧ d.wptr = (vals.length * b) >>> 3 ∧ d.out.length = d.wptr ∧
      d.acc.toNat < 2 ^ d.nb

/-- Rule R100: for B ≤ 32 and N a multiple of 32 the used bytes of `pack.mbp N` equal those of
`pack.fwp N` on the same source and width. -/
def Obligations.MiniBlockBytesEqualFixedWidthBytes : Prop :=
  ∀ (n : Nat) (s t u : State), s.widthOf .mbp ≤ 32 → s.widthOf .fwp = s.widthOf .mbp →
    CountOk .mbp n s → CountOk .fwp n s →
    exec (.packMbp n) s = .next t → exec (.packFwp n) s = .next u →
    ∀ a, a < s.widthOf .mbp * n / 8 → t.cbufByte .mbp a = u.cbufByte .fwp a

/-! ### Registers and buffers -/

/-- The global registers read as rules R28, R29 and R31 say, in every state, and reading them
changes nothing but the answer. -/
def Obligations.GlobalRegistersReadTheState : Prop :=
  ∀ (s : State) (off : Nat) (rest : List Transaction), s.script = .regRead off 4 :: rest →
    (off = 0x000 → step s = .next (afterHead (.word 0x42504331) s)) ∧
    (off = 0x008 → ∃ v : Word, step s = .next (afterHead (.word v) s) ∧
      v.getLsbD 0 = s.err ∧ v.getLsbD 1 = s.halt ∧ v.toNat / 4 = 0) ∧
    (off = 0x00C → ∃ v : Word, step s = .next (afterHead (.word v) s) ∧
      v.toNat = s.ecause.toNat) ∧
    (off = 0x010 → step s = .next (afterHead (.word s.einfo) s)) ∧
    (off = 0x014 → ∃ v : Word, step s = .next (afterHead (.word v) s) ∧
      v.toNat = s.fcause.toNat) ∧
    (off = 0x018 → step s = .next (afterHead (.word s.finfo) s)) ∧
    (off = 0x020 → ∃ v : Word, step s = .next (afterHead (.word v) s) ∧
      v.toNat = s.rdata.toNat % 2 ^ 32) ∧
    (off = 0x024 → ∃ v : Word, step s = .next (afterHead (.word v) s) ∧
      v.toNat = s.rdata.toNat / 2 ^ 32) ∧
    (off = 0x028 → ∃ v : Word, step s = .next (afterHead (.word v) s) ∧
      v.toNat = s.params.nMax)

/-- The registers of engine c's bank, at `0x40 + 0x20 × c`, read as rules R30 to R32 say, in every
state, and reading them changes nothing but the answer. -/
def Obligations.BankRegistersReadTheEngine : Prop :=
  ∀ (s : State) (c : Codec) (off : Nat) (rest : List Transaction),
    s.script = .regRead (0x040 + 0x20 * codecIndex c + off) 4 :: rest →
    (off = 0x00 → ∃ v : Word, step s = .next (afterHead (.word v) s) ∧
      v.extractLsb' 0 6 = (s.engine c).width ∧ v.extractLsb' 6 2 = 0 ∧
      v.getLsbD 8 = (s.engine c).cfgd ∧
      v.getLsbD 9 = (if c = .forb then s.valid else false) ∧ v.extractLsb' 10 22 = 0) ∧
    (off = 0x04 → step s = .next (afterHead (.word
      (if c = .mbp then 0x10202001 else 0x00003801 ||| (BitVec.ofNat 32 s.params.gFixed <<< 16)))
      s)) ∧
    (off = 0x08 → step s = .next (afterHead (.word (s.engine c).clen) s)) ∧
    (off = 0x0C → step s = .next (afterHead (.word (s.engine c).dcnt) s)) ∧
    (off = 0x10 → ∃ v : Word, step s = .next (afterHead (.word v) s) ∧
      v.toNat = (if c = .mbp then 4 else 7) * s.params.nMax)

/-- Rule R33: a write to a read-only register or a reserved offset has no effect and is answered
OKAY; a read of a write-only register or a reserved offset returns 0; an access that is not a whole
aligned word of the space is answered ERROR and has no effect; all in every state. -/
def Obligations.RegisterAccessCornerCases : Prop :=
  ∀ (s : State) (off size : Nat) (d : Word) (rest : List Transaction),
    (size = 4 → off % 4 = 0 → off < 0x0C0 →
      off ∉ [0x004, 0x01C, 0x048, 0x068, 0x088] →
      s.script = .regWrite off size d :: rest → step s = .next (afterHead .okay s)) ∧
    (size = 4 → off % 4 = 0 → off < 0x0C0 →
      (off = 0x004 ∨ off = 0x01C ∨ (0x02C ≤ off ∧ off ≤ 0x03C) ∨
        (0x040 ≤ off ∧ off < 0x0A0 ∧ 0x14 ≤ off % 0x20) ∨ 0x0A0 ≤ off) →
      s.script = .regRead off size :: rest → step s = .next (afterHead (.word 0) s)) ∧
    ((size ≠ 4 ∨ off % 4 ≠ 0 ∨ 0x0C0 ≤ off) →
      (s.script = .regRead off size :: rest ∨ s.script = .regWrite off size d :: rest) →
      step s = .next (afterHead .error s)) ∧
    (s.script = .regRead off size :: rest → ∃ r, step s = .next (afterHead r s))

/-- Rule R34: a host write to `CLEN[c]` stores a value up to `CCAP[c]`, and clears `VALID` when
c = FOR; a greater value is ignored; the answer is OKAY and `ERR` and `HALT` do not matter. -/
def Obligations.ClenWriteIsBoundedByCcap : Prop :=
  ∀ (s : State) (c : Codec) (v : Word) (rest : List Transaction),
    s.script = .regWrite (0x048 + 0x20 * codecIndex c) 4 v :: rest →
    (v.toNat ≤ (if c = .mbp then 4 else 7) * s.params.nMax →
      ∃ t, step s = .next t ∧ t.engine c = { s.engine c with clen := v } ∧
        t.valid = (if c = .forb then false else s.valid) ∧ t.rdata = s.rdata ∧ t.resp = .okay ∧
        (∀ d, d ≠ c → SameEngine d s t) ∧ SameSrc s t ∧ SameRecords s t ∧
        t.params = s.params ∧ t.script = rest) ∧
    ((if c = .mbp then 4 else 7) * s.params.nMax < v.toNat →
      step s = .next (afterHead .okay s))

/-- The reads of rule R40 return what the place holds, in every state and with no side effect (rules
R40, R45): `SrcRead`, `CbufRead` and `DbufRead`, the last with no staleness check (rule R140). -/
def Obligations.BufferReadsReturnTheContents : Prop :=
  ∀ (s : State) (c : Codec) (k : Nat) (rest : List Transaction),
    (s.script = .srcRead k :: rest → k < s.params.nMax →
      step s = .next (afterHead (.word (s.srcElem k)) s)) ∧
    (s.script = .cbufRead (codecIndex c) k :: rest →
      k < (if c = .mbp then 4 else 7) * s.params.nMax →
      step s = .next (afterHead (.byte (s.cbufByte c k)) s)) ∧
    (s.script = .dbufRead (codecIndex c) k :: rest → k < s.params.nMax →
      step s = .next (afterHead (.elem (s.dbufElem c k)) s))

/-- The host writes of rule R40, in every state: the place written reads as the value written, every
other place as before, `CbufWrite` to FOR clears `VALID`, and nothing else changes (rules R40,
R45, R48). -/
def Obligations.BufferWritesStoreOnePlace : Prop :=
  ∀ (s : State) (c : Codec) (k : Nat) (v : Word) (b : Byte) (rest : List Transaction),
    (s.script = .srcWrite k v :: rest → k < s.params.nMax →
      ∃ t, step s = .next t ∧ t.srcElem k = v ∧ (∀ i, i ≠ k → t.srcElem i = s.srcElem i) ∧
        (∀ d, SameEngine d s t) ∧ t.valid = s.valid ∧ t.rdata = s.rdata ∧ SameRecords s t ∧
        t.params = s.params ∧ t.script = rest ∧ t.resp = .okay) ∧
    (s.script = .cbufWrite (codecIndex c) k b :: rest →
      k < (if c = .mbp then 4 else 7) * s.params.nMax →
      ∃ t, step s = .next t ∧ t.cbufByte c k = b ∧
        (∀ a, a ≠ k → t.cbufByte c a = s.cbufByte c a) ∧
        SameRegs c s t ∧ SameDbuf c s t ∧ (∀ d, d ≠ c → SameEngine d s t) ∧ SameSrc s t ∧
        t.valid = (if c = .forb then false else s.valid) ∧ t.rdata = s.rdata ∧
        SameRecords s t ∧ t.params = s.params ∧ t.script = rest ∧ t.resp = .okay)

/-- Rule R44: a transaction whose index is outside its space is answered ERROR and has no effect. -/
def Obligations.AccessesOutsideASpaceAnswerError : Prop :=
  ∀ (s : State) (x : Transaction) (rest : List Transaction), s.script = x :: rest →
    (match x with
      | .regRead off _ => 0x0C0 ≤ off
      | .regWrite off _ _ => 0x0C0 ≤ off
      | .srcRead i => s.params.nMax ≤ i
      | .srcWrite i _ => s.params.nMax ≤ i
      | .cbufRead c a => 3 ≤ c ∨ (if c = 2 then 4 else 7) * s.params.nMax ≤ a
      | .cbufWrite c a _ => 3 ≤ c ∨ (if c = 2 then 4 else 7) * s.params.nMax ≤ a
      | .dbufRead c i => 3 ≤ c ∨ s.params.nMax ≤ i
      | .hardReset => False) →
    step s = .next (afterHead .error s)

/-- The byte views of rule R42: an element is its window bytes, least significant first. -/
def Obligations.ElementWindowsAreLittleEndian : Prop :=
  ∀ (s : State) (c : Codec) (i : Nat),
    (s.srcElem i).toNat =
      (s.srcWindowByte (4 * i)).toNat + 2 ^ 8 * (s.srcWindowByte (4 * i + 1)).toNat +
        2 ^ 16 * (s.srcWindowByte (4 * i + 2)).toNat +
        2 ^ 24 * (s.srcWindowByte (4 * i + 3)).toNat ∧
    (∀ k, k < 8 → s.dbufWindowByte c (8 * i + k) = (s.dbufElem c i).extractLsb' (8 * k) 8)

/-! ### The invariant -/

/-- The invariant of rule R37 and the canonical form of the buffers hold after reset. -/
def Obligations.InvariantHoldsAtReset : Prop := BlockInv State.reset

/-- Rule R37: every step of the block keeps the invariant and the canonical form of the buffers. -/
def Obligations.EveryStepKeepsTheInvariant : Prop :=
  ∀ s t : State, BlockInv s → step s = .next t → BlockInv t

/-- No step changes the parameters (rule R15: they are not state), and a step performs exactly the
first pending transaction, which leaves the script (rule R5; the script is the model's, log 2). -/
def Obligations.StepsKeepTheParameters : Prop :=
  (∀ s t : State, step s = .next t → t.params = s.params ∧ t.script = s.script.tail) ∧
  (∀ (s : State) (x : Transaction) (rest : List Transaction), s.script = x :: rest →
    step s = perform x { s with script := rest })
end

