-- ==== Sys2Proof/Laws/State.lean ====
section
/-! SUPPORT. One lemma per field per update of the state, so that no later proof unfolds a record
update; then the same through the accessors (`engine`, `srcElem`, `cbufByte`, `dbufElem`, `widthOf`). -/

namespace Sys2Proof.Machine

/-! ### `rejectWith` -/

section
variable (k : RejectKind) (w : Word) (s : State)

@[simp] theorem rejectWith_src : (rejectWith k w s).src = s.src := rfl
@[simp] theorem rejectWith_fwp : (rejectWith k w s).fwp = s.fwp := rfl
@[simp] theorem rejectWith_forb : (rejectWith k w s).forb = s.forb := rfl
@[simp] theorem rejectWith_mbp : (rejectWith k w s).mbp = s.mbp := rfl
@[simp] theorem rejectWith_valid : (rejectWith k w s).valid = s.valid := rfl
@[simp] theorem rejectWith_err : (rejectWith k w s).err = true := rfl
@[simp] theorem rejectWith_ecause : (rejectWith k w s).ecause = rejectCode k := rfl
@[simp] theorem rejectWith_einfo : (rejectWith k w s).einfo = w := rfl
@[simp] theorem rejectWith_halt : (rejectWith k w s).halt = s.halt := rfl
@[simp] theorem rejectWith_fcause : (rejectWith k w s).fcause = s.fcause := rfl
@[simp] theorem rejectWith_finfo : (rejectWith k w s).finfo = s.finfo := rfl
@[simp] theorem rejectWith_rdata : (rejectWith k w s).rdata = s.rdata := rfl
@[simp] theorem rejectWith_params : (rejectWith k w s).params = s.params := rfl
@[simp] theorem rejectWith_script : (rejectWith k w s).script = s.script := rfl
@[simp] theorem rejectWith_resp : (rejectWith k w s).resp = s.resp := rfl

end

/-! ### `haltWith` -/

section
variable (k : FatalKind) (w : Word) (s : State)

@[simp] theorem haltWith_src : (haltWith k w s).src = s.src := rfl
@[simp] theorem haltWith_fwp : (haltWith k w s).fwp = s.fwp := rfl
@[simp] theorem haltWith_forb : (haltWith k w s).forb = s.forb := rfl
@[simp] theorem haltWith_mbp : (haltWith k w s).mbp = s.mbp := rfl
@[simp] theorem haltWith_valid : (haltWith k w s).valid = s.valid := rfl
@[simp] theorem haltWith_err : (haltWith k w s).err = s.err := rfl
@[simp] theorem haltWith_ecause : (haltWith k w s).ecause = s.ecause := rfl
@[simp] theorem haltWith_einfo : (haltWith k w s).einfo = s.einfo := rfl
@[simp] theorem haltWith_halt : (haltWith k w s).halt = true := rfl
@[simp] theorem haltWith_fcause : (haltWith k w s).fcause = fatalCode k := rfl
@[simp] theorem haltWith_finfo : (haltWith k w s).finfo = w := rfl
@[simp] theorem haltWith_rdata : (haltWith k w s).rdata = s.rdata := rfl
@[simp] theorem haltWith_params : (haltWith k w s).params = s.params := rfl
@[simp] theorem haltWith_script : (haltWith k w s).script = s.script := rfl
@[simp] theorem haltWith_resp : (haltWith k w s).resp = s.resp := rfl

end

/-! ### `clearError` -/

section
variable (s : State)

@[simp] theorem clearError_src : (clearError s).src = s.src := rfl
@[simp] theorem clearError_fwp : (clearError s).fwp = s.fwp := rfl
@[simp] theorem clearError_forb : (clearError s).forb = s.forb := rfl
@[simp] theorem clearError_mbp : (clearError s).mbp = s.mbp := rfl
@[simp] theorem clearError_valid : (clearError s).valid = s.valid := rfl
@[simp] theorem clearError_err : (clearError s).err = false := rfl
@[simp] theorem clearError_ecause : (clearError s).ecause = 0 := rfl
@[simp] theorem clearError_einfo : (clearError s).einfo = 0 := rfl
@[simp] theorem clearError_halt : (clearError s).halt = s.halt := rfl
@[simp] theorem clearError_fcause : (clearError s).fcause = s.fcause := rfl
@[simp] theorem clearError_finfo : (clearError s).finfo = s.finfo := rfl
@[simp] theorem clearError_rdata : (clearError s).rdata = s.rdata := rfl
@[simp] theorem clearError_params : (clearError s).params = s.params := rfl
@[simp] theorem clearError_script : (clearError s).script = s.script := rfl
@[simp] theorem clearError_resp : (clearError s).resp = s.resp := rfl

end

/-! ### `resetRegs` -/

section
variable (s : State)

@[simp] theorem resetRegs_src : (resetRegs s).src = s.src := rfl
@[simp] theorem resetRegs_fwp : (resetRegs s).fwp = s.fwp.resetRegs := rfl
@[simp] theorem resetRegs_forb : (resetRegs s).forb = s.forb.resetRegs := rfl
@[simp] theorem resetRegs_mbp : (resetRegs s).mbp = s.mbp.resetRegs := rfl
@[simp] theorem resetRegs_valid : (resetRegs s).valid = false := rfl
@[simp] theorem resetRegs_err : (resetRegs s).err = false := rfl
@[simp] theorem resetRegs_ecause : (resetRegs s).ecause = 0 := rfl
@[simp] theorem resetRegs_einfo : (resetRegs s).einfo = 0 := rfl
@[simp] theorem resetRegs_halt : (resetRegs s).halt = false := rfl
@[simp] theorem resetRegs_fcause : (resetRegs s).fcause = 0 := rfl
@[simp] theorem resetRegs_finfo : (resetRegs s).finfo = 0 := rfl
@[simp] theorem resetRegs_rdata : (resetRegs s).rdata = 0 := rfl
@[simp] theorem resetRegs_params : (resetRegs s).params = s.params := rfl
@[simp] theorem resetRegs_script : (resetRegs s).script = s.script := rfl
@[simp] theorem resetRegs_resp : (resetRegs s).resp = s.resp := rfl

end

/-! ### `answer` -/

section
variable (r : Response) (s : State)

@[simp] theorem answer_src : (answer r s).src = s.src := rfl
@[simp] theorem answer_fwp : (answer r s).fwp = s.fwp := rfl
@[simp] theorem answer_forb : (answer r s).forb = s.forb := rfl
@[simp] theorem answer_mbp : (answer r s).mbp = s.mbp := rfl
@[simp] theorem answer_valid : (answer r s).valid = s.valid := rfl
@[simp] theorem answer_err : (answer r s).err = s.err := rfl
@[simp] theorem answer_ecause : (answer r s).ecause = s.ecause := rfl
@[simp] theorem answer_einfo : (answer r s).einfo = s.einfo := rfl
@[simp] theorem answer_halt : (answer r s).halt = s.halt := rfl
@[simp] theorem answer_fcause : (answer r s).fcause = s.fcause := rfl
@[simp] theorem answer_finfo : (answer r s).finfo = s.finfo := rfl
@[simp] theorem answer_rdata : (answer r s).rdata = s.rdata := rfl
@[simp] theorem answer_params : (answer r s).params = s.params := rfl
@[simp] theorem answer_script : (answer r s).script = s.script := rfl
@[simp] theorem answer_resp : (answer r s).resp = r := rfl

end

/-! ### `popScript` -/

section
variable (s : State)

@[simp] theorem popScript_src : (popScript s).src = s.src := rfl
@[simp] theorem popScript_fwp : (popScript s).fwp = s.fwp := rfl
@[simp] theorem popScript_forb : (popScript s).forb = s.forb := rfl
@[simp] theorem popScript_mbp : (popScript s).mbp = s.mbp := rfl
@[simp] theorem popScript_valid : (popScript s).valid = s.valid := rfl
@[simp] theorem popScript_err : (popScript s).err = s.err := rfl
@[simp] theorem popScript_ecause : (popScript s).ecause = s.ecause := rfl
@[simp] theorem popScript_einfo : (popScript s).einfo = s.einfo := rfl
@[simp] theorem popScript_halt : (popScript s).halt = s.halt := rfl
@[simp] theorem popScript_fcause : (popScript s).fcause = s.fcause := rfl
@[simp] theorem popScript_finfo : (popScript s).finfo = s.finfo := rfl
@[simp] theorem popScript_rdata : (popScript s).rdata = s.rdata := rfl
@[simp] theorem popScript_params : (popScript s).params = s.params := rfl
@[simp] theorem popScript_script : (popScript s).script = s.script.tail := rfl
@[simp] theorem popScript_resp : (popScript s).resp = s.resp := rfl

end

/-! ### `writeSrc` -/

section
variable (i : Nat) (v : Word) (s : State)

@[simp] theorem writeSrc_src : (writeSrc i v s).src = s.src.set i v := rfl
@[simp] theorem writeSrc_fwp : (writeSrc i v s).fwp = s.fwp := rfl
@[simp] theorem writeSrc_forb : (writeSrc i v s).forb = s.forb := rfl
@[simp] theorem writeSrc_mbp : (writeSrc i v s).mbp = s.mbp := rfl
@[simp] theorem writeSrc_valid : (writeSrc i v s).valid = s.valid := rfl
@[simp] theorem writeSrc_err : (writeSrc i v s).err = s.err := rfl
@[simp] theorem writeSrc_ecause : (writeSrc i v s).ecause = s.ecause := rfl
@[simp] theorem writeSrc_einfo : (writeSrc i v s).einfo = s.einfo := rfl
@[simp] theorem writeSrc_halt : (writeSrc i v s).halt = s.halt := rfl
@[simp] theorem writeSrc_fcause : (writeSrc i v s).fcause = s.fcause := rfl
@[simp] theorem writeSrc_finfo : (writeSrc i v s).finfo = s.finfo := rfl
@[simp] theorem writeSrc_rdata : (writeSrc i v s).rdata = s.rdata := rfl
@[simp] theorem writeSrc_params : (writeSrc i v s).params = s.params := rfl
@[simp] theorem writeSrc_script : (writeSrc i v s).script = s.script := rfl
@[simp] theorem writeSrc_resp : (writeSrc i v s).resp = s.resp := rfl

end

/-! ### `setEngine` -/

section
variable (s : State) (c : Codec) (e : Engine)

@[simp] theorem setEngine_src : (s.setEngine c e).src = s.src := by cases c <;> rfl
@[simp] theorem setEngine_valid : (s.setEngine c e).valid = s.valid := by cases c <;> rfl
@[simp] theorem setEngine_err : (s.setEngine c e).err = s.err := by cases c <;> rfl
@[simp] theorem setEngine_ecause : (s.setEngine c e).ecause = s.ecause := by cases c <;> rfl
@[simp] theorem setEngine_einfo : (s.setEngine c e).einfo = s.einfo := by cases c <;> rfl
@[simp] theorem setEngine_halt : (s.setEngine c e).halt = s.halt := by cases c <;> rfl
@[simp] theorem setEngine_fcause : (s.setEngine c e).fcause = s.fcause := by cases c <;> rfl
@[simp] theorem setEngine_finfo : (s.setEngine c e).finfo = s.finfo := by cases c <;> rfl
@[simp] theorem setEngine_rdata : (s.setEngine c e).rdata = s.rdata := by cases c <;> rfl
@[simp] theorem setEngine_params : (s.setEngine c e).params = s.params := by cases c <;> rfl
@[simp] theorem setEngine_script : (s.setEngine c e).script = s.script := by cases c <;> rfl
@[simp] theorem setEngine_resp : (s.setEngine c e).resp = s.resp := by cases c <;> rfl

end

@[simp] theorem engine_setEngine_same (s : State) (c : Codec) (e : Engine) :
    (s.setEngine c e).engine c = e := by cases c <;> rfl

@[simp] theorem engine_setEngine_ne (s : State) (c d : Codec) (e : Engine) (h : d ≠ c) :
    (s.setEngine c e).engine d = s.engine d := by cases c <;> cases d <;> simp_all <;> rfl

theorem engine_setEngine (s : State) (c d : Codec) (e : Engine) :
    (s.setEngine c e).engine d = if d = c then e else s.engine d := by
  by_cases h : d = c
  · subst h; simp
  · simp [h]

@[simp] theorem setEngine_self (s : State) (c : Codec) : s.setEngine c (s.engine c) = s := by
  cases c <;> rfl

@[simp] theorem setEngine_setEngine (s : State) (c : Codec) (e f : Engine) :
    (s.setEngine c e).setEngine c f = s.setEngine c f := by cases c <;> rfl

@[simp] theorem engine_fwp (s : State) : s.engine .fwp = s.fwp := rfl
@[simp] theorem engine_forb (s : State) : s.engine .forb = s.forb := rfl
@[simp] theorem engine_mbp (s : State) : s.engine .mbp = s.mbp := rfl

/-! ### `configure` -/

section
variable (c : Codec) (b : Nat) (s : State)

@[simp] theorem configure_src : (configure c b s).src = s.src := by simp [configure]
@[simp] theorem configure_valid : (configure c b s).valid = s.valid := by simp [configure]
@[simp] theorem configure_err : (configure c b s).err = s.err := by simp [configure]
@[simp] theorem configure_ecause : (configure c b s).ecause = s.ecause := by simp [configure]
@[simp] theorem configure_einfo : (configure c b s).einfo = s.einfo := by simp [configure]
@[simp] theorem configure_halt : (configure c b s).halt = s.halt := by simp [configure]
@[simp] theorem configure_fcause : (configure c b s).fcause = s.fcause := by simp [configure]
@[simp] theorem configure_finfo : (configure c b s).finfo = s.finfo := by simp [configure]
@[simp] theorem configure_rdata : (configure c b s).rdata = s.rdata := by simp [configure]
@[simp] theorem configure_params : (configure c b s).params = s.params := by simp [configure]
@[simp] theorem configure_script : (configure c b s).script = s.script := by simp [configure]
@[simp] theorem configure_resp : (configure c b s).resp = s.resp := by simp [configure]

end

/-! ### `storePacked` -/

section
variable (c : Codec) (bytes : List Byte) (len : Nat) (s : State)

@[simp] theorem storePacked_src : (storePacked c bytes len s).src = s.src := by simp [storePacked]
@[simp] theorem storePacked_valid : (storePacked c bytes len s).valid = s.valid := by simp [storePacked]
@[simp] theorem storePacked_err : (storePacked c bytes len s).err = s.err := by simp [storePacked]
@[simp] theorem storePacked_ecause : (storePacked c bytes len s).ecause = s.ecause := by simp [storePacked]
@[simp] theorem storePacked_einfo : (storePacked c bytes len s).einfo = s.einfo := by simp [storePacked]
@[simp] theorem storePacked_halt : (storePacked c bytes len s).halt = s.halt := by simp [storePacked]
@[simp] theorem storePacked_fcause : (storePacked c bytes len s).fcause = s.fcause := by simp [storePacked]
@[simp] theorem storePacked_finfo : (storePacked c bytes len s).finfo = s.finfo := by simp [storePacked]
@[simp] theorem storePacked_rdata : (storePacked c bytes len s).rdata = s.rdata := by simp [storePacked]
@[simp] theorem storePacked_params : (storePacked c bytes len s).params = s.params := by simp [storePacked]
@[simp] theorem storePacked_script : (storePacked c bytes len s).script = s.script := by simp [storePacked]
@[simp] theorem storePacked_resp : (storePacked c bytes len s).resp = s.resp := by simp [storePacked]

end

/-! ### `storeDecoded` -/

section
variable (c : Codec) (vals : List Elem) (s : State)

@[simp] theorem storeDecoded_src : (storeDecoded c vals s).src = s.src := by simp [storeDecoded]
@[simp] theorem storeDecoded_valid : (storeDecoded c vals s).valid = s.valid := by simp [storeDecoded]
@[simp] theorem storeDecoded_err : (storeDecoded c vals s).err = s.err := by simp [storeDecoded]
@[simp] theorem storeDecoded_ecause : (storeDecoded c vals s).ecause = s.ecause := by simp [storeDecoded]
@[simp] theorem storeDecoded_einfo : (storeDecoded c vals s).einfo = s.einfo := by simp [storeDecoded]
@[simp] theorem storeDecoded_halt : (storeDecoded c vals s).halt = s.halt := by simp [storeDecoded]
@[simp] theorem storeDecoded_fcause : (storeDecoded c vals s).fcause = s.fcause := by simp [storeDecoded]
@[simp] theorem storeDecoded_finfo : (storeDecoded c vals s).finfo = s.finfo := by simp [storeDecoded]
@[simp] theorem storeDecoded_rdata : (storeDecoded c vals s).rdata = s.rdata := by simp [storeDecoded]
@[simp] theorem storeDecoded_params : (storeDecoded c vals s).params = s.params := by simp [storeDecoded]
@[simp] theorem storeDecoded_script : (storeDecoded c vals s).script = s.script := by simp [storeDecoded]
@[simp] theorem storeDecoded_resp : (storeDecoded c vals s).resp = s.resp := by simp [storeDecoded]

end

@[simp] theorem configure_engine (c : Codec) (b : Nat) (s : State) :
    (configure c b s).engine c =
      { s.engine c with width := BitVec.ofNat 6 b, cfgd := true, clen := 0, dcnt := 0 } := by
  simp [configure]

@[simp] theorem configure_engine_ne (c d : Codec) (b : Nat) (s : State) (h : d ≠ c) :
    (configure c b s).engine d = s.engine d := by simp [configure, h]

@[simp] theorem storePacked_engine (c : Codec) (bytes : List Byte) (len : Nat) (s : State) :
    (storePacked c bytes len s).engine c =
      { s.engine c with
        cbuf := (s.engine c).cbuf.setPrefix bytes, clen := BitVec.ofNat 32 len } := by
  simp [storePacked]

@[simp] theorem storePacked_engine_ne (c d : Codec) (bytes : List Byte) (len : Nat) (s : State)
    (h : d ≠ c) : (storePacked c bytes len s).engine d = s.engine d := by simp [storePacked, h]

@[simp] theorem storeDecoded_engine (c : Codec) (vals : List Elem) (s : State) :
    (storeDecoded c vals s).engine c =
      { s.engine c with
        dbuf := (s.engine c).dbuf.setPrefix vals, dcnt := BitVec.ofNat 32 vals.length } := by
  simp [storeDecoded]

@[simp] theorem storeDecoded_engine_ne (c d : Codec) (vals : List Elem) (s : State) (h : d ≠ c) :
    (storeDecoded c vals s).engine d = s.engine d := by simp [storeDecoded, h]

/-! ### `invalidate` -/

section
variable (c : Codec) (s : State)

@[simp] theorem invalidate_src : (invalidate c s).src = s.src := by cases c <;> rfl
@[simp] theorem invalidate_err : (invalidate c s).err = s.err := by cases c <;> rfl
@[simp] theorem invalidate_ecause : (invalidate c s).ecause = s.ecause := by cases c <;> rfl
@[simp] theorem invalidate_einfo : (invalidate c s).einfo = s.einfo := by cases c <;> rfl
@[simp] theorem invalidate_halt : (invalidate c s).halt = s.halt := by cases c <;> rfl
@[simp] theorem invalidate_fcause : (invalidate c s).fcause = s.fcause := by cases c <;> rfl
@[simp] theorem invalidate_finfo : (invalidate c s).finfo = s.finfo := by cases c <;> rfl
@[simp] theorem invalidate_rdata : (invalidate c s).rdata = s.rdata := by cases c <;> rfl
@[simp] theorem invalidate_params : (invalidate c s).params = s.params := by cases c <;> rfl
@[simp] theorem invalidate_script : (invalidate c s).script = s.script := by cases c <;> rfl
@[simp] theorem invalidate_resp : (invalidate c s).resp = s.resp := by cases c <;> rfl

end

theorem invalidate_valid (c : Codec) (s : State) :
    (invalidate c s).valid = if c = .forb then false else s.valid := by cases c <;> rfl

@[simp] theorem invalidate_fwp_eq (s : State) : invalidate .fwp s = s := rfl
@[simp] theorem invalidate_mbp_eq (s : State) : invalidate .mbp s = s := rfl
@[simp] theorem invalidate_forb_valid (s : State) : (invalidate .forb s).valid = false := rfl

@[simp] theorem invalidate_engine (c d : Codec) (s : State) :
    (invalidate c s).engine d = s.engine d := by cases c <;> cases d <;> rfl

/-! ### `writeCbuf` -/

section
variable (c : Codec) (a : Nat) (b : Byte) (s : State)

@[simp] theorem writeCbuf_src : (writeCbuf c a b s).src = s.src := by simp [writeCbuf]
@[simp] theorem writeCbuf_err : (writeCbuf c a b s).err = s.err := by simp [writeCbuf]
@[simp] theorem writeCbuf_ecause : (writeCbuf c a b s).ecause = s.ecause := by simp [writeCbuf]
@[simp] theorem writeCbuf_einfo : (writeCbuf c a b s).einfo = s.einfo := by simp [writeCbuf]
@[simp] theorem writeCbuf_halt : (writeCbuf c a b s).halt = s.halt := by simp [writeCbuf]
@[simp] theorem writeCbuf_fcause : (writeCbuf c a b s).fcause = s.fcause := by simp [writeCbuf]
@[simp] theorem writeCbuf_finfo : (writeCbuf c a b s).finfo = s.finfo := by simp [writeCbuf]
@[simp] theorem writeCbuf_rdata : (writeCbuf c a b s).rdata = s.rdata := by simp [writeCbuf]
@[simp] theorem writeCbuf_params : (writeCbuf c a b s).params = s.params := by simp [writeCbuf]
@[simp] theorem writeCbuf_script : (writeCbuf c a b s).script = s.script := by simp [writeCbuf]
@[simp] theorem writeCbuf_resp : (writeCbuf c a b s).resp = s.resp := by simp [writeCbuf]

end

theorem writeCbuf_valid (c : Codec) (a : Nat) (b : Byte) (s : State) :
    (writeCbuf c a b s).valid = if c = .forb then false else s.valid := by
  simp [writeCbuf, invalidate_valid]

@[simp] theorem writeCbuf_engine (c : Codec) (a : Nat) (b : Byte) (s : State) :
    (writeCbuf c a b s).engine c = { s.engine c with cbuf := (s.engine c).cbuf.set a b } := by
  simp [writeCbuf]

@[simp] theorem writeCbuf_engine_ne (c d : Codec) (a : Nat) (b : Byte) (s : State) (h : d ≠ c) :
    (writeCbuf c a b s).engine d = s.engine d := by simp [writeCbuf, h]

/-! ### `writeClen` -/

section
variable (c : Codec) (v : Word) (s : State)

@[simp] theorem writeClen_src : (writeClen c v s).src = s.src := by unfold writeClen; split <;> simp
@[simp] theorem writeClen_err : (writeClen c v s).err = s.err := by unfold writeClen; split <;> simp
@[simp] theorem writeClen_ecause : (writeClen c v s).ecause = s.ecause := by unfold writeClen; split <;> simp
@[simp] theorem writeClen_einfo : (writeClen c v s).einfo = s.einfo := by unfold writeClen; split <;> simp
@[simp] theorem writeClen_halt : (writeClen c v s).halt = s.halt := by unfold writeClen; split <;> simp
@[simp] theorem writeClen_fcause : (writeClen c v s).fcause = s.fcause := by unfold writeClen; split <;> simp
@[simp] theorem writeClen_finfo : (writeClen c v s).finfo = s.finfo := by unfold writeClen; split <;> simp
@[simp] theorem writeClen_rdata : (writeClen c v s).rdata = s.rdata := by unfold writeClen; split <;> simp
@[simp] theorem writeClen_params : (writeClen c v s).params = s.params := by unfold writeClen; split <;> simp
@[simp] theorem writeClen_script : (writeClen c v s).script = s.script := by unfold writeClen; split <;> simp
@[simp] theorem writeClen_resp : (writeClen c v s).resp = s.resp := by unfold writeClen; split <;> simp

end

theorem writeClen_accepted (c : Codec) (v : Word) (s : State) (h : v.toNat ≤ ccap s.params c) :
    writeClen c v s = invalidate c (s.setEngine c { s.engine c with clen := v }) := by
  simp [writeClen, Nat.not_lt.mpr h]

theorem writeClen_ignored (c : Codec) (v : Word) (s : State) (h : ccap s.params c < v.toNat) :
    writeClen c v s = s := by simp [writeClen, h]

/-! ### Accessors over the updates that touch no buffer -/

@[simp] theorem rejectWith_engine (k : RejectKind) (w : Word) (s : State) (c : Codec) : (rejectWith k w s).engine c = s.engine c := by
  cases c <;> rfl
@[simp] theorem rejectWith_srcElem (k : RejectKind) (w : Word) (s : State) (i : Nat) : (rejectWith k w s).srcElem i = s.srcElem i := rfl
@[simp] theorem rejectWith_cbufByte (k : RejectKind) (w : Word) (s : State) (c : Codec) (a : Nat) :
    (rejectWith k w s).cbufByte c a = s.cbufByte c a := by cases c <;> rfl
@[simp] theorem rejectWith_dbufElem (k : RejectKind) (w : Word) (s : State) (c : Codec) (i : Nat) :
    (rejectWith k w s).dbufElem c i = s.dbufElem c i := by cases c <;> rfl
@[simp] theorem rejectWith_widthOf (k : RejectKind) (w : Word) (s : State) (c : Codec) : (rejectWith k w s).widthOf c = s.widthOf c := by
  cases c <;> rfl

@[simp] theorem haltWith_engine (k : FatalKind) (w : Word) (s : State) (c : Codec) : (haltWith k w s).engine c = s.engine c := by
  cases c <;> rfl
@[simp] theorem haltWith_srcElem (k : FatalKind) (w : Word) (s : State) (i : Nat) : (haltWith k w s).srcElem i = s.srcElem i := rfl
@[simp] theorem haltWith_cbufByte (k : FatalKind) (w : Word) (s : State) (c : Codec) (a : Nat) :
    (haltWith k w s).cbufByte c a = s.cbufByte c a := by cases c <;> rfl
@[simp] theorem haltWith_dbufElem (k : FatalKind) (w : Word) (s : State) (c : Codec) (i : Nat) :
    (haltWith k w s).dbufElem c i = s.dbufElem c i := by cases c <;> rfl
@[simp] theorem haltWith_widthOf (k : FatalKind) (w : Word) (s : State) (c : Codec) : (haltWith k w s).widthOf c = s.widthOf c := by
  cases c <;> rfl

@[simp] theorem clearError_engine (s : State) (c : Codec) : (clearError s).engine c = s.engine c := by
  cases c <;> rfl
@[simp] theorem clearError_srcElem (s : State) (i : Nat) : (clearError s).srcElem i = s.srcElem i := rfl
@[simp] theorem clearError_cbufByte (s : State) (c : Codec) (a : Nat) :
    (clearError s).cbufByte c a = s.cbufByte c a := by cases c <;> rfl
@[simp] theorem clearError_dbufElem (s : State) (c : Codec) (i : Nat) :
    (clearError s).dbufElem c i = s.dbufElem c i := by cases c <;> rfl
@[simp] theorem clearError_widthOf (s : State) (c : Codec) : (clearError s).widthOf c = s.widthOf c := by
  cases c <;> rfl

@[simp] theorem answer_engine (r : Response) (s : State) (c : Codec) : (answer r s).engine c = s.engine c := by
  cases c <;> rfl
@[simp] theorem answer_srcElem (r : Response) (s : State) (i : Nat) : (answer r s).srcElem i = s.srcElem i := rfl
@[simp] theorem answer_cbufByte (r : Response) (s : State) (c : Codec) (a : Nat) :
    (answer r s).cbufByte c a = s.cbufByte c a := by cases c <;> rfl
@[simp] theorem answer_dbufElem (r : Response) (s : State) (c : Codec) (i : Nat) :
    (answer r s).dbufElem c i = s.dbufElem c i := by cases c <;> rfl
@[simp] theorem answer_widthOf (r : Response) (s : State) (c : Codec) : (answer r s).widthOf c = s.widthOf c := by
  cases c <;> rfl

@[simp] theorem popScript_engine (s : State) (c : Codec) : (popScript s).engine c = s.engine c := by
  cases c <;> rfl
@[simp] theorem popScript_srcElem (s : State) (i : Nat) : (popScript s).srcElem i = s.srcElem i := rfl
@[simp] theorem popScript_cbufByte (s : State) (c : Codec) (a : Nat) :
    (popScript s).cbufByte c a = s.cbufByte c a := by cases c <;> rfl
@[simp] theorem popScript_dbufElem (s : State) (c : Codec) (i : Nat) :
    (popScript s).dbufElem c i = s.dbufElem c i := by cases c <;> rfl
@[simp] theorem popScript_widthOf (s : State) (c : Codec) : (popScript s).widthOf c = s.widthOf c := by
  cases c <;> rfl

@[simp] theorem resetRegs_engine (s : State) (c : Codec) :
    (resetRegs s).engine c = (s.engine c).resetRegs := by cases c <;> rfl
@[simp] theorem resetRegs_srcElem (s : State) (i : Nat) : (resetRegs s).srcElem i = s.srcElem i := rfl
@[simp] theorem resetRegs_cbufByte (s : State) (c : Codec) (a : Nat) :
    (resetRegs s).cbufByte c a = s.cbufByte c a := by cases c <;> rfl
@[simp] theorem resetRegs_dbufElem (s : State) (c : Codec) (i : Nat) :
    (resetRegs s).dbufElem c i = s.dbufElem c i := by cases c <;> rfl
@[simp] theorem resetRegs_widthOf (s : State) (c : Codec) : (resetRegs s).widthOf c = 0 := by
  cases c <;> rfl

@[simp] theorem Engine.resetRegs_width (e : Engine) : e.resetRegs.width = 0 := rfl
@[simp] theorem Engine.resetRegs_cfgd (e : Engine) : e.resetRegs.cfgd = false := rfl
@[simp] theorem Engine.resetRegs_clen (e : Engine) : e.resetRegs.clen = 0 := rfl
@[simp] theorem Engine.resetRegs_dcnt (e : Engine) : e.resetRegs.dcnt = 0 := rfl
@[simp] theorem Engine.resetRegs_cbuf (e : Engine) : e.resetRegs.cbuf = e.cbuf := rfl
@[simp] theorem Engine.resetRegs_dbuf (e : Engine) : e.resetRegs.dbuf = e.dbuf := rfl

@[simp] theorem invalidate_srcElem (c : Codec) (s : State) (i : Nat) :
    (invalidate c s).srcElem i = s.srcElem i := by cases c <;> rfl
@[simp] theorem invalidate_cbufByte (c d : Codec) (s : State) (a : Nat) :
    (invalidate c s).cbufByte d a = s.cbufByte d a := by simp [State.cbufByte]
@[simp] theorem invalidate_dbufElem (c d : Codec) (s : State) (i : Nat) :
    (invalidate c s).dbufElem d i = s.dbufElem d i := by simp [State.dbufElem]
@[simp] theorem invalidate_widthOf (c d : Codec) (s : State) :
    (invalidate c s).widthOf d = s.widthOf d := by simp [State.widthOf]

@[simp] theorem setEngine_srcElem (s : State) (c : Codec) (e : Engine) (i : Nat) :
    (s.setEngine c e).srcElem i = s.srcElem i := by simp [State.srcElem]
@[simp] theorem configure_srcElem (c : Codec) (b : Nat) (s : State) (i : Nat) :
    (configure c b s).srcElem i = s.srcElem i := by simp [State.srcElem]
@[simp] theorem storePacked_srcElem (c : Codec) (bytes : List Byte) (len : Nat) (s : State)
    (i : Nat) : (storePacked c bytes len s).srcElem i = s.srcElem i := by simp [State.srcElem]
@[simp] theorem storeDecoded_srcElem (c : Codec) (vals : List Elem) (s : State) (i : Nat) :
    (storeDecoded c vals s).srcElem i = s.srcElem i := by simp [State.srcElem]

@[simp] theorem configure_cbufByte (c d : Codec) (b : Nat) (s : State) (a : Nat) :
    (configure c b s).cbufByte d a = s.cbufByte d a := by
  by_cases h : d = c
  · subst h; simp [State.cbufByte]
  · simp [State.cbufByte, h]
@[simp] theorem configure_dbufElem (c d : Codec) (b : Nat) (s : State) (i : Nat) :
    (configure c b s).dbufElem d i = s.dbufElem d i := by
  by_cases h : d = c
  · subst h; simp [State.dbufElem]
  · simp [State.dbufElem, h]
@[simp] theorem storePacked_dbufElem (c d : Codec) (bytes : List Byte) (len : Nat) (s : State)
    (i : Nat) : (storePacked c bytes len s).dbufElem d i = s.dbufElem d i := by
  by_cases h : d = c
  · subst h; simp [State.dbufElem]
  · simp [State.dbufElem, h]
@[simp] theorem storePacked_widthOf (c d : Codec) (bytes : List Byte) (len : Nat) (s : State) :
    (storePacked c bytes len s).widthOf d = s.widthOf d := by
  by_cases h : d = c
  · subst h; simp [State.widthOf]
  · simp [State.widthOf, h]
@[simp] theorem storeDecoded_cbufByte (c d : Codec) (vals : List Elem) (s : State) (a : Nat) :
    (storeDecoded c vals s).cbufByte d a = s.cbufByte d a := by
  by_cases h : d = c
  · subst h; simp [State.cbufByte]
  · simp [State.cbufByte, h]
@[simp] theorem storeDecoded_widthOf (c d : Codec) (vals : List Elem) (s : State) :
    (storeDecoded c vals s).widthOf d = s.widthOf d := by
  by_cases h : d = c
  · subst h; simp [State.widthOf]
  · simp [State.widthOf, h]
theorem configure_widthOf (c : Codec) (b : Nat) (s : State) (h : b < 2 ^ 6) :
    (configure c b s).widthOf c = b := by
  simp only [State.widthOf, configure_engine, BitVec.toNat_ofNat]
  exact Nat.mod_eq_of_lt h

end Sys2Proof.Machine
end

