-- ==== Sys2Proof/Laws/Memory.lean ====
section
/-! SUPPORT. The laws of the buffers: what a read returns after a write, and that every write keeps
the canonical form and the range. -/

namespace Sys2Proof.Machine

variable {w : Nat}

@[simp] theorem Memory.find?_nil (a : Nat) : Memory.find? ([] : Memory w) a = none := rfl

theorem Memory.find?_cons (p : Nat × BitVec w) (m : Memory w) (a : Nat) :
    Memory.find? (p :: m) a = if p.1 = a then some p.2 else Memory.find? m a := rfl

theorem Memory.find?_append (m m' : Memory w) (a : Nat) :
    Memory.find? (m ++ m') a = (Memory.find? m a).or (Memory.find? m' a) := by
  induction m with
  | nil => simp
  | cons p m ih =>
    simp only [List.cons_append, Memory.find?_cons]
    split <;> simp [ih]

/-- A read after a write: the value at the place written, every other place as before. -/
theorem Memory.find?_set (m : Memory w) (a b : Nat) (v : BitVec w) :
    Memory.find? (Memory.set m a v) b = if a = b then some v else Memory.find? m b := by
  induction m with
  | nil => simp [Memory.set, Memory.find?_cons]
  | cons p m ih =>
    obtain ⟨k, x⟩ := p
    simp only [Memory.set]
    split
    · simp only [Memory.find?_cons]
    · split
      · subst a
        simp only [Memory.find?_cons]
        split <;> rfl
      · simp only [Memory.find?_cons, ih]
        by_cases h1 : k = b
        · subst h1; simp_all
        · simp [h1]

@[simp] theorem Memory.find?_set_same (m : Memory w) (a : Nat) (v : BitVec w) :
    Memory.find? (Memory.set m a v) a = some v := by simp [Memory.find?_set]

theorem Memory.find?_set_ne (m : Memory w) {a b : Nat} (v : BitVec w) (h : a ≠ b) :
    Memory.find? (Memory.set m a v) b = Memory.find? m b := by simp [Memory.find?_set, h]

theorem Memory.find?_block (start : Nat) (vs : List (BitVec w)) (a : Nat) :
    Memory.find? (Memory.block start vs) a = if start ≤ a then vs[a - start]? else none := by
  induction vs generalizing start with
  | nil => simp [Memory.block]
  | cons v vs ih =>
    simp only [Memory.block, Memory.find?_cons, ih]
    by_cases h : start = a
    · subst h; simp
    · by_cases h2 : start ≤ a
      · have h3 : start + 1 ≤ a := by omega
        obtain ⟨k, rfl⟩ : ∃ k, a = start + 1 + k := ⟨a - (start + 1), by omega⟩
        have e1 : start + 1 + k - start = k + 1 := by omega
        have e2 : start + 1 + k - (start + 1) = k := by omega
        simp [h, h2, h3, e1, e2]
      · have h3 : ¬start + 1 ≤ a := by omega
        simp [h, h2, h3]

theorem Memory.find?_filter_ge (m : Memory w) (n a : Nat) (h : n ≤ a) :
    Memory.find? (m.filter (fun p => decide (n ≤ p.1))) a = Memory.find? m a := by
  induction m with
  | nil => rfl
  | cons p m ih =>
    by_cases hp : n ≤ p.1
    · rw [List.filter_cons_of_pos (by simpa using hp)]
      simp only [Memory.find?_cons, ih]
    · rw [List.filter_cons_of_neg (by simpa using hp), ih, Memory.find?_cons]
      have : p.1 ≠ a := by omega
      simp [this]

theorem Memory.find?_eq_none (m : Memory w) (a : Nat) (h : ∀ p ∈ m, p.1 ≠ a) :
    Memory.find? m a = none := by
  induction m with
  | nil => rfl
  | cons p m ih =>
    rw [Memory.find?_cons, if_neg (h p (by simp)), ih (fun q hq => h q (by simp [hq]))]

/-- A read after the store of a prefix: the values stored, and beyond them every place as before. -/
theorem Memory.find?_setPrefix (m : Memory w) (vs : List (BitVec w)) (a : Nat) :
    Memory.find? (m.setPrefix vs) a = if a < vs.length then vs[a]? else Memory.find? m a := by
  simp only [Memory.setPrefix, Memory.find?_append, Memory.find?_block]
  by_cases h : a < vs.length
  · simp [h]
  · have h' : vs.length ≤ a := by omega
    simp [h, Memory.find?_filter_ge _ _ _ h']

theorem Memory.mem_set {m : Memory w} {a : Nat} {v : BitVec w} {p : Nat × BitVec w}
    (h : p ∈ Memory.set m a v) : p = (a, v) ∨ p ∈ m := by
  induction m with
  | nil => simpa [Memory.set] using h
  | cons q m ih =>
    obtain ⟨k, x⟩ := q
    simp only [Memory.set] at h
    split at h
    · simpa using h
    · split at h
      · simp only [List.mem_cons] at h ⊢; tauto
      · simp only [List.mem_cons] at h ⊢
        rcases h with h | h
        · exact .inr (.inl h)
        · rcases ih h with h | h <;> tauto

theorem Memory.mem_block {start : Nat} {vs : List (BitVec w)} {p : Nat × BitVec w}
    (h : p ∈ Memory.block start vs) : start ≤ p.1 ∧ p.1 < start + vs.length := by
  induction vs generalizing start with
  | nil => simp [Memory.block] at h
  | cons v vs ih =>
    simp only [Memory.block, List.mem_cons] at h
    rcases h with h | h
    · subst h; simp
    · have := ih h; simp only [List.length_cons]; omega

theorem Memory.wf_iff (m : Memory w) : m.wf = true ↔ m.Pairwise (fun p q => p.1 < q.1) := by
  simp [Memory.wf]

theorem Memory.within_iff (m : Memory w) (n : Nat) : m.within n = true ↔ ∀ p ∈ m, p.1 < n := by
  simp [Memory.within]

@[simp] theorem Memory.wf_nil : Memory.wf ([] : Memory w) = true := by simp [Memory.wf]
@[simp] theorem Memory.within_nil (n : Nat) : Memory.within ([] : Memory w) n = true := rfl

/-- Writing one place keeps the canonical form. -/
theorem Memory.wf_set {m : Memory w} (h : m.wf = true) (a : Nat) (v : BitVec w) :
    (Memory.set m a v).wf = true := by
  rw [Memory.wf_iff] at h ⊢
  induction m with
  | nil => simp [Memory.set]
  | cons q m ih =>
    obtain ⟨k, x⟩ := q
    rw [List.pairwise_cons] at h
    simp only [Memory.set]
    split
    · rename_i hak
      refine List.pairwise_cons.mpr ⟨?_, List.pairwise_cons.mpr h⟩
      intro p hp
      rcases List.mem_cons.mp hp with rfl | hp
      · exact hak
      · exact lt_trans hak (h.1 p hp)
    · split
      · subst a; exact List.pairwise_cons.mpr h
      · rename_i h1 h2
        refine List.pairwise_cons.mpr ⟨?_, ih h.2⟩
        intro p hp
        rcases Memory.mem_set hp with rfl | hp
        · show k < a; omega
        · exact h.1 p hp

theorem Memory.within_set {m : Memory w} {n a : Nat} (h : m.within n = true) (ha : a < n)
    (v : BitVec w) : (Memory.set m a v).within n = true := by
  rw [Memory.within_iff] at h ⊢
  intro p hp
  rcases Memory.mem_set hp with rfl | hp
  · exact ha
  · exact h p hp

theorem Memory.pairwise_block (start : Nat) (vs : List (BitVec w)) :
    (Memory.block start vs).Pairwise (fun p q => p.1 < q.1) := by
  induction vs generalizing start with
  | nil => simp [Memory.block]
  | cons v vs ih =>
    refine List.pairwise_cons.mpr ⟨?_, ih _⟩
    intro p hp
    have := Memory.mem_block hp
    show start < p.1
    omega

/-- Storing a prefix keeps the canonical form. -/
theorem Memory.wf_setPrefix {m : Memory w} (h : m.wf = true) (vs : List (BitVec w)) :
    (m.setPrefix vs).wf = true := by
  rw [Memory.wf_iff] at h ⊢
  refine List.pairwise_append.mpr ⟨Memory.pairwise_block 0 vs, h.filter _, ?_⟩
  intro p hp q hq
  have h1 := Memory.mem_block hp
  have h2 := (List.mem_filter.mp hq).2
  simp only [decide_eq_true_eq] at h2
  omega

theorem Memory.within_setPrefix {m : Memory w} {n : Nat} (h : m.within n = true)
    {vs : List (BitVec w)} (hv : vs.length ≤ n) : (m.setPrefix vs).within n = true := by
  rw [Memory.within_iff] at h ⊢
  intro p hp
  rcases List.mem_append.mp hp with hp | hp
  · have := Memory.mem_block hp; omega
  · exact h p (List.mem_filter.mp hp).1

/-- Storing the same number of values twice is storing the second ones. -/
theorem Memory.setPrefix_setPrefix (m : Memory w) (vs us : List (BitVec w))
    (h : vs.length = us.length) : (m.setPrefix vs).setPrefix us = m.setPrefix us := by
  simp only [Memory.setPrefix, List.filter_append, List.filter_filter, h, Bool.and_self]
  have : (Memory.block 0 vs).filter (fun p => decide (us.length ≤ p.1)) = [] := by
    rw [List.filter_eq_nil_iff]
    intro p hp
    have := Memory.mem_block hp
    simp; omega
  rw [this, List.nil_append]

/-! ### The buffers of the state -/

theorem writeSrc_srcElem (i j : Nat) (v : Word) (s : State) :
    (writeSrc i v s).srcElem j = if i = j then v else s.srcElem j := by
  simp only [State.srcElem, writeSrc_src, Memory.find?_set]
  split <;> rfl

theorem writeCbuf_cbufByte (c d : Codec) (a k : Nat) (b : Byte) (s : State) :
    (writeCbuf c a b s).cbufByte d k = if c = d ∧ a = k then b else s.cbufByte d k := by
  by_cases h : d = c
  · subst h
    simp only [State.cbufByte, writeCbuf_engine, Memory.find?_set]
    by_cases hk : a = k <;> simp [hk]
  · simp [State.cbufByte, h, Ne.symm h]

theorem writeCbuf_dbufElem (c d : Codec) (a i : Nat) (b : Byte) (s : State) :
    (writeCbuf c a b s).dbufElem d i = s.dbufElem d i := by
  by_cases h : d = c
  · subst h; simp [State.dbufElem]
  · simp [State.dbufElem, h]

theorem storePacked_cbufByte (c : Codec) (bytes : List Byte) (len : Nat) (s : State) (a : Nat) :
    (storePacked c bytes len s).cbufByte c a =
      if a < bytes.length then bytes.getD a 0 else s.cbufByte c a := by
  simp only [State.cbufByte, storePacked_engine, Memory.find?_setPrefix]
  split
  · rename_i h; simp [h]
  · rfl

theorem storePacked_cbufByte_ne (c d : Codec) (bytes : List Byte) (len : Nat) (s : State) (a : Nat)
    (h : d ≠ c) : (storePacked c bytes len s).cbufByte d a = s.cbufByte d a := by
  simp [State.cbufByte, h]

theorem storeDecoded_dbufElem (c : Codec) (vals : List Elem) (s : State) (i : Nat) :
    (storeDecoded c vals s).dbufElem c i =
      if i < vals.length then vals.getD i 0 else s.dbufElem c i := by
  simp only [State.dbufElem, storeDecoded_engine, Memory.find?_setPrefix]
  split
  · rename_i h; simp [h]
  · rfl

theorem storeDecoded_dbufElem_ne (c d : Codec) (vals : List Elem) (s : State) (i : Nat)
    (h : d ≠ c) : (storeDecoded c vals s).dbufElem d i = s.dbufElem d i := by
  simp [State.dbufElem, h]

end Sys2Proof.Machine
end

