-- ==== Sys2Proof/Laws/Codec.lean ====
section
/-! SUPPORT. The laws of the pure codec functions, bit by bit: what each bit of a packed byte array
is, what each bit of an extracted element is, and what the running sum and the mini-block functions
list.  Later proofs cite these and unfold none of the functions. -/

namespace Sys2Proof.Machine

/-! ### `ceil(x / 8)` -/

theorem ceilDiv8_eq (x : Nat) : ceilDiv8 x = (x + 7) / 8 := by
  simp [ceilDiv8, Nat.shiftRight_eq_div_pow]

theorem ceilDiv8_le_iff (x l : Nat) : ceilDiv8 x ≤ l ↔ x ≤ 8 * l := by
  rw [ceilDiv8_eq]; omega

theorem lt_ceilDiv8_iff (a x : Nat) : a < ceilDiv8 x ↔ 8 * a < x := by
  rw [ceilDiv8_eq]; omega

@[simp] theorem ceilDiv8_mul_eight (x : Nat) : ceilDiv8 (8 * x) = x := by
  rw [ceilDiv8_eq]; omega

/-! ### `bitSum` -/

theorem bitSum_lt (f : Nat → Bool) (n : Nat) : bitSum f n < 2 ^ n := by
  induction n with
  | zero => simp [bitSum]
  | succ n ih =>
    have h : (f n).toNat ≤ 1 := Bool.toNat_le _
    simp only [bitSum, Nat.shiftLeft_eq, pow_succ]
    nlinarith [Nat.mul_le_mul_right (2 ^ n) h]

theorem testBit_bitSum (f : Nat → Bool) (n j : Nat) :
    (bitSum f n).testBit j = (decide (j < n) && f j) := by
  induction n with
  | zero => simp [bitSum]
  | succ n ih =>
    have e : bitSum f (n + 1) = 2 ^ n * (f n).toNat + bitSum f n := by
      simp only [bitSum, Nat.shiftLeft_eq]; ring
    rw [e, Nat.testBit_two_pow_mul_add _ (bitSum_lt f n), ih]
    by_cases h : j < n
    · simp [h, Nat.lt_succ_of_lt h]
    · by_cases h2 : j = n
      · subst h2; cases f j <;> simp
      · have h3 : ¬j < n + 1 := by omega
        have h4 : j - n ≠ 0 := by omega
        cases hf : f n
        · simp [h, h3]
        · simp only [h, h3, if_false, Bool.toNat_true, decide_false, Bool.false_and]
          rw [Nat.testBit_eq_false_of_lt]
          exact Nat.one_lt_two_pow h4

/-- A sum of bits is determined by its bits. -/
theorem eq_bitSum_of_testBit (x n : Nat) (f : Nat → Bool)
    (h : ∀ j, x.testBit j = (decide (j < n) && f j)) : x = bitSum f n :=
  Nat.eq_of_testBit_eq fun j => by rw [h, testBit_bitSum]

/-! ### The packed layout -/

@[simp] theorem packBits_length (vals : List Word) (b : Nat) :
    (packBits vals b).length = ceilDiv8 (b * vals.length) := by simp [packBits]

theorem packBits_getLsbD (vals : List Word) (b a j : Nat) (hj : j < 8) :
    ((packBits vals b).getD a 0).getLsbD j = packedBit vals b (8 * a + j) := by
  by_cases ha : a < ceilDiv8 (b * vals.length)
  · have : (packBits vals b).getD a 0 =
        BitVec.ofNat 8 (bitSum (fun j => packedBit vals b (8 * a + j)) 8) := by
      simp [packBits, List.getD_eq_getElem?_getD, ha]
    rw [this, BitVec.getLsbD_ofNat, testBit_bitSum]
    simp [hj]
  · have : (packBits vals b).getD a 0 = 0 := by
      rw [List.getD_eq_default _ _ (by rw [packBits_length]; omega)]
    rw [this]
    rw [lt_ceilDiv8_iff] at ha
    have : ¬(8 * a + j < b * vals.length) := by omega
    simp [packedBit, this]

/-- Rule R75 and rule R70 together: bit k of the packed bytes is `bitval(k)`. -/
theorem bitOf_packBits (vals : List Word) (b k : Nat) :
    bitOf (fun a => (packBits vals b).getD a 0) k = packedBit vals b k := by
  have h : k % 8 < 8 := Nat.mod_lt _ (by omega)
  rw [bitOf, packBits_getLsbD _ _ _ _ h, Nat.shiftRight_eq_div_pow]
  congr 1
  omega

/-- Rule R71: element i of the source is at the bits `i × B` on. -/
theorem packedBit_elem (vals : List Word) (b i j : Nat) (hi : i < vals.length) (hj : j < b) :
    packedBit vals b (i * b + j) = (vals.getD i 0).getLsbD j := by
  have h1 : i * b + j < b * vals.length := by
    calc i * b + j < i * b + b := by omega
      _ = (i + 1) * b := by ring
      _ ≤ vals.length * b := Nat.mul_le_mul_right _ hi
      _ = b * vals.length := by ring
  have h2 : (i * b + j) / b = i := by
    rw [Nat.add_comm, Nat.add_mul_div_right _ _ (by omega), Nat.div_eq_of_lt hj]; omega
  have h3 : (i * b + j) % b = j := by
    rw [Nat.add_comm, Nat.add_mul_mod_self_right, Nat.mod_eq_of_lt hj]
  simp only [packedBit, h1, decide_true, Bool.true_and, h2, h3]

/-- Rule R71: the padding bits are 0. -/
theorem packedBit_padding (vals : List Word) (b k : Nat) (h : b * vals.length ≤ k) :
    packedBit vals b k = false := by
  simp [packedBit, Nat.not_lt.mpr h]

/-! ### The datapath -/

/-- The whole inner loop of rule R72 at once: the full bytes of the accumulator go out, its rest
stays. -/
theorem Datapath.flush_eq (fuel : Nat) (d : Datapath) (h : d.nb ≤ 8 * fuel + 7) :
    Datapath.flush fuel d =
      { acc := d.acc >>> (8 * (d.nb / 8)), nb := d.nb % 8, wptr := d.wptr + d.nb / 8,
        out := d.out ++ (List.range (d.nb / 8)).map fun j => d.acc.extractLsb' (8 * j) 8 } := by
  induction fuel generalizing d with
  | zero =>
    have e : d.nb / 8 = 0 := by omega
    have e2 : d.nb % 8 = d.nb := by omega
    simp [Datapath.flush, e, e2]
  | succ fuel ih =>
    rw [Datapath.flush]
    split
    · rename_i h8
      rw [ih _ (by simp only [Datapath.emit]; omega)]
      obtain ⟨k, hk⟩ : ∃ k, d.nb / 8 = k + 1 := ⟨d.nb / 8 - 1, by omega⟩
      have e1 : (d.nb - 8) / 8 = k := by omega
      have e2 : (d.nb - 8) % 8 = d.nb % 8 := by omega
      simp only [Datapath.emit, e1, e2, hk, List.range_succ_eq_map, List.map_cons, List.map_map,
        List.append_assoc, List.singleton_append, ← BitVec.shiftRight_add]
      have a1 : 8 + 8 * k = 8 * (k + 1) := by omega
      have a2 : d.wptr + 1 + k = d.wptr + (k + 1) := by omega
      have a3 : (List.range k).map (fun j => (d.acc >>> 8).extractLsb' (8 * j) 8) =
          (List.range k).map ((fun j => d.acc.extractLsb' (8 * j) 8) ∘ Nat.succ) := by
        refine List.map_congr_left fun j _ => ?_
        ext t ht
        simp only [BitVec.getElem_extractLsb', BitVec.getLsbD_ushiftRight, Function.comp]
        congr 1; omega
      rw [a1, a2, a3]
    · have e : d.nb / 8 = 0 := by omega
      have e2 : d.nb % 8 = d.nb := by omega
      simp [e, e2]

/-- The bit string of a sequence with one more value. -/
theorem packedBit_append (vals : List Word) (v : Word) (b k : Nat) (hb : 1 ≤ b) :
    packedBit (vals ++ [v]) b k =
      if k < b * vals.length then packedBit vals b k
      else (decide (k < b * vals.length + b) && v.getLsbD (k - b * vals.length)) := by
  have hl : b * (vals ++ [v]).length = b * vals.length + b := by simp; ring
  unfold packedBit
  rw [hl]
  split
  · rename_i h
    have h1 : k < b * vals.length + b := by omega
    have hk : k / b < vals.length := by
      rw [Nat.div_lt_iff_lt_mul (by omega)]; linarith [Nat.mul_comm b vals.length]
    simp [h, h1, List.getD_eq_getElem?_getD, List.getElem?_append_left hk]
  · rename_i h
    by_cases h1 : k < b * vals.length + b
    · have hk : k / b = vals.length := by
        apply Nat.div_eq_of_lt_le
        · linarith [Nat.mul_comm b vals.length]
        · rw [Nat.succ_mul]; linarith [Nat.mul_comm b vals.length]
      have hm : k % b = k - b * vals.length := by
        have := Nat.div_add_mod k b; rw [hk] at this; omega
      simp [h1, hk, hm, List.getD_eq_getElem?_getD]
    · simp [h1]

/-! ### Extraction -/

theorem window_lt (byteAt : Nat → Byte) (a k : Nat) : window byteAt a k < 2 ^ (8 * k) := by
  induction k with
  | zero => simp [window]
  | succ k ih =>
    have h : (byteAt (a + k)).toNat < 2 ^ 8 := (byteAt (a + k)).isLt
    simp only [window, Nat.shiftLeft_eq]
    have e : 2 ^ (8 * (k + 1)) = 2 ^ 8 * 2 ^ (8 * k) := by rw [← pow_add]; congr 1; omega
    rw [e]
    nlinarith [Nat.mul_le_mul_right (2 ^ (8 * k)) (Nat.succ_le_of_lt h)]

theorem testBit_window (byteAt : Nat → Byte) (a k t : Nat) :
    (window byteAt a k).testBit t =
      (decide (t < 8 * k) && (byteAt (a + t / 8)).getLsbD (t % 8)) := by
  induction k with
  | zero => simp [window]
  | succ k ih =>
    have e : window byteAt a (k + 1) =
        2 ^ (8 * k) * (byteAt (a + k)).toNat + window byteAt a k := by
      simp only [window, Nat.shiftLeft_eq]; ring
    rw [e, Nat.testBit_two_pow_mul_add _ (window_lt byteAt a k), ih]
    by_cases h : t < 8 * k
    · have h2 : t < 8 * (k + 1) := by omega
      simp [h, h2]
    · simp only [h, if_false]
      by_cases h2 : t < 8 * (k + 1)
      · have e1 : t / 8 = k := by omega
        have e2 : t % 8 = t - 8 * k := by omega
        simp [h2, e1, e2, BitVec.testBit_toNat]
      · simp only [h2, decide_false, Bool.false_and]
        apply Nat.testBit_eq_false_of_lt
        exact lt_of_lt_of_le (byteAt (a + k)).isLt (Nat.pow_le_pow_right (by omega) (by omega))

/-- Rule R78: bit j of an extracted element is bit `i × B + j` of the bit string; the bits of the
next element are masked off. -/
theorem testBit_extract (byteAt : Nat → Byte) (b i j : Nat) :
    (extract byteAt b i).testBit j = (decide (j < b) && bitOf byteAt (i * b + j)) := by
  have d8 : ∀ x, x >>> 3 = x / 8 := fun x => Nat.shiftRight_eq_div_pow x 3
  simp only [extract, Nat.testBit_and, Nat.testBit_two_pow_sub_one, Nat.testBit_shiftRight,
    testBit_window, bitOf, d8]
  by_cases h : j < b
  · have h1 : i * b % 8 + j < 8 * ceilDiv8 (i * b % 8 + b) := by
      rw [ceilDiv8_eq]; omega
    have e1 : i * b / 8 + (i * b % 8 + j) / 8 = (i * b + j) / 8 := by omega
    have e2 : (i * b % 8 + j) % 8 = (i * b + j) % 8 := by omega
    simp [h, h1, e1, e2]
  · simp [h]

theorem extract_eq_bitSum (byteAt : Nat → Byte) (b i : Nat) :
    extract byteAt b i = bitSum (fun j => bitOf byteAt (i * b + j)) b :=
  eq_bitSum_of_testBit _ _ _ fun j => testBit_extract byteAt b i j

theorem extract_lt (byteAt : Nat → Byte) (b i : Nat) : extract byteAt b i < 2 ^ b := by
  rw [extract_eq_bitSum]; exact bitSum_lt _ _

/-- Two byte arrays that agree on the bytes an element touches give the same element. -/
theorem extract_congr (f g : Nat → Byte) (b i : Nat)
    (h : ∀ k, i * b ≤ k → k < i * b + b → bitOf f k = bitOf g k) : extract f b i = extract g b i := by
  apply Nat.eq_of_testBit_eq
  intro j
  rw [testBit_extract, testBit_extract]
  by_cases hj : j < b
  · rw [h _ (by omega) (by omega)]
  · simp [hj]

/-- The extraction of a packed element: `Extract(PackBits(V, B), B, i) = V[i]` when it fits. -/
theorem extract_of_bits (byteAt : Nat → Byte) (v : Word) (b i : Nat) (hv : v.toNat < 2 ^ b)
    (h : ∀ j, j < b → bitOf byteAt (i * b + j) = v.getLsbD j) : extract byteAt b i = v.toNat := by
  apply Nat.eq_of_testBit_eq
  intro j
  rw [testBit_extract]
  by_cases hj : j < b
  · rw [h j hj]; simp [hj, BitVec.testBit_toNat]
  · simp only [hj, decide_false, Bool.false_and]
    exact (Nat.testBit_eq_false_of_lt
      (lt_of_lt_of_le hv (Nat.pow_le_pow_right (by omega) (by omega)))).symm

@[simp] theorem extractAll_length (byteAt : Nat → Byte) (b n : Nat) :
    (extractAll byteAt b n).length = n := by simp [extractAll]

theorem extractAll_getD (byteAt : Nat → Byte) (b n i : Nat) (h : i < n) :
    (extractAll byteAt b n).getD i 0 = BitVec.ofNat 64 (extract byteAt b i) := by
  simp [extractAll, List.getD_eq_getElem?_getD, h, unpackTable]

theorem extractAll_congr (f g : Nat → Byte) (b n : Nat)
    (h : ∀ k, k < n * b → bitOf f k = bitOf g k) : extractAll f b n = extractAll g b n := by
  apply List.map_congr_left
  intro i hi
  have hi' : i < n := List.mem_range.mp hi
  have : (i + 1) * b ≤ n * b := Nat.mul_le_mul_right _ hi'
  simp only [unpackTable]
  rw [extract_congr f g b i fun k _ hk => h k (by nlinarith)]

/-! ### The running sum -/

@[simp] theorem runSumFrom_length (byteAt : Nat → Byte) (b : Nat) (sum : Elem) (i n : Nat) :
    (runSumFrom byteAt b sum i n).length = n := by
  induction n generalizing sum i with
  | zero => rfl
  | succ n ih => simp [runSumFrom, ih]

@[simp] theorem runSum_length (byteAt : Nat → Byte) (b n : Nat) :
    (runSum byteAt b n).length = n := by simp [runSum]

theorem runSumFrom_getD (byteAt : Nat → Byte) (b i n k : Nat) (h : k < n) :
    (runSumFrom byteAt b (BitVec.ofNat 64 (extractSum byteAt b i)) i n).getD k 0 =
      BitVec.ofNat 64 (extractSum byteAt b (i + k + 1)) := by
  induction n generalizing i k with
  | zero => omega
  | succ n ih =>
    have e : BitVec.ofNat 64 (extractSum byteAt b i) + BitVec.ofNat 64 (unpackTable b byteAt i) =
        BitVec.ofNat 64 (extractSum byteAt b (i + 1)) := by
      simp [extractSum, unpackTable, BitVec.ofNat_add]
    simp only [runSumFrom, e]
    cases k with
    | zero => simp
    | succ k =>
      have := ih (i + 1) k (by omega)
      simp only [List.getD_cons_succ]
      rw [this]
      congr 2; omega

/-- Rule R86: element k of the running sum is the sum of elements 0 to k, modulo 2^64. -/
theorem runSum_getD (byteAt : Nat → Byte) (b n k : Nat) (h : k < n) :
    (runSum byteAt b n).getD k 0 = BitVec.ofNat 64 (extractSum byteAt b (k + 1)) := by
  have := runSumFrom_getD byteAt b 0 n k h
  simpa [runSum, extractSum] using this

theorem extractSum_congr (f g : Nat → Byte) (b n : Nat)
    (h : ∀ i, i < n → extract f b i = extract g b i) : extractSum f b n = extractSum g b n := by
  induction n with
  | zero => rfl
  | succ n ih => simp [extractSum, ih (fun i hi => h i (by omega)), h n (by omega)]

/-! ### Mini-blocks -/

/-- Lane `i % 16` of mini-block `i / 16` is read at the bits `i × B` on (rule R100). -/
theorem bitOf_shift (byteAt : Nat → Byte) (a k : Nat) :
    bitOf (fun x => byteAt (a + x)) k = bitOf byteAt (8 * a + k) := by
  simp only [bitOf, Nat.shiftRight_eq_div_pow]
  have e1 : a + k / 2 ^ 3 = (8 * a + k) / 2 ^ 3 := by omega
  have e2 : k % 8 = (8 * a + k) % 8 := by omega
  rw [e1, ← e2]

theorem extract_miniBlock (byteAt : Nat → Byte) (b m j : Nat) :
    extract (fun a => byteAt (2 * b * m + a)) b j = extract byteAt b (mbsz * m + j) := by
  apply Nat.eq_of_testBit_eq
  intro t
  rw [testBit_extract, testBit_extract, bitOf_shift]
  have : 8 * (2 * b * m) + (j * b + t) = (mbsz * m + j) * b + t := by simp only [mbsz]; ring
  rw [this]

/-- Chunks of `k` entries, one after the other, are the whole range. -/
theorem flatMap_range_chunks {α : Type} (f : Nat → α) (k n : Nat) :
    ((List.range n).flatMap fun m => (List.range k).map fun j => f (k * m + j)) =
      (List.range (k * n)).map f := by
  induction n with
  | zero => simp
  | succ n ih =>
    rw [List.range_succ, List.flatMap_append, ih, Nat.mul_succ, List.range_add, List.map_append]
    simp [List.map_map, Function.comp_def]

/-- Rule R97 in one pass: unpacking by mini-blocks lists the elements 0 to n − 1. -/
theorem unpackMiniBlocks_eq (byteAt : Nat → Byte) (b n : Nat) :
    unpackMiniBlocks byteAt b n = extractAll byteAt b (mbsz * (n / mbsz)) := by
  simp only [unpackMiniBlocks, extractAll, unpackTable, extract_miniBlock]
  exact flatMap_range_chunks (fun i => BitVec.ofNat 64 (extract byteAt b i)) mbsz (n / mbsz)

@[simp] theorem unpackMiniBlocks_length (byteAt : Nat → Byte) (b n : Nat) :
    (unpackMiniBlocks byteAt b n).length = mbsz * (n / mbsz) := by simp [unpackMiniBlocks_eq]

theorem miniBlock_length (vals : List Word) (m : Nat) (h : mbsz * (m + 1) ≤ vals.length) :
    (miniBlock vals m).length = mbsz := by
  simp only [miniBlock, List.length_take, List.length_drop, mbsz] at *
  omega

theorem miniBlock_getD (vals : List Word) (m j : Nat) (hj : j < mbsz) :
    (miniBlock vals m).getD j 0 = vals.getD (mbsz * m + j) 0 := by
  simp [miniBlock, List.getD_eq_getElem?_getD, hj, List.getElem?_drop]

/-- A mini-block fills exactly `2 × B` bytes (rule R93). -/
theorem packBits_miniBlock_length (vals : List Word) (b m : Nat)
    (h : mbsz * (m + 1) ≤ vals.length) : (packBits (miniBlock vals m) b).length = 2 * b := by
  rw [packBits_length, miniBlock_length vals m h]
  have : b * mbsz = 8 * (2 * b) := by simp only [mbsz]; ring
  rw [this, ceilDiv8_mul_eight]

theorem packedBit_miniBlock (vals : List Word) (b m k : Nat)
    (h : mbsz * (m + 1) ≤ vals.length) (hk : k < 8 * (2 * b)) :
    packedBit (miniBlock vals m) b k = packedBit vals b (8 * (2 * b * m) + k) := by
  have hb : 0 < b := by omega
  have h16 : 8 * (2 * b) = b * mbsz := by simp only [mbsz]; ring
  rw [h16] at hk
  have h1 : k < b * (miniBlock vals m).length := by rwa [miniBlock_length vals m h]
  have h2 : 8 * (2 * b * m) + k < b * vals.length := by
    calc 8 * (2 * b * m) + k < 8 * (2 * b * m) + b * mbsz := by omega
      _ = b * (mbsz * (m + 1)) := by simp only [mbsz]; ring
      _ ≤ b * vals.length := Nat.mul_le_mul_left _ h
  have hk' : k / b < mbsz := by rw [Nat.div_lt_iff_lt_mul hb]; linarith [Nat.mul_comm b mbsz]
  have e1 : (8 * (2 * b * m) + k) / b = mbsz * m + k / b := by
    have : 8 * (2 * b * m) + k = k + (mbsz * m) * b := by simp only [mbsz]; ring
    rw [this, Nat.add_mul_div_right _ _ hb]; omega
  have e2 : (8 * (2 * b * m) + k) % b = k % b := by
    have : 8 * (2 * b * m) + k = k + (mbsz * m) * b := by simp only [mbsz]; ring
    rw [this, Nat.add_mul_mod_self_right]
  simp only [packedBit, h1, h2, decide_true, Bool.true_and, e1, e2]
  rw [miniBlock_getD _ _ _ hk']

/-- The bytes of the first `q` mini-blocks are the first `2 × B × q` bytes of the fixed-width
layout. -/
theorem flatMap_miniBlocks (vals : List Word) (b q : Nat) (h : mbsz * q ≤ vals.length) :
    ((List.range q).flatMap fun m => packBits (miniBlock vals m) b) =
      (List.range (2 * b * q)).map fun a =>
        BitVec.ofNat 8 (bitSum (fun j => packedBit vals b (8 * a + j)) 8) := by
  rw [← flatMap_range_chunks (fun a => BitVec.ofNat 8
    (bitSum (fun j => packedBit vals b (8 * a + j)) 8)) (2 * b) q]
  refine List.flatMap_congr fun m hm => ?_
  have hm' : m < q := List.mem_range.mp hm
  have hl : mbsz * (m + 1) ≤ vals.length := le_trans (Nat.mul_le_mul_left _ hm') h
  have hlen := packBits_miniBlock_length vals b m hl
  rw [packBits_length] at hlen
  rw [packBits, hlen]
  refine List.map_congr_left fun a ha => ?_
  have ha' : a < 2 * b := List.mem_range.mp ha
  refine congrArg (BitVec.ofNat 8) (eq_bitSum_of_testBit _ _ _ fun j => ?_)
  rw [testBit_bitSum]
  by_cases hj : j < 8
  · rw [packedBit_miniBlock vals b m _ hl (by omega)]
    simp only [hj, decide_true, Bool.true_and]
    exact congrArg (packedBit vals b) (by ring)
  · simp [hj]

/-- A whole number of mini-blocks packs to the bytes of the fixed-width layout (rule R100). -/
theorem packMiniBlocks_eq_packBits (vals : List Word) (b : Nat) (h : vals.length % mbsz = 0) :
    packMiniBlocks vals b = packBits vals b := by
  have h16 : mbsz * (vals.length / mbsz) = vals.length := by simp only [mbsz] at h ⊢; omega
  have e : b * vals.length = 8 * (2 * b * (vals.length / mbsz)) := by
    conv_lhs => rw [← h16]
    simp only [mbsz]; ring
  rw [packMiniBlocks, flatMap_miniBlocks vals b _ (le_of_eq h16), packBits, e, ceilDiv8_mul_eight]

@[simp] theorem srcPrefix_length (n : Nat) (s : State) : (srcPrefix n s).length = n := by
  simp [srcPrefix]

theorem srcPrefix_getD (n i : Nat) (s : State) (h : i < n) :
    (srcPrefix n s).getD i 0 = s.srcElem i := by
  simp [srcPrefix, List.getD_eq_getElem?_getD, h]

theorem srcFits_iff (n b : Nat) (s : State) :
    srcFits n b s = true ↔ ∀ i, i < n → (s.srcElem i).toNat < 2 ^ b := by
  simp [srcFits]

end Sys2Proof.Machine
end

