-- ==== Sys2Proof/Laws/Decode.lean ====
section
/-! SUPPORT. The fields of a command word, and matching a mask whose low bits are clear. -/

namespace Sys2Proof

theorem commandWord_toNat (op cs arg : Nat) :
    (commandWord op cs arg).toNat = op % 2 ^ 4 * 2 ^ 28 + cs % 2 ^ 2 * 2 ^ 26 + arg % 2 ^ 26 := by
  rw [commandWord, BitVec.toNat_ofNat, Nat.mod_eq_of_lt]
  omega

@[simp] theorem opField_commandWord (op cs arg : Nat) :
    opField (commandWord op cs arg) = op % 2 ^ 4 := by
  rw [opField, commandWord_toNat, Nat.shiftRight_eq_div_pow]; omega

@[simp] theorem cselField_commandWord (op cs arg : Nat) :
    cselField (commandWord op cs arg) = cs % 2 ^ 2 := by
  rw [cselField, commandWord_toNat, Nat.shiftRight_eq_div_pow]; omega

@[simp] theorem argField_commandWord (op cs arg : Nat) :
    argField (commandWord op cs arg) = arg % 2 ^ 26 := by
  rw [argField, commandWord_toNat]; omega

theorem opField_lt (w : Word) : opField w < 2 ^ 4 := by
  have := w.isLt
  rw [opField, Nat.shiftRight_eq_div_pow]; omega

theorem cselField_lt (w : Word) : cselField w < 2 ^ 2 := Nat.mod_lt _ (by omega)

theorem argField_lt (w : Word) : argField w < 2 ^ 26 := Nat.mod_lt _ (by omega)

/-- A word is put together from its three fields. -/
theorem commandWord_fields (w : Word) :
    commandWord (opField w) (cselField w) (argField w) = w := by
  apply BitVec.eq_of_toNat_eq
  have := w.isLt
  rw [commandWord_toNat, opField, cselField, argField, Nat.shiftRight_eq_div_pow,
    Nat.shiftRight_eq_div_pow]
  omega

/-- Step 6 of rule R57 is reached by the rows of its table only. -/
theorem selectInstr_isSome {op cs arg : Nat} (h1 : 1 ≤ op) (h2 : op ≤ 4) (h3 : cs < 3)
    (h4 : ¬(op = 4 ∧ cs ≠ 1)) : (selectInstr op cs arg).isSome := by
  interval_cases op <;> interval_cases cs <;> first | rfl | omega

/-- A `cfg` word decodes by its row, with its operand. -/
theorem decodeCmd_cfgWord {cs b : Nat} {i : Instr} (hc : cs < 3) (hb : b < 2 ^ 6)
    (hi : selectInstr 1 cs b = some i) : decodeCmd (commandWord 1 cs b) = .instr i := by
  have e1 : b % 2 ^ 26 = b := Nat.mod_eq_of_lt (by omega)
  have e2 : b >>> 6 = 0 := by rw [Nat.shiftRight_eq_div_pow]; omega
  have e3 : cs % 2 ^ 2 = cs := by omega
  have e4 : (cs = 3) = False := eq_false (by omega)
  simp only [decodeCmd, opField_commandWord, cselField_commandWord, argField_commandWord, e1, e2,
    e3, e4]
  simp [hi]

/-- A `pack`, `unpack` or `at` word decodes by its row, with its operand. -/
theorem decodeCmd_countWord {op cs n : Nat} {i : Instr} (h1 : 2 ≤ op) (h2 : op ≤ 4) (hc : cs < 3)
    (h4 : op = 4 → cs = 1) (hn : n < 2 ^ 26) (hi : selectInstr op cs n = some i) :
    decodeCmd (commandWord op cs n) = .instr i := by
  have e1 : n % 2 ^ 26 = n := Nat.mod_eq_of_lt (by omega)
  have e0 : op % 2 ^ 4 = op := by omega
  have e3 : cs % 2 ^ 2 = cs := by omega
  have e4 : ¬5 ≤ op := by omega
  have e5 : ¬op = 0 := by omega
  have e6 : ¬cs = 3 := by omega
  have e7 : ¬(op = 4 ∧ cs ≠ 1) := by omega
  have e8 : ¬op = 1 := by omega
  simp only [decodeCmd, opField_commandWord, cselField_commandWord, argField_commandWord, e0, e1,
    e3, e4, e5, e6, e7, e8, if_false, false_and, hi]

/-- The decoder of `CMD` as the decoder of a port. -/
theorem decodeAt_cmd {w : Word} {i : Instr} (h : decodeCmd w = .instr i) :
    decodeAt .cmd w = some i := by
  simp only [decodeAt, h, Decoded.instr?]

/-- `CTRL` decodes to its two operations only. -/
theorem decodeCtrl_some {d : Word} {i : Instr} (h : decodeCtrl d = some i) :
    i = .srst ∨ i = .clrerr := by
  unfold decodeCtrl at h; split_ifs at h <;> simp_all

theorem and_highMask (w : Word) (k : Nat) :
    w &&& (BitVec.allOnes 32 <<< k) = (w >>> k) <<< k := by
  ext i hi
  simp only [BitVec.getElem_and, BitVec.getElem_shiftLeft, BitVec.getElem_allOnes]
  by_cases h : i < k
  · simp [h]
  · have : k + (i - k) = i := by omega
    simp [h, this, BitVec.getLsbD_eq_getElem hi]

/-- Matching a mask with its k low bits clear compares the high bits. -/
theorem and_highMask_eq_iff (w p : Word) (k : Nat) (hp : p.toNat % 2 ^ k = 0) :
    (w &&& (BitVec.allOnes 32 <<< k) = p) ↔ w.toNat / 2 ^ k = p.toNat / 2 ^ k := by
  have hw := w.isLt
  have h2 : 0 < 2 ^ k := Nat.two_pow_pos k
  have e : ((w >>> k) <<< k).toNat = w.toNat / 2 ^ k * 2 ^ k := by
    rw [BitVec.toNat_shiftLeft, BitVec.toNat_ushiftRight, Nat.shiftRight_eq_div_pow,
      Nat.shiftLeft_eq, Nat.mod_eq_of_lt (lt_of_le_of_lt (Nat.div_mul_le_self _ _) hw)]
  have hp' := Nat.div_add_mod p.toNat (2 ^ k)
  rw [hp, Nat.add_zero, Nat.mul_comm] at hp'
  rw [and_highMask, ← BitVec.toNat_inj, e]
  constructor
  · intro h; rw [← h, Nat.mul_div_cancel _ h2]
  · intro h; rw [h, hp']

theorem mask6 : (0xFFFFFFC0 : Word) = BitVec.allOnes 32 <<< 6 := by decide
theorem mask26 : (0xFC000000 : Word) = BitVec.allOnes 32 <<< 26 := by decide


/-- The words of the row of `srst` (rule R59). -/
theorem and_srstMask_eq_iff (d : Word) : d &&& 0xFFFFFFFD = 1 ↔ d = 1 ∨ d = 3 := by
  constructor
  · intro h
    have e : d = (d &&& 0xFFFFFFFD) ||| (d &&& 2) := by
      rw [← BitVec.and_or_distrib_left,
        show (0xFFFFFFFD ||| 2 : Word) = BitVec.allOnes 32 from by decide, BitVec.and_allOnes]
    rw [h] at e
    have h2 : d &&& 2 = if d.getLsbD 1 then BitVec.twoPow 32 1 else 0 := by
      rw [show (2 : Word) = BitVec.twoPow 32 1 from by decide, BitVec.and_twoPow]; rfl
    rw [h2] at e
    split at e
    · right; rw [e]; decide
    · left; rw [e]; decide
  · rintro (rfl | rfl) <;> decide

theorem decodeCtrl_srst_iff (d : Word) : decodeCtrl d = some .srst ↔ d = 1 ∨ d = 3 := by
  constructor
  · intro h
    unfold decodeCtrl at h
    split_ifs at h with h1 h2 h3
    · rw [Nat.shiftRight_eq_div_pow] at h1
      have hd : d.toNat < 4 := by omega
      have : d = BitVec.ofNat 32 d.toNat := by simp
      interval_cases hn : d.toNat <;> subst this <;> revert h2 <;> decide
    · simp at h
  · rintro (rfl | rfl) <;> decide

theorem decodeCtrl_clrerr_iff (d : Word) : decodeCtrl d = some .clrerr ↔ d = 2 := by
  constructor
  · intro h
    unfold decodeCtrl at h
    split_ifs at h with h1 h2 h3
    · simp at h
    · rw [Nat.shiftRight_eq_div_pow] at h1
      have hd : d.toNat < 4 := by omega
      have : d = BitVec.ofNat 32 d.toNat := by simp
      interval_cases hn : d.toNat <;> subst this <;> revert h2 h3 <;> decide
  · rintro rfl; decide

/-- A row with a 26-bit operand matches the words of its upper 6 bits. -/
theorem matches_mask26 {w p : Word} (hp : p.toNat % 2 ^ 26 = 0) (m : String) (pt : Port) :
    (OpcodeRow.mk m pt p 0xFC000000).matches w = true ↔ w.toNat / 2 ^ 26 = p.toNat / 2 ^ 26 := by
  rw [OpcodeRow.matches, beq_iff_eq, mask26, and_highMask_eq_iff _ _ _ hp]

/-- A row with a 6-bit operand matches the words of its upper 26 bits. -/
theorem matches_mask6 {w p : Word} (hp : p.toNat % 2 ^ 6 = 0) (m : String) (pt : Port) :
    (OpcodeRow.mk m pt p 0xFFFFFFC0).matches w = true ↔ w.toNat / 2 ^ 6 = p.toNat / 2 ^ 6 := by
  rw [OpcodeRow.matches, beq_iff_eq, mask6, and_highMask_eq_iff _ _ _ hp]

end Sys2Proof
end

