-- ==== Sys2Proof/Laws/Ops.lean ====
section
/-! SUPPORT. What each shared operation can do, said once: when a check passes, what a command under
its checks answers, and what each shape of command (`cfgOf`, `packOf`, `unpackOf`) and each
transaction does.  Later proofs cite these and unfold no meaning. -/

namespace Sys2Proof.Machine

/-! ### Checks -/

theorem cfgCheck_pass_iff (c : Codec) (b : Nat) :
    cfgCheck c b = .pass ↔ 1 ≤ b ∧ b ≤ wmax c := by
  unfold cfgCheck; split <;> simp <;> omega

theorem cfgCheck_of_not (c : Codec) (b : Nat) (h : b = 0 ∨ wmax c < b) :
    cfgCheck c b = .reject .illegalWidth := by
  have : b < 1 ∨ wmax c < b := by omega
  rw [cfgCheck, if_pos this]

theorem countCheck_pass_iff (c : Codec) (n : Nat) (s : State) :
    countCheck c n s = .pass ↔ CountOk c n s := by
  unfold countCheck CountOk
  split
  · rename_i h; simp [h]
  · split
    · rename_i h1 h2
      have : ¬n ≤ s.params.nMax := by omega
      simp [this]
    · split
      · rename_i h1 h2 h3; simp [h3]
      · rename_i h1 h2 h3
        have : n ≤ s.params.nMax := by omega
        simp_all

theorem countCheck_notConfigured (c : Codec) (n : Nat) (s : State)
    (h : (s.engine c).cfgd = false) : countCheck c n s = .reject .notConfigured := by
  simp [countCheck, h]

theorem countCheck_capacity (c : Codec) (n : Nat) (s : State) (h : (s.engine c).cfgd = true)
    (h2 : s.params.nMax < n) : countCheck c n s = .reject .capacity := by
  simp [countCheck, h, h2]

theorem countCheck_granularity (c : Codec) (n : Nat) (s : State) (h : (s.engine c).cfgd = true)
    (h2 : n ≤ s.params.nMax) (h3 : n % granularity s.params c ≠ 0) :
    countCheck c n s = .halt .granularityError := by
  simp [countCheck, h, Nat.not_lt.mpr h2, h3]

/-- Every outcome of the count checks. -/
theorem countCheck_cases (c : Codec) (n : Nat) (s : State) :
    countCheck c n s = .reject .notConfigured ∨ countCheck c n s = .reject .capacity ∨
      countCheck c n s = .halt .granularityError ∨ countCheck c n s = .pass := by
  unfold countCheck; split_ifs <;> simp

theorem unpackCheck_pass_iff (c : Codec) (n : Nat) (s : State) :
    unpackCheck c n s = .pass ↔ CountOk c n s ∧ EnoughBytes c n s := by
  rw [← countCheck_pass_iff]
  unfold unpackCheck EnoughBytes bytesNeeded
  rcases countCheck_cases c n s with h | h | h | h <;> simp [h]

theorem unpackCheck_of_countCheck (c : Codec) (n : Nat) (s : State) (k : Check)
    (h : countCheck c n s = k) (hk : k ≠ .pass) : unpackCheck c n s = k := by
  unfold unpackCheck; rw [h]; cases k <;> simp_all

theorem unpackCheck_underrun (c : Codec) (n : Nat) (s : State) (h : CountOk c n s)
    (h2 : ¬EnoughBytes c n s) : unpackCheck c n s = .reject .underrun := by
  have h3 := (countCheck_pass_iff c n s).mpr h
  unfold EnoughBytes at h2
  simp [unpackCheck, h3, bytesNeeded, Nat.lt_of_not_le h2]

theorem unpackCheck_cases (c : Codec) (n : Nat) (s : State) :
    (∃ k, unpackCheck c n s = .reject k) ∨ unpackCheck c n s = .halt .granularityError ∨
      unpackCheck c n s = .pass := by
  unfold unpackCheck
  rcases countCheck_cases c n s with h | h | h | h <;> simp [h]
  by_cases hu : (s.engine c).clen.toNat < bytesNeeded c n s
  · exact .inl ⟨.underrun, if_pos hu⟩
  · exact .inr (.inr (Nat.le_of_not_lt hu))

/-- The checks of a command read its engine and the parameters, and nothing else. -/
theorem countCheck_congr (c : Codec) (n : Nat) {s t : State} (h : t.engine c = s.engine c)
    (hp : t.params = s.params) : countCheck c n t = countCheck c n s := by
  unfold countCheck; rw [h, hp]

theorem unpackCheck_congr (c : Codec) (n : Nat) {s t : State} (h : t.engine c = s.engine c)
    (hp : t.params = s.params) : unpackCheck c n t = unpackCheck c n s := by
  unfold unpackCheck bytesNeeded State.widthOf; rw [countCheck_congr c n h hp, h]

theorem atCheck_pass_iff (i : Nat) (s : State) :
    atCheck i s = .pass ↔ s.forb.cfgd = true ∧ s.valid = true ∧ i < s.forb.dcnt.toNat := by
  unfold atCheck; split_ifs <;> simp_all

theorem atCheck_cases (i : Nat) (s : State) :
    (∃ k, atCheck i s = .reject k) ∨ atCheck i s = .pass := by
  unfold atCheck; split_ifs <;> simp

@[simp] theorem guarded_pass (w : Word) (s : State) (body : Host.Outcome State Fault Refusal) :
    guarded .pass w s body = body := rfl

@[simp] theorem guarded_reject (k : RejectKind) (w : Word) (s : State)
    (body : Host.Outcome State Fault Refusal) :
    guarded (.reject k) w s body = .next (rejectWith k w s) := rfl

@[simp] theorem guarded_halt (k : FatalKind) (w : Word) (s : State)
    (body : Host.Outcome State Fault Refusal) :
    guarded (.halt k) w s body = .next (haltWith k w s) := rfl

/-- What a command under its checks can answer. -/
theorem guarded_next {ck : Check} {w : Word} {s t : State}
    {body : Host.Outcome State Fault Refusal} (h : guarded ck w s body = .next t) :
    (ck = .pass ∧ body = .next t) ∨ (∃ k, ck = .reject k ∧ t = rejectWith k w s) ∨
      (∃ k, ck = .halt k ∧ t = haltWith k w s) := by
  cases ck with
  | pass => exact .inl ⟨rfl, h⟩
  | reject k => simp only [guarded_reject, Host.Outcome.next.injEq] at h; exact .inr (.inl ⟨k, rfl, h.symm⟩)
  | halt k => simp only [guarded_halt, Host.Outcome.next.injEq] at h; exact .inr (.inr ⟨k, rfl, h.symm⟩)

/-! ### The parameters -/

theorem granularity_pos (p : Params) (c : Codec) : 0 < granularity p c := by
  cases c <;> simp only [granularity] <;> rcases p.gFixed_ok with h | h | h | h <;> omega

theorem nMax_lt (p : Params) : p.nMax < 2 ^ 26 := by have := p.nMax_ok; omega

/-- `CAPS[MBP]`, whose fields depend on no parameter. -/
theorem capsWord_mbp (p : Params) : capsWord p .mbp = 0x10202001 := by
  have h1 : wmax .mbp = 32 := rfl
  have h2 : granularity p .mbp = 32 := rfl
  have h3 : mbszField .mbp = 16 := rfl
  unfold capsWord; rw [h1, h2, h3]; decide

/-- `CAPS[FWP]` and `CAPS[FOR]`, with `G_FIXED` in the field `GRAN`. -/
theorem capsWord_fixed (p : Params) (c : Codec) (h : c ≠ .mbp) :
    capsWord p c = 0x00003801 ||| (BitVec.ofNat 32 p.gFixed <<< 16) := by
  have h1 : wmax c = 56 := by cases c <;> first | rfl | exact absurd rfl h
  have h2 : granularity p c = p.gFixed := by cases c <;> first | rfl | exact absurd rfl h
  have h3 : mbszField c = 0 := by cases c <;> first | rfl | exact absurd rfl h
  unfold capsWord; rw [h1, h2, h3]
  rcases p.gFixed_ok with h | h | h | h <;> rw [h] <;> decide

/-! ### The three shapes of command -/

/-- The bytes a pack stores. -/
def packedBytes (c : Codec) (vals : List Word) (b : Nat) : List Byte :=
  match c with
  | .fwp => packBits vals b
  | .forb => packBits vals b
  | .mbp => packMiniBlocks vals b

/-- The length a pack of `n` elements reports. -/
def packedLength (c : Codec) (n b : Nat) : Nat :=
  match c with
  | .fwp => ceilDiv8 (b * n)
  | .forb => ceilDiv8 (b * n)
  | .mbp => 4 * n

/-- The elements an unpack stores. -/
def unpackedElems (c : Codec) (byteAt : Nat → Byte) (b n : Nat) : List Elem :=
  match c with
  | .fwp => extractAll byteAt b n
  | .forb => runSum byteAt b n
  | .mbp => unpackMiniBlocks byteAt b n

/-- The state after a pack of `n` elements that passes its checks and fits. -/
def packed (c : Codec) (n : Nat) (s : State) : State :=
  invalidate c
    (storePacked c (packedBytes c (srcPrefix n s) (s.widthOf c)) (packedLength c n (s.widthOf c)) s)

/-- `VALID` set when c = FOR. -/
def validate (c : Codec) (s : State) : State :=
  match c with
  | .fwp => s
  | .forb => { s with valid := true }
  | .mbp => s

/-- The state after an unpack of `n` elements that passes its checks. -/
def unpacked (c : Codec) (n : Nat) (s : State) : State :=
  validate c (storeDecoded c (unpackedElems c (s.cbufByte c) (s.widthOf c) n) s)

theorem exec_cfgOf (c : Codec) (b : Nat) (s : State) :
    exec (cfgOf c b) s =
      guarded (cfgCheck c b) (encode (cfgOf c b)) s (.next (invalidate c (configure c b s))) := by
  cases c <;> rfl

theorem exec_packOf (c : Codec) (n : Nat) (s : State) :
    exec (packOf c n) s = guarded (countCheck c n s) (encode (packOf c n)) s
      (if srcFits n (s.widthOf c) s then .next (packed c n s) else .refused .sourceOutOfRange) := by
  cases c <;> rfl

theorem exec_unpackOf (c : Codec) (n : Nat) (s : State) :
    exec (unpackOf c n) s = guarded (unpackCheck c n s) (encode (unpackOf c n)) s
      (.next (unpacked c n s)) := by
  cases c <;> rfl

theorem exec_atIndex (i : Nat) (s : State) :
    exec (.atIndex i) s = guarded (atCheck i s) (encode (.atIndex i)) s
      (.next { s with rdata := s.dbufElem .forb i }) := rfl

theorem exec_nop (s : State) : exec .nop s = .next s := rfl
theorem exec_srst (s : State) : exec .srst s = .next (resetRegs s) := rfl
theorem exec_clrerr (s : State) : exec .clrerr s = .next (clearError s) := rfl

theorem exec_cfgOf_completes (c : Codec) (b : Nat) (s : State) (h1 : 1 ≤ b) (h2 : b ≤ wmax c) :
    exec (cfgOf c b) s = .next (invalidate c (configure c b s)) := by
  rw [exec_cfgOf, (cfgCheck_pass_iff c b).mpr ⟨h1, h2⟩, guarded_pass]

theorem exec_packOf_completes (c : Codec) (n : Nat) (s : State) (h1 : CountOk c n s)
    (h2 : SrcBelow n (s.widthOf c) s) : exec (packOf c n) s = .next (packed c n s) := by
  rw [exec_packOf, (countCheck_pass_iff c n s).mpr h1, guarded_pass,
    if_pos ((srcFits_iff n _ s).mpr h2)]

theorem exec_packOf_refuses (c : Codec) (n : Nat) (s : State) (h1 : CountOk c n s)
    (h2 : ¬SrcBelow n (s.widthOf c) s) : exec (packOf c n) s = .refused .sourceOutOfRange := by
  rw [exec_packOf, (countCheck_pass_iff c n s).mpr h1, guarded_pass,
    if_neg (fun h => h2 ((srcFits_iff n _ s).mp h))]

theorem exec_unpackOf_completes (c : Codec) (n : Nat) (s : State) (h1 : CountOk c n s)
    (h2 : EnoughBytes c n s) : exec (unpackOf c n) s = .next (unpacked c n s) := by
  rw [exec_unpackOf, (unpackCheck_pass_iff c n s).mpr ⟨h1, h2⟩, guarded_pass]

theorem exec_atIndex_completes (i : Nat) (s : State) (h1 : s.forb.cfgd = true)
    (h2 : s.valid = true) (h3 : i < s.forb.dcnt.toNat) :
    exec (.atIndex i) s = .next { s with rdata := s.dbufElem .forb i } := by
  rw [exec_atIndex, (atCheck_pass_iff i s).mpr ⟨h1, h2, h3⟩, guarded_pass]

/-- Every instruction is of one of the shapes. -/
theorem instr_shape (i : Instr) :
    (∃ c b, i = cfgOf c b) ∨ (∃ c n, i = packOf c n) ∨ (∃ c n, i = unpackOf c n) ∨
      (∃ n, i = .atIndex n) ∨ i = .nop ∨ i = .srst ∨ i = .clrerr := by
  cases i with
  | nop => simp
  | cfgFwp b => exact .inl ⟨.fwp, b, rfl⟩
  | cfgFor b => exact .inl ⟨.forb, b, rfl⟩
  | cfgMbp b => exact .inl ⟨.mbp, b, rfl⟩
  | packFwp n => exact .inr (.inl ⟨.fwp, n, rfl⟩)
  | packFor n => exact .inr (.inl ⟨.forb, n, rfl⟩)
  | packMbp n => exact .inr (.inl ⟨.mbp, n, rfl⟩)
  | unpackFwp n => exact .inr (.inr (.inl ⟨.fwp, n, rfl⟩))
  | unpackFor n => exact .inr (.inr (.inl ⟨.forb, n, rfl⟩))
  | unpackMbp n => exact .inr (.inr (.inl ⟨.mbp, n, rfl⟩))
  | atIndex n => exact .inr (.inr (.inr (.inl ⟨n, rfl⟩)))
  | srst => simp
  | clrerr => simp

/-- Everything `exec` can do when it answers a next state. -/
theorem exec_next_cases {i : Instr} {s t : State} (h : exec i s = .next t) :
    (∃ k, t = rejectWith k (encode i) s) ∨
    (t = haltWith .granularityError (encode i) s) ∨
    (∃ c b, i = cfgOf c b ∧ 1 ≤ b ∧ b ≤ wmax c ∧ t = invalidate c (configure c b s)) ∨
    (∃ c n, i = packOf c n ∧ CountOk c n s ∧ SrcBelow n (s.widthOf c) s ∧ t = packed c n s) ∨
    (∃ c n, i = unpackOf c n ∧ CountOk c n s ∧ EnoughBytes c n s ∧ t = unpacked c n s) ∨
    (∃ n, i = .atIndex n ∧ s.forb.cfgd = true ∧ s.valid = true ∧ n < s.forb.dcnt.toNat ∧
      t = { s with rdata := s.dbufElem .forb n }) ∨
    (i = .nop ∧ t = s) ∨ (i = .srst ∧ t = resetRegs s) ∨ (i = .clrerr ∧ t = clearError s) := by
  rcases instr_shape i with ⟨c, b, rfl⟩ | ⟨c, n, rfl⟩ | ⟨c, n, rfl⟩ | ⟨n, rfl⟩ | rfl | rfl | rfl
  · rw [exec_cfgOf] at h
    rcases guarded_next h with ⟨hc, hb⟩ | ⟨k, -, ht⟩ | ⟨k, hc, ht⟩
    · have := (cfgCheck_pass_iff c b).mp hc
      simp only [Host.Outcome.next.injEq] at hb
      exact .inr (.inr (.inl ⟨c, b, rfl, this.1, this.2, hb.symm⟩))
    · exact .inl ⟨k, ht⟩
    · unfold cfgCheck at hc; split at hc <;> simp at hc
  · rw [exec_packOf] at h
    rcases guarded_next h with ⟨hc, hb⟩ | ⟨k, -, ht⟩ | ⟨k, hc, ht⟩
    · split at hb
      · rename_i hf
        simp only [Host.Outcome.next.injEq] at hb
        exact .inr (.inr (.inr (.inl ⟨c, n, rfl, (countCheck_pass_iff c n s).mp hc,
          (srcFits_iff n _ s).mp hf, hb.symm⟩)))
      · simp at hb
    · exact .inl ⟨k, ht⟩
    · rcases countCheck_cases c n s with h' | h' | h' | h' <;> rw [h'] at hc <;> simp at hc
      subst hc; exact .inr (.inl ht)
  · rw [exec_unpackOf] at h
    rcases guarded_next h with ⟨hc, hb⟩ | ⟨k, -, ht⟩ | ⟨k, hc, ht⟩
    · have := (unpackCheck_pass_iff c n s).mp hc
      simp only [Host.Outcome.next.injEq] at hb
      exact .inr (.inr (.inr (.inr (.inl ⟨c, n, rfl, this.1, this.2, hb.symm⟩))))
    · exact .inl ⟨k, ht⟩
    · rcases unpackCheck_cases c n s with ⟨k', h'⟩ | h' | h' <;> rw [h'] at hc <;> simp at hc
      subst hc; exact .inr (.inl ht)
  · rw [exec_atIndex] at h
    rcases guarded_next h with ⟨hc, hb⟩ | ⟨k, -, ht⟩ | ⟨k, hc, ht⟩
    · have := (atCheck_pass_iff n s).mp hc
      simp only [Host.Outcome.next.injEq] at hb
      exact .inr (.inr (.inr (.inr (.inr (.inl
        ⟨n, rfl, this.1, this.2.1, this.2.2, hb.symm⟩)))))
    · exact .inl ⟨k, ht⟩
    · rcases atCheck_cases n s with ⟨k', h'⟩ | h' <;> rw [h'] at hc <;> simp at hc
  · simp only [exec_nop, Host.Outcome.next.injEq] at h; simp [h]
  · simp only [exec_srst, Host.Outcome.next.injEq] at h; simp [h]
  · simp only [exec_clrerr, Host.Outcome.next.injEq] at h; simp [h]

end Sys2Proof.Machine
end

