-- ==== Sys2Proof/Laws/PerInstr.lean ====
section
/-! SUPPORT. A law of every instruction as syntax: the word of a well-formed instruction is an
instance of its row of the opcode table, `(w & mask) == match` (30_encoding.md rules R57, R59). -/

namespace Sys2Proof.Laws.EncodeRow

def Statement (i : Instr) : Prop := i.wf = true → i.row.matches (encode i) = true

theorem cfg_matches {op cs b : Nat} {p : Word} (hb : b < 2 ^ 6)
    (hp : p.toNat = op % 2 ^ 4 * 2 ^ 28 + cs % 2 ^ 2 * 2 ^ 26) :
    (commandWord op cs b &&& 0xFFFFFFC0 == p) = true := by
  rw [beq_iff_eq, mask6, and_highMask_eq_iff _ _ _ (by omega), commandWord_toNat]
  omega

theorem count_matches {op cs n : Nat} {p : Word}
    (hp : p.toNat = op % 2 ^ 4 * 2 ^ 28 + cs % 2 ^ 2 * 2 ^ 26) :
    (commandWord op cs n &&& 0xFC000000 == p) = true := by
  rw [beq_iff_eq, mask26, and_highMask_eq_iff _ _ _ (by omega), commandWord_toNat]
  omega

theorem nop : Statement .nop := fun _ => by decide
theorem cfgFwp (b : Nat) : Statement (.cfgFwp b) := fun h => cfg_matches (of_decide_eq_true h) rfl
theorem cfgFor (b : Nat) : Statement (.cfgFor b) := fun h => cfg_matches (of_decide_eq_true h) rfl
theorem cfgMbp (b : Nat) : Statement (.cfgMbp b) := fun h => cfg_matches (of_decide_eq_true h) rfl
theorem packFwp (n : Nat) : Statement (.packFwp n) := fun _ => count_matches rfl
theorem packFor (n : Nat) : Statement (.packFor n) := fun _ => count_matches rfl
theorem packMbp (n : Nat) : Statement (.packMbp n) := fun _ => count_matches rfl
theorem unpackFwp (n : Nat) : Statement (.unpackFwp n) := fun _ => count_matches rfl
theorem unpackFor (n : Nat) : Statement (.unpackFor n) := fun _ => count_matches rfl
theorem unpackMbp (n : Nat) : Statement (.unpackMbp n) := fun _ => count_matches rfl
theorem atIndex (i : Nat) : Statement (.atIndex i) := fun _ => count_matches rfl
theorem srst : Statement .srst := fun _ => by decide
theorem clrerr : Statement .clrerr := fun _ => by decide

end Sys2Proof.Laws.EncodeRow
end

