-- ==== Sys2Proof/Laws/Step.lean ====
section
/-! SUPPORT. What a pack and an unpack leave field by field, and what a step does for each head of
the script; later proofs about `step` cite these. -/

namespace Sys2Proof.Machine

/-! ### `packed`, field by field -/

section
variable (c : Codec) (n : Nat) (s : State)
@[simp] theorem packed_src : (packed c n s).src = s.src := by simp [packed]
@[simp] theorem packed_err : (packed c n s).err = s.err := by simp [packed]
@[simp] theorem packed_ecause : (packed c n s).ecause = s.ecause := by simp [packed]
@[simp] theorem packed_einfo : (packed c n s).einfo = s.einfo := by simp [packed]
@[simp] theorem packed_halt : (packed c n s).halt = s.halt := by simp [packed]
@[simp] theorem packed_fcause : (packed c n s).fcause = s.fcause := by simp [packed]
@[simp] theorem packed_finfo : (packed c n s).finfo = s.finfo := by simp [packed]
@[simp] theorem packed_rdata : (packed c n s).rdata = s.rdata := by simp [packed]
@[simp] theorem packed_params : (packed c n s).params = s.params := by simp [packed]
@[simp] theorem packed_script : (packed c n s).script = s.script := by simp [packed]
@[simp] theorem packed_resp : (packed c n s).resp = s.resp := by simp [packed]
theorem packed_valid :
    (packed c n s).valid = if c = .forb then false else s.valid := by
  simp [packed, invalidate_valid]
@[simp] theorem packed_engine : (packed c n s).engine c =
    { s.engine c with
      cbuf := (s.engine c).cbuf.setPrefix (packedBytes c (srcPrefix n s) (s.widthOf c)),
      clen := BitVec.ofNat 32 (packedLength c n (s.widthOf c)) } := by simp [packed]
@[simp] theorem packed_engine_ne (d : Codec) (h : d ≠ c) :
    (packed c n s).engine d = s.engine d := by simp [packed, h]
@[simp] theorem packed_srcElem (i : Nat) : (packed c n s).srcElem i = s.srcElem i := by
  simp [State.srcElem]
@[simp] theorem packed_widthOf (d : Codec) : (packed c n s).widthOf d = s.widthOf d := by
  simp [packed]
@[simp] theorem packed_dbufElem (d : Codec) (i : Nat) :
    (packed c n s).dbufElem d i = s.dbufElem d i := by simp [packed]
theorem packed_cbufByte (a : Nat) : (packed c n s).cbufByte c a =
    if a < (packedBytes c (srcPrefix n s) (s.widthOf c)).length then
      (packedBytes c (srcPrefix n s) (s.widthOf c)).getD a 0
    else s.cbufByte c a := by simp only [packed, invalidate_cbufByte, storePacked_cbufByte]
end

/-! ### `unpacked`, field by field -/

section
variable (c : Codec) (n : Nat) (s : State)
@[simp] theorem unpacked_src : (unpacked c n s).src = s.src := by
  cases c <;> simp [unpacked, validate]
@[simp] theorem unpacked_err : (unpacked c n s).err = s.err := by
  cases c <;> simp [unpacked, validate]
@[simp] theorem unpacked_ecause : (unpacked c n s).ecause = s.ecause := by
  cases c <;> simp [unpacked, validate]
@[simp] theorem unpacked_einfo : (unpacked c n s).einfo = s.einfo := by
  cases c <;> simp [unpacked, validate]
@[simp] theorem unpacked_halt : (unpacked c n s).halt = s.halt := by
  cases c <;> simp [unpacked, validate]
@[simp] theorem unpacked_fcause : (unpacked c n s).fcause = s.fcause := by
  cases c <;> simp [unpacked, validate]
@[simp] theorem unpacked_finfo : (unpacked c n s).finfo = s.finfo := by
  cases c <;> simp [unpacked, validate]
@[simp] theorem unpacked_rdata : (unpacked c n s).rdata = s.rdata := by
  cases c <;> simp [unpacked, validate]
@[simp] theorem unpacked_params : (unpacked c n s).params = s.params := by
  cases c <;> simp [unpacked, validate]
@[simp] theorem unpacked_script : (unpacked c n s).script = s.script := by
  cases c <;> simp [unpacked, validate]
@[simp] theorem unpacked_resp : (unpacked c n s).resp = s.resp := by
  cases c <;> simp [unpacked, validate]
theorem unpacked_valid : (unpacked c n s).valid = if c = .forb then true else s.valid := by
  cases c <;> simp [unpacked, validate]
theorem validate_engine (d : Codec) : (validate c s).engine d = s.engine d := by
  cases c <;> cases d <;> rfl
@[simp] theorem unpacked_engine : (unpacked c n s).engine c =
    { s.engine c with
      dbuf := (s.engine c).dbuf.setPrefix (unpackedElems c (s.cbufByte c) (s.widthOf c) n),
      dcnt := BitVec.ofNat 32 (unpackedElems c (s.cbufByte c) (s.widthOf c) n).length } := by
  simp [unpacked, validate_engine]
@[simp] theorem unpacked_engine_ne (d : Codec) (h : d ≠ c) :
    (unpacked c n s).engine d = s.engine d := by simp [unpacked, validate_engine, h]
@[simp] theorem unpacked_srcElem (i : Nat) : (unpacked c n s).srcElem i = s.srcElem i := by
  simp [State.srcElem]
@[simp] theorem unpacked_widthOf (d : Codec) : (unpacked c n s).widthOf d = s.widthOf d := by
  by_cases h : d = c
  · subst h; simp [State.widthOf]
  · simp [State.widthOf, h]
@[simp] theorem unpacked_cbufByte (d : Codec) (a : Nat) :
    (unpacked c n s).cbufByte d a = s.cbufByte d a := by
  by_cases h : d = c
  · subst h; simp [State.cbufByte]
  · simp [State.cbufByte, h]
theorem unpacked_dbufElem (i : Nat) : (unpacked c n s).dbufElem c i =
    if i < (unpackedElems c (s.cbufByte c) (s.widthOf c) n).length then
      (unpackedElems c (s.cbufByte c) (s.widthOf c) n).getD i 0
    else s.dbufElem c i := by
  have := storeDecoded_dbufElem c (unpackedElems c (s.cbufByte c) (s.widthOf c) n) s i
  simp only [State.dbufElem, unpacked, validate_engine] at this ⊢
  exact this
theorem unpacked_dbufElem_ne (d : Codec) (i : Nat) (h : d ≠ c) :
    (unpacked c n s).dbufElem d i = s.dbufElem d i := by simp [State.dbufElem, h]
end

/-- An engine whose record is unchanged reads as before. -/
theorem sameEngine_of_engine_eq {d : Codec} {s t : State} (h : t.engine d = s.engine d) :
    SameEngine d s t := by
  refine ⟨?_, fun a => ?_, fun i => ?_⟩
  · simp [SameRegs, h]
  · simp [State.cbufByte, h]
  · simp [State.dbufElem, h]

/-! ### What is stored -/

/-- Every count a command accepts is a whole number of mini-blocks when c = MBP. -/
theorem CountOk.miniBlocks {c : Codec} {n : Nat} {s : State} (h : CountOk c n s) :
    c = .mbp → n % mbsz = 0 := by
  rintro rfl
  have := h.2.2
  simp only [granularity, mbsz] at this ⊢
  omega

theorem CountOk.lt {c : Codec} {n : Nat} {s : State} (h : CountOk c n s) : n < 2 ^ 26 :=
  lt_of_le_of_lt h.2.1 (nMax_lt s.params)

theorem packedBytes_eq (c : Codec) (vals : List Word) (b : Nat)
    (h : c = .mbp → vals.length % mbsz = 0) : packedBytes c vals b = packBits vals b := by
  cases c with
  | fwp => rfl
  | forb => rfl
  | mbp => exact packMiniBlocks_eq_packBits vals b (h rfl)

theorem unpackedElems_length (c : Codec) (byteAt : Nat → Byte) (b n : Nat)
    (h : c = .mbp → n % mbsz = 0) : (unpackedElems c byteAt b n).length = n := by
  cases c with
  | fwp => simp [unpackedElems]
  | forb => simp [unpackedElems]
  | mbp =>
    have := h rfl
    simp only [unpackedElems, unpackMiniBlocks_length, mbsz] at this ⊢
    omega

/-- The elements an unpack of FWP or MBP stores. -/
theorem unpackedElems_getD (c : Codec) (byteAt : Nat → Byte) (b n i : Nat) (hc : c ≠ .forb)
    (h : c = .mbp → n % mbsz = 0) (hi : i < n) :
    (unpackedElems c byteAt b n).getD i 0 = BitVec.ofNat 64 (extract byteAt b i) := by
  cases c with
  | fwp => exact extractAll_getD byteAt b n i hi
  | forb => exact absurd rfl hc
  | mbp =>
    have := h rfl
    simp only [unpackedElems, unpackMiniBlocks_eq]
    exact extractAll_getD _ _ _ _ (by simp only [mbsz] at this ⊢; omega)

theorem unpackedElems_forb_getD (byteAt : Nat → Byte) (b n i : Nat) (hi : i < n) :
    (unpackedElems .forb byteAt b n).getD i 0 =
      BitVec.ofNat 64 (extractSum byteAt b (i + 1)) := runSum_getD byteAt b n i hi

theorem widthOf_lt (s : State) (c : Codec) : s.widthOf c < 64 := (s.engine c).width.isLt

/-- A packed length fits its register. -/
theorem packedLength_toNat (c : Codec) (n b : Nat) (hn : n < 2 ^ 26) (hb : b < 64) :
    (BitVec.ofNat 32 (packedLength c n b)).toNat = packedLength c n b := by
  have h : b * n ≤ 63 * n := Nat.mul_le_mul_right _ (by omega)
  rw [BitVec.toNat_ofNat, Nat.mod_eq_of_lt]
  cases c <;> simp only [packedLength, ceilDiv8_eq] <;> omega

/-- Rule R71 in the buffer: bit k of the packed bytes. -/
theorem bitOf_packed (c : Codec) (n k : Nat) (s : State) (h : c = .mbp → n % mbsz = 0)
    (hk : k < 8 * ceilDiv8 (s.widthOf c * n)) :
    bitOf ((packed c n s).cbufByte c) k = packedBit (srcPrefix n s) (s.widthOf c) k := by
  have e := packedBytes_eq c (srcPrefix n s) (s.widthOf c) (by simpa using h)
  have hl : k >>> 3 < (packedBytes c (srcPrefix n s) (s.widthOf c)).length := by
    rw [e, packBits_length, srcPrefix_length, Nat.shiftRight_eq_div_pow]; omega
  rw [← bitOf_packBits, bitOf, bitOf, packed_cbufByte, if_pos hl, e]

/-! ### A step, by the head of the script -/

@[simp] theorem answer_popScript (r : Response) (s : State) :
    answer r (popScript s) = afterHead r s := rfl

section
variable {s : State} {rest : List Transaction}

theorem step_nil (h : s.script = []) : step s = .next s := by
  simp [step, stepBlock, h]

theorem step_cons {x : Transaction} (h : s.script = x :: rest) :
    step s = perform x (popScript s) := by
  simp [step, stepBlock, h]

theorem regAt?_of_bad {off size : Nat} (h : size ≠ 4 ∨ off % 4 ≠ 0 ∨ 0x0C0 ≤ off) :
    regAt? off size = none := by rw [regAt?, if_pos h]

theorem regAt?_of_good {off : Nat} (h1 : off % 4 = 0) (h2 : off < 0x0C0) :
    regAt? off 4 = some ((regMap.lookup off).getD .reserved) := by
  have : ¬(4 ≠ 4 ∨ off % 4 ≠ 0 ∨ 0x0C0 ≤ off) := by omega
  rw [regAt?, if_neg this]

theorem step_regRead {off size : Nat} (h : s.script = .regRead off size :: rest) :
    step s = match regAt? off size with
      | some r => .next (afterHead (.word (readReg r (popScript s))) s)
      | none => .next (afterHead .error s) := by
  rw [step_cons h, perform, regRead]
  cases regAt? off size <;> rfl

theorem step_regWrite {off size : Nat} {d : Word} (h : s.script = .regWrite off size d :: rest) :
    step s = match regAt? off size with
      | some r => writeReg r d (afterHead .okay s)
      | none => .next (afterHead .error s) := by
  rw [step_cons h, perform, regWrite]
  cases regAt? off size <;> rfl

theorem step_cmd {w : Word} (h : s.script = .regWrite 0x004 4 w :: rest) :
    step s = writeCmd w (afterHead .okay s) := by
  rw [step_regWrite h]; rfl

theorem step_ctrl {d : Word} (h : s.script = .regWrite 0x01C 4 d :: rest) :
    step s = writeCtrl d (afterHead .okay s) := by
  rw [step_regWrite h]; rfl

theorem step_clen {c : Codec} {v : Word}
    (h : s.script = .regWrite (0x048 + 0x20 * codecIndex c) 4 v :: rest) :
    step s = .next (writeClen c v (afterHead .okay s)) := by
  rw [step_regWrite h]; cases c <;> rfl

theorem step_srcRead {i : Nat} (h : s.script = .srcRead i :: rest) :
    step s = if i < s.params.nMax then .next (afterHead (.word (s.srcElem i)) s)
      else .next (afterHead .error s) := by
  rw [step_cons h]; rfl

theorem step_srcWrite {i : Nat} {v : Word} (h : s.script = .srcWrite i v :: rest) :
    step s = if i < s.params.nMax then .next (writeSrc i v (afterHead .okay s))
      else .next (afterHead .error s) := by
  rw [step_cons h]; rfl

theorem step_cbufRead {c : Codec} {a : Nat} (h : s.script = .cbufRead (codecIndex c) a :: rest) :
    step s = if a < ccap s.params c then .next (afterHead (.byte (s.cbufByte c a)) s)
      else .next (afterHead .error s) := by
  rw [step_cons h]; cases c <;> rfl

theorem step_cbufWrite {c : Codec} {a : Nat} {b : Byte}
    (h : s.script = .cbufWrite (codecIndex c) a b :: rest) :
    step s = if a < ccap s.params c then .next (writeCbuf c a b (afterHead .okay s))
      else .next (afterHead .error s) := by
  rw [step_cons h]; cases c <;> rfl

theorem step_dbufRead {c : Codec} {i : Nat} (h : s.script = .dbufRead (codecIndex c) i :: rest) :
    step s = if i < s.params.nMax then .next (afterHead (.elem (s.dbufElem c i)) s)
      else .next (afterHead .error s) := by
  rw [step_cons h]; cases c <;> rfl

theorem step_hardReset (h : s.script = .hardReset :: rest) :
    step s = .next (resetRegs (afterHead .okay s)) := by
  rw [step_cons h]; rfl
end

/-- A write to `CMD` while an error is pending does nothing. -/
theorem writeCmd_dropped {w : Word} {s : State} (h : s.halt = true ∨ s.err = true) :
    writeCmd w s = .next s := by
  unfold writeCmd
  by_cases h1 : s.halt = true
  · simp [h1]
  · have h2 : s.err = true := by tauto
    simp [h1, h2]

/-- A write to `CMD` in the Ready state. -/
theorem writeCmd_ready {w : Word} {s : State} (h : Ready s) :
    writeCmd w s = match decodeCmd w with
      | .instr i => exec i s
      | .illegal k => .next (rejectWith k w s) := by
  simp only [writeCmd, h.1, h.2]
  rfl

/-! ### `afterHead`, field by field -/

section
variable (r : Response) (s : State)
@[simp] theorem afterHead_src : (afterHead r s).src = s.src := rfl
@[simp] theorem afterHead_fwp : (afterHead r s).fwp = s.fwp := rfl
@[simp] theorem afterHead_forb : (afterHead r s).forb = s.forb := rfl
@[simp] theorem afterHead_mbp : (afterHead r s).mbp = s.mbp := rfl
@[simp] theorem afterHead_valid : (afterHead r s).valid = s.valid := rfl
@[simp] theorem afterHead_err : (afterHead r s).err = s.err := rfl
@[simp] theorem afterHead_ecause : (afterHead r s).ecause = s.ecause := rfl
@[simp] theorem afterHead_einfo : (afterHead r s).einfo = s.einfo := rfl
@[simp] theorem afterHead_halt : (afterHead r s).halt = s.halt := rfl
@[simp] theorem afterHead_fcause : (afterHead r s).fcause = s.fcause := rfl
@[simp] theorem afterHead_finfo : (afterHead r s).finfo = s.finfo := rfl
@[simp] theorem afterHead_rdata : (afterHead r s).rdata = s.rdata := rfl
@[simp] theorem afterHead_params : (afterHead r s).params = s.params := rfl
@[simp] theorem afterHead_script : (afterHead r s).script = s.script.tail := rfl
@[simp] theorem afterHead_resp : (afterHead r s).resp = r := rfl
@[simp] theorem afterHead_engine (c : Codec) : (afterHead r s).engine c = s.engine c := by
  cases c <;> rfl
@[simp] theorem afterHead_srcElem (i : Nat) : (afterHead r s).srcElem i = s.srcElem i := rfl
@[simp] theorem afterHead_cbufByte (c : Codec) (a : Nat) :
    (afterHead r s).cbufByte c a = s.cbufByte c a := by cases c <;> rfl
@[simp] theorem afterHead_dbufElem (c : Codec) (i : Nat) :
    (afterHead r s).dbufElem c i = s.dbufElem c i := by cases c <;> rfl
@[simp] theorem afterHead_widthOf (c : Codec) : (afterHead r s).widthOf c = s.widthOf c := by
  cases c <;> rfl
end

/-! ### Checks do not see the script or the answer -/

@[simp] theorem countCheck_afterHead (r : Response) (c : Codec) (n : Nat) (s : State) :
    countCheck c n (afterHead r s) = countCheck c n s :=
  countCheck_congr c n (afterHead_engine r s c) rfl

@[simp] theorem unpackCheck_afterHead (r : Response) (c : Codec) (n : Nat) (s : State) :
    unpackCheck c n (afterHead r s) = unpackCheck c n s :=
  unpackCheck_congr c n (afterHead_engine r s c) rfl

@[simp] theorem atCheck_afterHead (r : Response) (i : Nat) (s : State) :
    atCheck i (afterHead r s) = atCheck i s := rfl

/-! ### Where the registers that can be written are -/

theorem regAt?_inv {off size : Nat} {r : Reg} (h : regAt? off size = some r) :
    size = 4 ∧ off < 0x0C0 ∧ (regMap.lookup off).getD .reserved = r := by
  unfold regAt? at h
  split at h
  · simp at h
  · simp only [Option.some.injEq] at h
    exact ⟨by omega, by omega, h⟩

/-- A register other than `reserved` stands in the map of rule R27 under its offset. -/
theorem mem_regMap {off : Nat} {r : Reg} (h : (regMap.lookup off).getD .reserved = r)
    (hr : r ≠ .reserved) : (off, r) ∈ regMap := by
  cases hl : regMap.lookup off with
  | none => simp only [hl, Option.getD_none] at h; exact absurd h.symm hr
  | some x =>
    simp only [hl, Option.getD_some] at h
    subst h
    obtain ⟨l₁, l₂, e, -⟩ := List.lookup_eq_some_iff.mp hl
    rw [e]; simp

theorem off_of_cmd {off : Nat} (h : (regMap.lookup off).getD .reserved = .cmd) : off = 0x004 := by
  have := mem_regMap h (by simp)
  simpa [regMap] using this

theorem off_of_ctrl {off : Nat} (h : (regMap.lookup off).getD .reserved = .ctrl) :
    off = 0x01C := by
  have := mem_regMap h (by simp)
  simpa [regMap] using this

theorem off_of_clen {off : Nat} {c : Codec} (h : (regMap.lookup off).getD .reserved = .clen c) :
    off = 0x048 + 0x20 * codecIndex c := by
  have := mem_regMap h (by simp)
  cases c <;> simpa [regMap, codecIndex] using this

/-- What a register reads as does not depend on the script. -/
theorem readReg_popScript (r : Reg) (s : State) : readReg r (popScript s) = readReg r s := by
  cases r with
  | cstat c => cases c <;> rfl
  | clen c => cases c <;> rfl
  | dcnt c => cases c <;> rfl
  | _ => rfl

theorem codecOfNat?_inv {k : Nat} {c : Codec} (h : codecOfNat? k = some c) : k = codecIndex c := by
  unfold codecOfNat? at h
  split at h <;> simp only [Option.some.injEq, reduceCtorEq] at h <;> subst h <;> rfl

@[simp] theorem codecOfNat?_codecIndex (c : Codec) : codecOfNat? (codecIndex c) = some c := by
  cases c <;> rfl

/-- A register whose write has no effect is none of the three that bear on `VALID`. -/
theorem validEvent_of_plain {s : State} {rest : List Transaction} {off : Nat} {d : Word} {r : Reg}
    (hs : s.script = .regWrite off 4 d :: rest) (h : (regMap.lookup off).getD .reserved = r)
    (h1 : r ≠ .cmd) (h2 : r ≠ .ctrl) (h3 : ∀ c, r ≠ .clen c) : validEvent s = none := by
  have a1 : off ≠ 0x068 := by rintro rfl; exact h3 .forb h.symm
  have a2 : off ≠ 0x01C := by rintro rfl; exact h2 h.symm
  have a3 : off ≠ 0x004 := by rintro rfl; exact h1 h.symm
  simp [validEvent, hs, a1, a2, a3]

/-- Everything a step can do when it answers a next state: nothing is pending; the transaction
changes nothing but the answer, and is no event of `VALID`; a command is accepted and runs, or its word is illegal; a `CTRL`
write runs; a host write; a hard reset. -/
theorem step_next_cases {s t : State} (h : step s = .next t) :
    (s.script = [] ∧ t = s) ∨
    (∃ r, t = afterHead r s ∧ validEvent s = none) ∨
    (∃ w rest i, s.script = .regWrite 0x004 4 w :: rest ∧ Ready s ∧ decodeCmd w = .instr i ∧
      exec i (afterHead .okay s) = .next t) ∨
    (∃ w rest k, s.script = .regWrite 0x004 4 w :: rest ∧ Ready s ∧ decodeCmd w = .illegal k ∧
      t = rejectWith k w (afterHead .okay s)) ∨
    (∃ d rest i, s.script = .regWrite 0x01C 4 d :: rest ∧ decodeCtrl d = some i ∧
      exec i (afterHead .okay s) = .next t) ∨
    (∃ c v rest, s.script = .regWrite (0x048 + 0x20 * codecIndex c) 4 v :: rest ∧
      t = writeClen c v (afterHead .okay s)) ∨
    (∃ i v rest, s.script = .srcWrite i v :: rest ∧ i < s.params.nMax ∧
      t = writeSrc i v (afterHead .okay s)) ∨
    (∃ c a b rest, s.script = .cbufWrite (codecIndex c) a b :: rest ∧ a < ccap s.params c ∧
      t = writeCbuf c a b (afterHead .okay s)) ∨
    (∃ rest, s.script = .hardReset :: rest ∧ t = resetRegs (afterHead .okay s)) := by
  cases hs : s.script with
  | nil =>
    rw [step_nil hs, Host.Outcome.next.injEq] at h
    exact .inl ⟨rfl, h.symm⟩
  | cons x rest =>
    right
    rw [step_cons hs] at h
    cases x with
    | regRead off size =>
      have hv : validEvent s = none := by simp [validEvent, hs]
      simp only [perform, regRead, answerError] at h
      split at h <;> rw [Host.Outcome.next.injEq, answer_popScript] at h <;>
        exact .inl ⟨_, h.symm, hv⟩
    | regWrite off size d =>
      rw [← step_cons hs, step_regWrite hs] at h
      cases hr : regAt? off size with
      | none =>
        have hv : validEvent s = none := by
          have hb : size ≠ 4 ∨ off % 4 ≠ 0 ∨ 0x0C0 ≤ off := by
            by_contra hc
            rw [regAt?, if_neg hc] at hr
            cases hr
          have a : size ≠ 4 ∨ (off ≠ 0x068 ∧ off ≠ 0x01C ∧ off ≠ 0x004) := by omega
          rcases a with a | ⟨a1, a2, a3⟩
          · simp [validEvent, hs, a]
          · simp [validEvent, hs, a1, a2, a3]
        simp only [hr, Host.Outcome.next.injEq] at h
        exact .inl ⟨_, h.symm, hv⟩
      | some r =>
        obtain ⟨rfl, -, hl⟩ := regAt?_inv hr
        simp only [hr] at h
        cases r with
        | cmd =>
          obtain rfl := off_of_cmd hl
          simp only [writeReg] at h
          by_cases hd : s.halt = true ∨ s.err = true
          · have hv : validEvent s = none := by simp [validEvent, hs, hd]
            rw [writeCmd_dropped (by simpa using hd), Host.Outcome.next.injEq] at h
            exact .inl ⟨_, h.symm, hv⟩
          · have hR : Ready s := by
              constructor <;> simp_all
            have hR' : Ready (afterHead .okay s) := hR
            rw [writeCmd_ready hR'] at h
            cases hdec : decodeCmd d with
            | instr i =>
              simp only [hdec] at h
              exact .inr (.inl ⟨d, rest, i, rfl, hR, hdec, h⟩)
            | illegal k =>
              simp only [hdec, Host.Outcome.next.injEq] at h
              exact .inr (.inr (.inl ⟨d, rest, k, rfl, hR, hdec, h.symm⟩))
        | ctrl =>
          obtain rfl := off_of_ctrl hl
          simp only [writeReg, writeCtrl] at h
          cases hdec : decodeCtrl d with
          | some i =>
            simp only [hdec] at h
            exact .inr (.inr (.inr (.inl ⟨d, rest, i, rfl, hdec, h⟩)))
          | none =>
            simp only [hdec, Host.Outcome.next.injEq] at h
            exact .inl ⟨_, h.symm, by simp [validEvent, hs, hdec]⟩
        | clen c =>
          obtain rfl := off_of_clen hl
          simp only [writeReg, Host.Outcome.next.injEq] at h
          exact .inr (.inr (.inr (.inr (.inl ⟨c, d, rest, rfl, h.symm⟩))))
        | _ =>
          simp only [writeReg, Host.Outcome.next.injEq] at h
          exact .inl ⟨_, h.symm, validEvent_of_plain hs hl (by simp) (by simp) (by simp)⟩
    | srcRead i =>
      have hv : validEvent s = none := by simp [validEvent, hs]
      simp only [perform, srcRead, answerError] at h
      split at h <;> rw [Host.Outcome.next.injEq, answer_popScript] at h <;>
        exact .inl ⟨_, h.symm, hv⟩
    | srcWrite i v =>
      simp only [perform, srcWrite, answerError] at h
      split at h <;> rw [Host.Outcome.next.injEq] at h
      · rename_i hi
        exact .inr (.inr (.inr (.inr (.inr (.inl ⟨i, v, rest, rfl, hi, h.symm⟩)))))
      · exact .inl ⟨_, h.symm, by simp [validEvent, hs]⟩
    | cbufRead c a =>
      have hv : validEvent s = none := by simp [validEvent, hs]
      simp only [perform, cbufRead, answerError] at h
      split at h
      · split at h <;> rw [Host.Outcome.next.injEq, answer_popScript] at h <;>
          exact .inl ⟨_, h.symm, hv⟩
      · rw [Host.Outcome.next.injEq, answer_popScript] at h
        exact .inl ⟨_, h.symm, hv⟩
    | cbufWrite c a b =>
      simp only [perform, cbufWrite, answerError] at h
      split at h
      · rename_i e hc
        obtain rfl := codecOfNat?_inv hc
        split at h <;> rw [Host.Outcome.next.injEq] at h
        · rename_i ha
          refine .inr (.inr (.inr (.inr (.inr (.inr (.inl ⟨e, a, b, rest, rfl, ha, ?_⟩))))))
          rw [← h]; cases e <;> rfl
        · rename_i ha
          refine .inl ⟨_, h.symm, ?_⟩
          cases e with
          | fwp => simp [validEvent, hs, codecIndex]
          | forb => simpa [validEvent, hs, codecIndex] using ha
          | mbp => simp [validEvent, hs, codecIndex]
      · rename_i hc
        rw [Host.Outcome.next.injEq, answer_popScript] at h
        refine .inl ⟨_, h.symm, ?_⟩
        have : c ≠ 1 := by rintro rfl; cases hc
        simp [validEvent, hs, this]
    | dbufRead c i =>
      have hv : validEvent s = none := by simp [validEvent, hs]
      simp only [perform, dbufRead, answerError] at h
      split at h
      · split at h <;> rw [Host.Outcome.next.injEq, answer_popScript] at h <;>
          exact .inl ⟨_, h.symm, hv⟩
      · rw [Host.Outcome.next.injEq, answer_popScript] at h
        exact .inl ⟨_, h.symm, hv⟩
    | hardReset =>
      simp only [perform, hardReset, Host.Outcome.next.injEq] at h
      exact .inr (.inr (.inr (.inr (.inr (.inr (.inr ⟨rest, rfl, h.symm⟩))))))

end Sys2Proof.Machine
end

