-- ==== Sys2Proof/Tests/Slice0.lean ====
section
/-! SUPPORT. The model's own tests: the smoke test of `WellFormed`, words written out from
30_encoding.md, one-step vectors of 95_test_vectors.md (expected values from there), and for every
obligation with hypotheses a witness that meets them. -/

open Sys2Proof Sys2Proof.Machine

namespace Sys2Proof.Tests

/-! ### Helpers -/

/-- What a next state is asked; `false` where there is none. -/
def tells (o : Host.Outcome State Fault Refusal) (p : State → Bool) : Bool :=
  match o with
  | .next t => p t
  | .fault _ => false
  | .refused _ => false

/-- Whether an outcome is the refusal of an unfit source. -/
def isUnfit (o : Host.Outcome State Fault Refusal) : Bool :=
  match o with
  | .next _ => false
  | .fault _ => false
  | .refused .sourceOutOfRange => true
  | .refused (_) => false

/-- The state after reset with source elements written. -/
def withSrc (vals : List Word) : State := { State.reset with src := Memory.block 0 vals }

/-- The state after reset with one engine constructed at width `b`. -/
def withEngine (c : Codec) (b : BitVec 6) (s : State) : State :=
  s.setEngine c { s.engine c with width := b, cfgd := true }

/-- Bytes and a length the host wrote to an engine. -/
def withBytes (c : Codec) (bytes : List Byte) (s : State) : State :=
  s.setEngine c
    { s.engine c with cbuf := Memory.block 0 bytes, clen := BitVec.ofNat 32 bytes.length }

/-- A pending transaction. -/
def pend (x : Transaction) (s : State) : State := { s with script := [x] }

/-- Compare bytes of a compressed buffer from place 0. -/
def bytesAre (c : Codec) (bytes : List Byte) (s : State) : Bool :=
  (s.engine c).cbuf.take bytes.length == Memory.block 0 bytes

/-- The decoded elements of an engine, from place 0. -/
def elemsAre (c : Codec) (vals : List Elem) (s : State) : Bool :=
  (s.engine c).dbuf == Memory.block 0 vals

/-! ### Well-formedness: an ill-formed term for each check -/

theorem test_wf_cfg_refused :
    (Instr.cfgFwp 64).wf = false ∧ (Instr.cfgFor 64).wf = false ∧ (Instr.cfgMbp 64).wf = false := by
  decide

theorem test_wf_count_refused :
    (Instr.packFwp 67108864).wf = false ∧ (Instr.packFor 67108864).wf = false ∧
      (Instr.packMbp 67108864).wf = false ∧ (Instr.unpackFwp 67108864).wf = false ∧
      (Instr.unpackFor 67108864).wf = false ∧ (Instr.unpackMbp 67108864).wf = false ∧
      (Instr.atIndex 67108864).wf = false := by decide

theorem test_wf_largest_accepted :
    (Instr.cfgFwp 63).wf = true ∧ (Instr.packFwp 67108863).wf = true ∧
      (Instr.atIndex 67108863).wf = true ∧ Instr.nop.wf = true ∧ Instr.srst.wf = true := by decide

/-! ### Decoding, words written out from rules R53, R57, R59 and 95_test_vectors.md -/

theorem test_decode_nop : decodeCmd 0b0000_00_00000000000000000000000000 = .instr .nop := by decide
theorem test_decode_cfgFwp :
    decodeCmd 0b0001_00_00000000000000000000000100 = .instr (.cfgFwp 4) := by decide
theorem test_decode_cfgFor :
    decodeCmd 0b0001_01_00000000000000000000111000 = .instr (.cfgFor 56) := by decide
theorem test_decode_cfgMbp :
    decodeCmd 0b0001_10_00000000000000000000100000 = .instr (.cfgMbp 32) := by decide
theorem test_decode_packFwp :
    decodeCmd 0b0010_00_00000000000000000000010000 = .instr (.packFwp 16) := by decide
theorem test_decode_packFor :
    decodeCmd 0b0010_01_00000000000000000000001000 = .instr (.packFor 8) := by decide
theorem test_decode_packMbp :
    decodeCmd 0b0010_10_00000000000000000000110000 = .instr (.packMbp 48) := by decide
theorem test_decode_unpackFwp :
    decodeCmd 0b0011_00_00000000000000000000011000 = .instr (.unpackFwp 24) := by decide
theorem test_decode_unpackFor :
    decodeCmd 0b0011_01_00000000000000000100001000 = .instr (.unpackFor 264) := by decide
theorem test_decode_unpackMbp :
    decodeCmd 0b0011_10_00000000000000000001000000 = .instr (.unpackMbp 64) := by decide
theorem test_decode_at :
    decodeCmd 0b0100_01_00000000000000000000000111 = .instr (.atIndex 7) := by decide
theorem test_decode_ctrl :
    decodeCtrl 1 = some .srst ∧ decodeCtrl 3 = some .srst ∧ decodeCtrl 2 = some .clrerr ∧
      decodeCtrl 0 = none ∧ decodeCtrl 4 = none ∧ decodeCtrl 0x80000001 = none := by decide

/-- The illegal words of V1, V16, V17 and V18. -/
theorem test_decode_illegal :
    decodeCmd 0x10000044 = .illegal .illegalCommand ∧
      decodeCmd 0x1C000004 = .illegal .unknownCodecSelector ∧
      decodeCmd 0x1C000044 = .illegal .unknownCodecSelector ∧
      decodeCmd 0x00000001 = .illegal .illegalCommand ∧
      decodeCmd 0x2C000010 = .illegal .unknownCodecSelector ∧
      decodeCmd 0x4C000000 = .illegal .unknownCodecSelector ∧
      decodeCmd 0x50000000 = .illegal .illegalCommand ∧
      decodeCmd 0x5C000000 = .illegal .illegalCommand ∧
      decodeCmd 0x40000000 = .illegal .illegalCommand ∧
      decodeCmd 0x48000000 = .illegal .illegalCommand := by decide

theorem test_decodeTableWord :
    decodeTableWord 32 0x1000000D = some (.cfgFwp 13) ∧ decodeTableWord 32 1 = some .srst ∧
      decodeTableWord 32 2 = some .clrerr ∧ decodeTableWord 32 0 = some .nop ∧
      decodeTableWord 32 0x50000000 = none := by decide

/-- No two rows of the opcode table overlap on the bits both masks fix. -/
theorem test_rows_disjoint :
    (commandTable ++ controlTable).Pairwise fun r r' =>
      r.pattern &&& r'.mask ≠ r'.pattern &&& r.mask := by decide

/-! ### One step each, values of 95_test_vectors.md -/

/-- V1: `cfg.fwp 56` from reset, and `cfg.fwp 57`. -/
theorem test_cfgFwp :
    tells (exec (.cfgFwp 56) State.reset) (fun t => cstatWord .fwp t == 0x00000138) ∧
      tells (exec (.cfgFwp 57) State.reset)
        (fun t => t.err && t.ecause == 3 && t.einfo == 0x10000039 && cstatWord .fwp t == 0) := by
  decide

/-- V1: `cfg.for 56`; V22: `VALID` falls. -/
theorem test_cfgFor :
    tells (exec (.cfgFor 56) { State.reset with valid := true })
      (fun t => cstatWord .forb t == 0x00000138) := by decide

/-- V1: `cfg.mbp 32` and `cfg.mbp 33`. -/
theorem test_cfgMbp :
    tells (exec (.cfgMbp 32) State.reset) (fun t => cstatWord .mbp t == 0x00000120) ∧
      tells (exec (.cfgMbp 33) State.reset)
        (fun t => t.err && t.ecause == 3 && t.einfo == 0x18000021 && cstatWord .mbp t == 0) := by
  decide

/-- V3: seven-bit values that straddle bytes. -/
theorem test_packFwp :
    tells (exec (.packFwp 8) (withEngine .fwp 7
        (withSrc [0x7F, 0x00, 0x55, 0x2A, 0x01, 0x40, 0x7E, 0x3F])))
      (fun t => t.fwp.clen == 7 &&
        bytesAre .fwp [0x7F, 0x40, 0x55, 0x15, 0x00, 0xFA, 0x7F] t) := by decide

/-- V7: `pack.fwp 4` with `G_FIXED = 8` halts. -/
theorem test_packFwp_halts :
    tells (exec (.packFwp 4) (withEngine .fwp 3 State.reset))
      (fun t => statusWord t == 2 && t.fcause == 1 && t.finfo == 0x20000004 && t.fwp.clen == 0) := by
  decide

/-- V7 with `G_FIXED = 4`: the padding bits are 0. -/
theorem test_packFwp_padding :
    tells (exec (.packFwp 4) { withEngine .fwp 3 (withSrc [5, 2, 7, 1]) with
        params := ⟨1024, 4, by decide, by decide⟩ })
      (fun t => t.fwp.clen == 2 && bytesAre .fwp [0xD5, 0x03] t) := by decide

/-- X2: `pack.for 8`. -/
theorem test_packFor :
    tells (exec (.packFor 8) (withEngine .forb 3 (withSrc [0, 1, 2, 3, 4, 5, 6, 7])))
      (fun t => t.forb.clen == 3 && bytesAre .forb [0x88, 0xC6, 0xFA] t && !t.valid) := by decide

/-- V14: `pack.mbp 32` at width 1, and its conservative length. -/
theorem test_packMbp :
    tells (exec (.packMbp 32) (withEngine .mbp 1 (withSrc
        [1, 0, 1, 1, 0, 0, 1, 0, 1, 1, 1, 1, 0, 0, 0, 1,
         0, 0, 0, 0, 1, 1, 1, 1, 1, 0, 1, 0, 1, 0, 1, 0])))
      (fun t => t.mbp.clen == 128 && bytesAre .mbp [0x4D, 0x8F, 0xF0, 0x55] t) := by decide

/-- V15: `pack.mbp 16` halts. -/
theorem test_packMbp_halts :
    tells (exec (.packMbp 16) (withEngine .mbp 5 State.reset))
      (fun t => t.halt && t.fcause == 1 && t.finfo == 0x28000010) := by decide

/-- Rule R83: a value of 4 bits does not fit width 3. -/
theorem test_pack_unfit :
    isUnfit (exec (.packFwp 8) (withEngine .fwp 3 (withSrc [0, 1, 2, 3, 4, 5, 6, 8]))) = true := by
  decide

/-- V8: `unpack.fwp 8` of bytes the host wrote, and V20's Underrun. -/
theorem test_unpackFwp :
    tells (exec (.unpackFwp 8) (withBytes .fwp
        [0x00, 0x11, 0x22, 0x33, 0x44, 0x55, 0x66, 0x77, 0x88, 0x99, 0xAA, 0xBB]
        (withEngine .fwp 12 State.reset)))
      (fun t => t.fwp.dcnt == 8 &&
        elemsAre .fwp [0x100, 0x221, 0x433, 0x554, 0x766, 0x887, 0xA99, 0xBBA] t) ∧
      tells (exec (.unpackFwp 8) (withEngine .fwp 5 State.reset))
        (fun t => t.err && t.ecause == 6 && t.einfo == 0x30000008) := by decide

/-- X2: `update 8`. -/
theorem test_unpackFor :
    tells (exec (.unpackFor 8) (withBytes .forb [0x88, 0xC6, 0xFA]
        (withEngine .forb 3 State.reset)))
      (fun t => t.forb.dcnt == 8 && cstatWord .forb t == 0x00000303 &&
        elemsAre .forb [0, 1, 3, 6, 10, 15, 21, 28] t) := by decide

/-- V9's wrap, one delta at a time: the sum is taken modulo 2^64. -/
theorem test_runSum_wraps :
    runSumFrom (fun _ => 0xFF) 56 0xFFFFFFFFFFFFFF00 256 1 = [0x00FFFFFFFFFFFEFF] := by decide

/-- V14: `unpack.mbp 32`. -/
theorem test_unpackMbp :
    tells (exec (.unpackMbp 32) (withEngine .mbp 1 (withBytes .mbp [0x4D, 0x8F, 0xF0, 0x55]
        State.reset)))
      (fun t => t.mbp.dcnt == 32 && elemsAre .mbp
        [1, 0, 1, 1, 0, 0, 1, 0, 1, 1, 1, 1, 0, 0, 0, 1,
         0, 0, 0, 0, 1, 1, 1, 1, 1, 0, 1, 0, 1, 0, 1, 0] t) := by decide

/-- V18: GranularityError comes before Underrun. -/
theorem test_unpackMbp_halts :
    tells (exec (.unpackMbp 48) (withEngine .mbp 5 State.reset))
      (fun t => statusWord t == 2 && t.finfo == 0x38000030) := by decide

/-- A FOR engine whose array is materialised, as after X2. -/
def materialised : State :=
  { withEngine .forb 3 State.reset with
    valid := true,
    forb := ⟨3, true, 3, 8, Memory.block 0 [0x88, 0xC6, 0xFA],
      Memory.block 0 [0, 1, 3, 6, 10, 15, 21, 28]⟩ }

/-- X2: `at 7`; V17: `at 8` is beyond the count. -/
theorem test_at :
    tells (exec (.atIndex 7) materialised) (fun t => t.rdata == 28) ∧
      tells (exec (.atIndex 8) materialised)
        (fun t => t.ecause == 8 && t.einfo == 0x44000008 && t.rdata == 0) := by decide

/-- V17: Stale comes before Index. -/
theorem test_at_stale :
    tells (exec (.atIndex 9) { materialised with valid := false })
      (fun t => t.ecause == 7 && t.einfo == 0x44000009) := by decide

/-- V16: while `ERR = 1` a command is dropped, and `clrerr` clears the record. -/
theorem test_dropped_and_clrerr :
    tells (step (pend (.regWrite 4 4 0x10000004)
        { State.reset with err := true, ecause := 2, einfo := 1 }))
      (fun t => cstatWord .fwp t == 0 && t.einfo == 1 && t.resp == .okay) ∧
      tells (step (pend (.regWrite 0x1C 4 2)
        { State.reset with err := true, ecause := 2, einfo := 1 }))
        (fun t => statusWord t == 0 && t.ecause == 0 && t.einfo == 0) := by decide

/-- P3 step 10: `srst` leaves the halt and keeps the buffers. -/
theorem test_srst :
    tells (exec .srst { materialised with halt := true, fcause := 1, finfo := 0x28000030 })
      (fun t => statusWord t == 0 && t.finfo == 0 && cstatWord .forb t == 0 && t.forb.clen == 0 &&
        bytesAre .forb [0x88, 0xC6, 0xFA] t) := by decide

/-- V16: `nop`. -/
theorem test_nop : tells (exec .nop materialised) (fun t => t == materialised) := by decide

/-- V19, the registers with a value fixed by the parameters. -/
theorem test_registers :
    readReg .id State.reset = 0x42504331 ∧ readReg .nmax State.reset = 0x400 ∧
      readReg (.caps .fwp) State.reset = 0x00083801 ∧
      readReg (.caps .mbp) State.reset = 0x10202001 ∧
      readReg (.ccap .fwp) State.reset = 0x1C00 ∧ readReg (.ccap .mbp) State.reset = 0x1000 := by
  decide

/-- V19, accesses. -/
theorem test_accesses :
    tells (step (pend (.regRead 0x0C0 4) State.reset)) (fun t => t.resp == .error) ∧
      tells (step (pend (.regRead 0x002 4) State.reset)) (fun t => t.resp == .error) ∧
      tells (step (pend (.regRead 0x02C 4) State.reset)) (fun t => t.resp == .word 0) ∧
      tells (step (pend (.srcWrite 1024 0) State.reset)) (fun t => t.resp == .error) ∧
      tells (step (pend (.cbufRead 2 4096) State.reset)) (fun t => t.resp == .error) ∧
      tells (step (pend (.regWrite 0x048 4 7169) State.reset)) (fun t => t.fwp.clen == 0) ∧
      tells (step (pend (.regWrite 0x048 4 7168) State.reset)) (fun t => t.fwp.clen == 7168) := by
  decide

/-! ### Witnesses: for every obligation with hypotheses a state and operands that meet them -/

/-- Eight source elements of 3 bits. -/
def eight : List Word := [0, 1, 2, 3, 4, 5, 6, 7]

/-- Thirty-two source elements of 1 bit. -/
def thirtyTwo : List Word := List.replicate 32 1

/-- A FWP engine at width 3 with eight source elements. -/
def packable (c : Codec) : State := withEngine c 3 (withSrc eight)

/-- The script of a round trip, pending. -/
def tripScript (c : Codec) (b n : Nat) (s : State) : State :=
  { s with script := [issue (cfgOf c b), issue (packOf c n), issue (unpackOf c n)] }

theorem witness_DecodeOfEncodeIsTheInstruction :
    ∀ i ∈ [Instr.nop, .cfgFwp 0, .cfgFor 63, .cfgMbp 63, .packFwp 67108863, .packFor 0,
      .packMbp 67108863, .unpackFwp 67108863, .unpackFor 0, .unpackMbp 67108863,
      .atIndex 67108863, .srst, .clrerr], i.wf = true := by decide

theorem witness_EncodeOfDecodedCommandIsItsWord :
    decodeCmd 0x47FFFFFF = .instr (.atIndex 67108863) := by decide

theorem witness_CommandWordsAreTheElevenPatterns :
    decodeCmd 0x1000003F = .instr (.cfgFwp 63) ∧
      (∀ r ∈ commandTable, r.matches (r.pattern ||| ~~~r.mask) = true) ∧
      (∀ r ∈ commandTable, [0x00000001, 0x10000040, 0x1C000000, 0x40000000, 0x4C000000,
        0x50000000, 0xFFFFFFFF].all (fun w => !r.matches w) = true) := by decide

theorem witness_ControlWriteIsSrstClrerrOrNothing :
    (∀ d : Word, ∃ s : State, s.script = .regWrite 0x01C 4 d :: []) ∧
    ((4 : Word).toNat / 4 ≠ 0 ∧ (0xFFFFFFFF : Word).toNat / 4 ≠ 0) ∧
    ((3 : Word).toNat / 4 = 0 ∧ (3 : Word).getLsbD 0 = true) ∧
    ((2 : Word).toNat / 4 = 0 ∧ (2 : Word).getLsbD 0 = false ∧ (2 : Word).getLsbD 1 = true) :=
  ⟨fun d => ⟨pend (.regWrite 0x01C 4 d) State.reset, rfl⟩, by decide, by decide, by decide⟩

/-- The last clause: a `CTRL` write that leaves `ERR` set. -/
theorem witness_ControlWriteIsSrstClrerrOrNothing_err :
    tells (step (pend (.regWrite 0x01C 4 4) { State.reset with err := true })) (fun t => t.err) =
      true := by decide

theorem witness_StepRunsTheDecodedInstruction :
    ((pend (.regWrite 4 4 0x10000001) State.reset).script = [.regWrite 0x004 4 0x10000001] ∧
      Ready (pend (.regWrite 4 4 0x10000001) State.reset) ∧
      decodeCmd 0x10000001 = .instr (.cfgFwp 1)) ∧
    ((pend (.regWrite 0x1C 4 3) State.reset).script = [.regWrite 0x01C 4 3] ∧
      decodeCtrl 3 = some .srst) :=
  ⟨⟨rfl, ⟨rfl, rfl⟩, by decide⟩, rfl, by decide⟩

theorem witness_CommandAcceptance :
    (∃ s : State, s.script = [.regWrite 0x004 4 0] ∧ s.halt = true) ∧
    (∃ s : State, s.script = [.regWrite 0x004 4 0] ∧ s.halt = false ∧ s.err = true) ∧
    (∃ s : State, s.script = [.regWrite 0x004 4 0] ∧ Ready s ∧ decodeCmd 0 = .instr .nop) ∧
    (∃ s : State, s.script = [.regWrite 0x004 4 1] ∧ Ready s ∧
      decodeCmd 1 = .illegal .illegalCommand) :=
  ⟨⟨pend (.regWrite 4 4 0) { State.reset with halt := true }, rfl, rfl⟩,
    ⟨pend (.regWrite 4 4 0) { State.reset with err := true }, rfl, rfl, rfl⟩,
    ⟨pend (.regWrite 4 4 0) State.reset, rfl, ⟨rfl, rfl⟩, by decide⟩,
    ⟨pend (.regWrite 4 4 1) State.reset, rfl, ⟨rfl, rfl⟩, by decide⟩⟩

theorem witness_PlacedTableWordIsRunNext :
    (0x20000008 < 2 ^ 32 ∧ decodeTableWord 32 0x20000008 = some (.packFwp 8) ∧
      Ready State.reset) ∧
    (2 < 2 ^ 32 ∧ decodeTableWord 32 2 = some .clrerr ∧ Instr.clrerr.port = .ctrl) :=
  ⟨⟨by decide, by decide, ⟨rfl, rfl⟩⟩, by decide⟩

theorem witness_IdleBlockKeepsItsState : State.reset.script = [] := rfl

/-- Each of the fourteen lines decides somewhere, and none does for a command that runs. -/
theorem witness_FirstFailingCheckDecides :
    (pend (.regWrite 4 4 0x50000000) State.reset).script = [.regWrite 0x004 4 0x50000000] ∧
    firstVerdict (priorityList 0 { State.reset with halt := true }) = some .dropped ∧
    firstVerdict (priorityList 0 { State.reset with err := true }) = some .dropped ∧
    firstVerdict (priorityList 0x5C000000 State.reset) = some (.rejected 2) ∧
    firstVerdict (priorityList 0x00000001 State.reset) = some (.rejected 2) ∧
    firstVerdict (priorityList 0x1C000044 State.reset) = some (.rejected 1) ∧
    firstVerdict (priorityList 0x40000000 State.reset) = some (.rejected 2) ∧
    firstVerdict (priorityList 0x10000040 State.reset) = some (.rejected 2) ∧
    firstVerdict (priorityList 0x18000021 State.reset) = some (.rejected 3) ∧
    firstVerdict (priorityList 0x38000030 State.reset) = some (.rejected 4) ∧
    firstVerdict (priorityList 0x200007D1 (withEngine .fwp 1 State.reset)) = some (.rejected 5) ∧
    firstVerdict (priorityList 0x38000030 (withEngine .mbp 5 State.reset)) = some (.halted 1) ∧
    firstVerdict (priorityList 0x30000008 (withEngine .fwp 4 State.reset)) = some (.rejected 6) ∧
    firstVerdict (priorityList 0x44000009 { materialised with valid := false }) =
      some (.rejected 7) ∧
    firstVerdict (priorityList 0x44000008 materialised) = some (.rejected 8) ∧
    firstVerdict (priorityList 0x44000007 materialised) = none := by decide

/-- One below and one above a multiple, for a pack and for an unpack. -/
theorem witness_BadGranularityHaltsTheBlock :
    (∀ n ∈ [7, 9, 1023], ((withEngine .fwp 3 State.reset).engine .fwp).cfgd = true ∧
      n ≤ State.reset.params.nMax ∧ n % State.reset.params.gFixed ≠ 0) ∧
    (∀ n ∈ [16, 33, 1008], ((withEngine .mbp 5 State.reset).engine .mbp).cfgd = true ∧
      n ≤ State.reset.params.nMax ∧ n % 32 ≠ 0) ∧
    packOf .fwp 7 = .packFwp 7 ∧ unpackOf .mbp 16 = .unpackMbp 16 := by decide

theorem witness_UnconfiguredEngineRejects :
    (∀ c ∈ [Codec.fwp, .forb, .mbp], (State.reset.engine c).cfgd = false) ∧
      packOf .mbp 0 = .packMbp 0 ∧ unpackOf .fwp 0 = .unpackFwp 0 := by decide

/-- The least count above the capacity. -/
theorem witness_CountAboveCapacityRejects :
    ((withEngine .fwp 1 State.reset).engine .fwp).cfgd = true ∧ State.reset.params.nMax < 1025 := by
  decide

/-- Eight elements of 3 bits need 3 bytes; 2 are present. -/
theorem witness_MissingBytesReject :
    CountOk .fwp 8 (withBytes .fwp [1, 2] (withEngine .fwp 3 State.reset)) ∧
      ((withBytes .fwp [1, 2] (withEngine .fwp 3 State.reset)).engine .fwp).clen.toNat <
        ceilDiv8 ((withBytes .fwp [1, 2] (withEngine .fwp 3 State.reset)).widthOf .fwp * 8) :=
  ⟨⟨rfl, by decide, by decide⟩, by decide⟩

theorem witness_HaltIsLeftOnlyByAReset :
    ({ State.reset with halt := true, script := [.regWrite 0x1C 4 2] } : State).halt = true ∧
      tells (step { State.reset with halt := true, script := [.regWrite 0x1C 4 2] })
        (fun t => t.halt) = true ∧
      tells (step { State.reset with halt := true, script := [.regWrite 0x1C 4 1] })
        (fun t => !t.halt) = true := by decide

theorem witness_RejectionRecordStaysUntilAcknowledged :
    ({ State.reset with err := true, script := [.regWrite 4 4 0] } : State).err = true ∧
      tells (step { State.reset with err := true, ecause := 4, script := [.regWrite 4 4 0] })
        (fun t => t.err && t.ecause == 4) = true := by decide

/-- Both clauses: a step that sets `ERR`, and one that sets `HALT`. -/
theorem witness_ErrorsAreRaisedByCommandsOnly :
    tells (step (pend (.regWrite 4 4 0x50000000) State.reset)) (fun t => t.err) = true ∧
      tells (step (pend (.regWrite 4 4 0x20000004) (withEngine .fwp 3 State.reset)))
        (fun t => t.halt) = true ∧
      State.reset.err = false ∧ (withEngine .fwp 3 State.reset).halt = false := by decide

/-- The two ends of each width range and the widths just outside. -/
theorem witness_CfgConstructsTheEngine :
    (∀ b ∈ [1, 56], 1 ≤ b ∧ b ≤ if Codec.fwp = .mbp then 32 else 56) ∧
    (∀ b ∈ [1, 32], 1 ≤ b ∧ b ≤ if Codec.mbp = .mbp then 32 else 56) ∧
    (∀ b ∈ [0, 57], b = 0 ∨ (if Codec.forb = .mbp then 32 else 56) < b) ∧
    (∀ b ∈ [0, 33], b = 0 ∨ (if Codec.mbp = .mbp then 32 else 56) < b) := by decide

theorem witness_ReconfiguredEngineHoldsNoData :
    tells (exec (cfgOf .fwp 5) State.reset) (fun _ => true) = true ∧ (1 ≤ 5 ∧ 5 ≤ 56) ∧
      1 ≤ 8 ∧ 8 ≤ State.reset.params.nMax ∧ 8 % granularity State.reset.params .fwp = 0 := by
  decide

theorem packable_ok (c : Codec) (hc : c ≠ .mbp) :
    CountOk c 8 (packable c) ∧ SrcBelow 8 ((packable c).widthOf c) (packable c) := by
  cases c with
  | fwp => exact ⟨⟨rfl, by decide, by decide⟩, (srcFits_iff _ _ _).mp (by decide)⟩
  | forb => exact ⟨⟨rfl, by decide, by decide⟩, (srcFits_iff _ _ _).mp (by decide)⟩
  | mbp => exact absurd rfl hc

/-- Eight elements of 3 bits; and the empty pack. -/
theorem witness_PackFixedWritesTheLayout :
    (∃ (c : Codec) (s : State), c ≠ .mbp ∧ CountOk c 8 s ∧ SrcBelow 8 (s.widthOf c) s) ∧
    (∃ (c : Codec) (s : State), c ≠ .mbp ∧ CountOk c 0 s ∧ SrcBelow 0 (s.widthOf c) s) :=
  ⟨⟨.forb, packable .forb, by decide, packable_ok .forb (by decide)⟩,
    ⟨.fwp, packable .fwp, by decide, ⟨rfl, by decide, by decide⟩, fun i h => by omega⟩⟩

theorem witness_PackMbpWritesMiniBlocks :
    CountOk .mbp 32 (withEngine .mbp 1 (withSrc thirtyTwo)) ∧
      SrcBelow 32 ((withEngine .mbp 1 (withSrc thirtyTwo)).widthOf .mbp)
        (withEngine .mbp 1 (withSrc thirtyTwo)) :=
  ⟨⟨rfl, by decide, by decide⟩, (srcFits_iff _ _ _).mp (by decide)⟩

/-- The refusal itself, at the largest width where it can happen. -/
theorem witness_PackIsRefusedExactlyForAnUnfitSource :
    isUnfit (exec (packOf .fwp 8)
      (withEngine .fwp 31 (withSrc [0x80000000, 0, 0, 0, 0, 0, 0, 0]))) = true := by decide

/-- Exactly the bytes needed are present: 3 bytes for eight elements of 3 bits. -/
theorem witness_UnpackFwpExtractsTheElements :
    CountOk .fwp 8 (withBytes .fwp [0x88, 0xC6, 0xFA] (withEngine .fwp 3 State.reset)) ∧
      EnoughBytes .fwp 8 (withBytes .fwp [0x88, 0xC6, 0xFA] (withEngine .fwp 3 State.reset)) :=
  ⟨⟨rfl, by decide, by decide⟩, by unfold EnoughBytes; decide⟩

theorem witness_UnpackForMaterialisesTheRunningSum :
    CountOk .forb 8 materialised ∧ EnoughBytes .forb 8 materialised :=
  ⟨⟨rfl, by decide, by decide⟩, by unfold EnoughBytes; decide⟩

theorem witness_UnpackMbpExtractsTheLanes :
    CountOk .mbp 32 (withBytes .mbp [0x4D, 0x8F, 0xF0, 0x55] (withEngine .mbp 1 State.reset)) ∧
      EnoughBytes .mbp 32
        (withBytes .mbp [0x4D, 0x8F, 0xF0, 0x55] (withEngine .mbp 1 State.reset)) :=
  ⟨⟨rfl, by decide, by decide⟩, by unfold EnoughBytes; decide⟩

/-- The last index below the count and the first at it. -/
theorem witness_AtReadsTheMaterialisedArray :
    (materialised.forb.cfgd = true ∧ materialised.valid = true ∧
      7 < materialised.forb.dcnt.toNat) ∧
    State.reset.forb.cfgd = false ∧
    (({ materialised with valid := false } : State).forb.cfgd = true ∧
      ({ materialised with valid := false } : State).valid = false) ∧
    (materialised.forb.cfgd = true ∧ materialised.valid = true ∧
      materialised.forb.dcnt.toNat ≤ 8) := by decide

/-- A step of each event: set by `update`, cleared by `cfg.for`, `pack.for`, a byte, a length and a
reset, and left by an `at`. -/
theorem witness_ValidFollowsItsLifecycle :
    validEvent (pend (.regWrite 4 4 0x34000008) materialised) = some true ∧
    validEvent (pend (.regWrite 4 4 0x14000003) materialised) = some false ∧
    validEvent (pend (.regWrite 4 4 0x24000008) materialised) = some false ∧
    validEvent (pend (.cbufWrite 1 0 0x88) materialised) = some false ∧
    validEvent (pend (.regWrite 0x068 4 3) materialised) = some false ∧
    validEvent (pend (.regWrite 0x01C 4 1) materialised) = some false ∧
    validEvent (pend .hardReset materialised) = some false ∧
    validEvent (pend (.regWrite 4 4 0x44000000) materialised) = none ∧
    tells (step (pend (.regWrite 4 4 0x44000000) materialised)) (fun t => t.valid) = true := by
  decide

theorem witness_RepeatingACommandChangesNothing :
    tells (exec (packOf .fwp 8) (packable .fwp)) (fun t => t.fwp.clen == 3) = true ∧
      tells (exec (unpackOf .forb 8) materialised) (fun t => t.valid) = true := by decide

theorem witness_NopChangesNothing :
    (pend (.regWrite 4 4 0) State.reset).script = [.regWrite 0x004 4 0x00000000] ∧
    ((pend (.regWrite 4 4 1) State.reset).script = [.regWrite 0x004 4 1] ∧
      Ready (pend (.regWrite 4 4 1) State.reset) ∧ opField 1 = 0 ∧ (1 : Word) ≠ 0) ∧
    (opField 0x0FFFFFFF = 0 ∧ (0x0FFFFFFF : Word) ≠ 0) :=
  ⟨rfl, ⟨rfl, ⟨rfl, rfl⟩, by decide, by decide⟩, by decide, by decide⟩

theorem witness_ClrerrClearsTheRecoverableRecord :
    (pend (.regWrite 0x1C 4 2) State.reset).script = [.regWrite 0x01C 4 0x00000002] := rfl

theorem witness_SrstResetsRegistersAndKeepsBuffers :
    (pend (.regWrite 0x1C 4 1) State.reset).script = [.regWrite 0x01C 4 1] ∧
      (pend (.regWrite 0x1C 4 3) State.reset).script = [.regWrite 0x01C 4 3] := ⟨rfl, rfl⟩

theorem witness_HardResetHasTheEffectOfSrst :
    (pend .hardReset State.reset).script = [.hardReset] := rfl

theorem witness_EnginesShareNoMutableState :
    addressee (.packFwp 8) = some .fwp ∧
      tells (exec (.packFwp 8) (packable .fwp)) (fun _ => true) = true := by decide

/-- `materialised` with another FWP engine, another `RDATA` and another `EINFO`. -/
def otherwise : State := { withEngine .fwp 5 materialised with rdata := 99, einfo := 7 }

/-- A FOR engine at width 3 whose first source element needs 4 bits. -/
def unfit : State := withEngine .forb 3 (withSrc [8, 0, 0, 0, 0, 0, 0, 0])

/-- Two states that differ outside the engine; commands of each outcome: an `update` and an `at` that
complete, an `at` that is rejected, an `update` that halts, a `pack` that is refused. -/
theorem witness_CommandsReadOnlyTheirOwnEngine :
    (addressee (.unpackFor 8) = some .forb ∧ addressee (.atIndex 7) = some .forb ∧
      addressee (.packFor 8) = some .forb) ∧
    (otherwise.engine .forb = materialised.engine .forb ∧ otherwise.src = materialised.src ∧
      otherwise.valid = materialised.valid ∧ otherwise.params = materialised.params ∧
      otherwise.engine .fwp ≠ materialised.engine .fwp ∧ otherwise.rdata ≠ materialised.rdata) ∧
    tells (exec (.unpackFor 8) materialised) (fun t => !t.err && !t.halt) = true ∧
    tells (exec (.atIndex 7) materialised) (fun t => t.rdata == 28) = true ∧
    tells (exec (.atIndex 8) materialised) (fun t => t.err && t.ecause == 8) = true ∧
    tells (exec (.unpackFor 7) materialised) (fun t => t.halt && t.fcause == 1) = true ∧
    isUnfit (exec (.packFor 8) unfit) = true ∧
    isUnfit (exec (.packFor 8) { unfit with rdata := 99 }) = true := by decide

/-- `materialised` with one more byte beyond its length. -/
def longer : State :=
  { materialised with forb := { materialised.forb with
      cbuf := Memory.block 0 [0x88, 0xC6, 0xFA, 0x55] } }

theorem witness_UnpackReadsOnlyBelowClen :
    SameRegs .forb materialised longer ∧ longer.params = materialised.params ∧
      (∀ a, a < (materialised.engine .forb).clen.toNat →
        longer.cbufByte .forb a = materialised.cbufByte .forb a) ∧
      CountOk .forb 8 materialised ∧ EnoughBytes .forb 8 materialised ∧
      tells (exec (.unpackFor 8) materialised) (fun _ => true) = true ∧
      tells (exec (.unpackFor 8) longer) (fun _ => true) = true := by
  refine ⟨⟨rfl, rfl, rfl, rfl⟩, rfl, fun a h => ?_, ⟨rfl, by decide, by decide⟩,
    by unfold EnoughBytes; decide, by decide, by decide⟩
  have h3 : a < 3 := h
  interval_cases a <;> rfl

/-- The hypotheses of a round trip at count 8 and at count 0. -/
theorem witness_RoundTripLawOfFwp :
    Ready (tripScript .fwp 3 8 (withSrc eight)) ∧ (1 ≤ 3 ∧ 3 ≤ 56) ∧
      8 ≤ (tripScript .fwp 3 8 (withSrc eight)).params.nMax ∧
      8 % (tripScript .fwp 3 8 (withSrc eight)).params.gFixed = 0 ∧
      SrcBelow 8 3 (tripScript .fwp 3 8 (withSrc eight)) ∧
      (tripScript .fwp 3 8 (withSrc eight)).script =
        issue (.cfgFwp 3) :: issue (.packFwp 8) :: issue (.unpackFwp 8) :: [] :=
  ⟨⟨rfl, rfl⟩, by decide, by decide, by decide, (srcFits_iff _ _ _).mp (by decide), rfl⟩

theorem witness_PrefixSumLawOfFor :
    Ready (tripScript .forb 56 8 (withSrc eight)) ∧ (1 ≤ 56 ∧ 56 ≤ 56) ∧
      8 ≤ (tripScript .forb 56 8 (withSrc eight)).params.nMax ∧
      8 % (tripScript .forb 56 8 (withSrc eight)).params.gFixed = 0 ∧
      SrcBelow 8 56 (tripScript .forb 56 8 (withSrc eight)) ∧
      (tripScript .forb 56 8 (withSrc eight)).script =
        issue (.cfgFor 56) :: issue (.packFor 8) :: issue (.unpackFor 8) :: [] :=
  ⟨⟨rfl, rfl⟩, by decide, by decide, by decide, (srcFits_iff _ _ _).mp (by decide), rfl⟩

theorem witness_RoundTripLawOfMbp :
    Ready (tripScript .mbp 1 32 (withSrc thirtyTwo)) ∧ (1 ≤ 1 ∧ 1 ≤ 32) ∧
      32 ≤ (tripScript .mbp 1 32 (withSrc thirtyTwo)).params.nMax ∧ 32 % 32 = 0 ∧
      SrcBelow 32 1 (tripScript .mbp 1 32 (withSrc thirtyTwo)) ∧
      (tripScript .mbp 1 32 (withSrc thirtyTwo)).script =
        issue (.cfgMbp 1) :: issue (.packMbp 32) :: issue (.unpackMbp 32) :: [] :=
  ⟨⟨rfl, rfl⟩, by decide, by decide, by decide, (srcFits_iff _ _ _).mp (by decide), rfl⟩

/-- The three steps of the script complete. -/
theorem witness_HostValidatorFindsNoDefect :
    Ready (tripScript .fwp 3 8 (withSrc eight)) ∧
      (1 ≤ 3 ∧ 3 ≤ if Codec.fwp = .mbp then 32 else 56) ∧
      8 ≤ (tripScript .fwp 3 8 (withSrc eight)).params.nMax ∧
      8 % granularity (tripScript .fwp 3 8 (withSrc eight)).params .fwp = 0 ∧
      SrcBelow 8 3 (tripScript .fwp 3 8 (withSrc eight)) ∧
      tells (Sys2Proof.core.run 3 (tripScript .fwp 3 8 (withSrc eight)))
        (fun t => t.fwp.dcnt == 8) = true :=
  ⟨⟨rfl, rfl⟩, by decide, by decide, by decide, (srcFits_iff _ _ _).mp (by decide), by decide⟩

/-- Values at both ends of their range, at the least and at the largest width. -/
theorem witness_PackDatapathComputesPackBits :
    (1 ≤ 1 ∧ 1 ≤ 56 ∧ ∀ v ∈ ([0, 1, 1] : List Word), v.toNat < 2 ^ 1) ∧
      (1 ≤ 56 ∧ 56 ≤ 56 ∧ ∀ v ∈ ([0xFFFFFFFF, 0] : List Word), v.toNat < 2 ^ 56) := by simp

theorem witness_PackDatapathKeepsItsInvariant :
    1 ≤ 55 ∧ 55 ≤ 56 ∧ ∀ v ∈ ([0xFFFFFFFF, 0xFFFFFFFF] : List Word), v.toNat < 2 ^ 55 := by simp

/-- Both engines at width 1. -/
def bothEngines : State := withEngine .fwp 1 (withEngine .mbp 1 (withSrc thirtyTwo))

theorem witness_MiniBlockBytesEqualFixedWidthBytes :
    bothEngines.widthOf .mbp ≤ 32 ∧ bothEngines.widthOf .fwp = bothEngines.widthOf .mbp ∧
      CountOk .mbp 32 bothEngines ∧ CountOk .fwp 32 bothEngines ∧
      tells (exec (.packMbp 32) bothEngines) (fun _ => true) = true ∧
      tells (exec (.packFwp 32) bothEngines) (fun _ => true) = true :=
  ⟨by decide, by decide, ⟨rfl, by decide, by decide⟩, ⟨rfl, by decide, by decide⟩, by decide,
    by decide⟩

theorem witness_GlobalRegistersReadTheState :
    ∀ off ∈ [0x000, 0x008, 0x00C, 0x010, 0x014, 0x018, 0x020, 0x024, 0x028],
      (pend (.regRead off 4) State.reset).script = [.regRead off 4] := fun _ _ => rfl

theorem witness_BankRegistersReadTheEngine :
    ∀ off ∈ [0x00, 0x04, 0x08, 0x0C, 0x10], ∀ c : Codec,
      (pend (.regRead (0x040 + 0x20 * codecIndex c + off) 4) State.reset).script =
        [.regRead (0x040 + 0x20 * codecIndex c + off) 4] := fun _ _ _ => rfl

/-- Each clause at the ends of its offsets. -/
theorem witness_RegisterAccessCornerCases :
    (∀ off ∈ [0x000, 0x008, 0x02C, 0x04C, 0x0BC], off % 4 = 0 ∧ off < 0x0C0 ∧
      off ∉ [0x004, 0x01C, 0x048, 0x068, 0x088] ∧
      (pend (.regWrite off 4 1) State.reset).script = [.regWrite off 4 1]) ∧
    (∀ off ∈ [0x004, 0x01C, 0x02C, 0x03C, 0x054, 0x05C, 0x074, 0x09C, 0x0A0, 0x0BC],
      off % 4 = 0 ∧ off < 0x0C0 ∧
      (off = 0x004 ∨ off = 0x01C ∨ (0x02C ≤ off ∧ off ≤ 0x03C) ∨
        (0x040 ≤ off ∧ off < 0x0A0 ∧ 0x14 ≤ off % 0x20) ∨ 0x0A0 ≤ off) ∧
      (pend (.regRead off 4) State.reset).script = [.regRead off 4]) ∧
    (∀ p ∈ [(0x000, 2), (0x002, 4), (0x0C0, 4)],
      p.2 ≠ 4 ∨ p.1 % 4 ≠ 0 ∨ 0x0C0 ≤ p.1) := by decide

/-- The capacity itself and one above it. -/
theorem witness_ClenWriteIsBoundedByCcap :
    (pend (.regWrite (0x048 + 0x20 * codecIndex .forb) 4 7168) materialised).script =
      [.regWrite (0x048 + 0x20 * codecIndex .forb) 4 7168] ∧
    (7168 : Word).toNat ≤ 7 * materialised.params.nMax ∧
    7 * materialised.params.nMax < (7169 : Word).toNat ∧
    (4096 : Word).toNat ≤ 4 * materialised.params.nMax ∧
    4 * materialised.params.nMax < (4097 : Word).toNat := by decide

/-- The first and the last place of a space. -/
theorem witness_BufferReadsReturnTheContents :
    (∀ k ∈ [0, 1023], (pend (.srcRead k) State.reset).script = [.srcRead k] ∧
      (pend (.dbufRead (codecIndex .mbp) k) State.reset).script =
        [.dbufRead (codecIndex .mbp) k] ∧ k < State.reset.params.nMax) ∧
    (∀ k ∈ [0, 4095], (pend (.cbufRead (codecIndex .mbp) k) State.reset).script =
      [.cbufRead (codecIndex .mbp) k] ∧ k < 4 * State.reset.params.nMax) := by decide

theorem witness_BufferWritesStoreOnePlace :
    (∀ k ∈ [0, 1023], (pend (.srcWrite k 5) State.reset).script = [.srcWrite k 5] ∧
      k < State.reset.params.nMax) ∧
    (∀ k ∈ [0, 7167], (pend (.cbufWrite (codecIndex .forb) k 5) State.reset).script =
      [.cbufWrite (codecIndex .forb) k 5] ∧ k < 7 * State.reset.params.nMax) := by decide

/-- The first index outside each space, and engine number 3. -/
theorem witness_AccessesOutsideASpaceAnswerError :
    (∀ x ∈ [Transaction.regRead 0x0C0 4, .regWrite 0x0C0 4 0, .srcRead 1024, .srcWrite 1024 0,
        .cbufRead 2 4096, .cbufWrite 1 7168 0, .dbufRead 0 1024, .cbufRead 3 0, .dbufRead 3 0],
      (pend x State.reset).script = [x]) ∧
    State.reset.params.nMax ≤ 1024 ∧ 4 * State.reset.params.nMax ≤ 4096 ∧
      7 * State.reset.params.nMax ≤ 7168 := by decide

/-- An `at 7` pending on a materialised array. -/
def lookupPending : State := pend (.regWrite 4 4 0x44000007) materialised

/-- The invariant holds of a state with a materialised array, and a step of it answers. -/
theorem witness_EveryStepKeepsTheInvariant :
    BlockInv lookupPending ∧ tells (step lookupPending) (fun t => t.rdata == 28) = true := by
  refine ⟨?_, by decide⟩
  exact {
    unconfigured := fun c h => by cases c <;> first | exact ⟨rfl, rfl⟩ | cases h
    configured := fun c h => by cases c <;> first | decide | cases h
    clen_le := fun c => by cases c <;> decide
    dcnt_le := fun c => by cases c <;> decide
    valid_array := fun _ => by decide
    no_err := fun _ => ⟨rfl, rfl⟩
    no_halt := fun _ => ⟨rfl, rfl⟩
    err_code := fun h => by cases h
    halt_code := fun h => by cases h
    one_tier := fun h => by cases h.1
    src_wf := ⟨rfl, rfl⟩
    cbuf_wf := fun c => by cases c <;> exact ⟨rfl, rfl⟩
    dbuf_wf := fun c => by cases c <;> exact ⟨rfl, rfl⟩ }

theorem witness_StepsKeepTheParameters :
    tells (step (pend (.regWrite 4 4 0x10000004) State.reset))
      (fun t => t.script == [] && t.params == State.reset.params) = true ∧
    (pend (.regWrite 4 4 0x10000004) State.reset).script = [.regWrite 4 4 0x10000004] := by decide

end Sys2Proof.Tests
end

section
/-! Rule R37 taken apart by what each clause reads, so that an operation has to re-establish only the
part it writes. -/

namespace Sys2Proof.Machine

/-! ### The parts of the invariant -/

/-- Clauses (a) to (d) and the canonical form of both buffers, for engine `c`. -/
structure EngineOk (p : Params) (c : Codec) (e : Engine) : Prop where
  unconfigured : e.cfgd = false → e.width = 0 ∧ e.dcnt = 0
  configured : e.cfgd = true → 1 ≤ e.width.toNat ∧ e.width.toNat ≤ wmax c
  clen_le : e.clen.toNat ≤ ccap p c
  dcnt_le : e.dcnt.toNat ≤ p.nMax
  cbuf_wf : e.cbuf.wf = true ∧ e.cbuf.within (ccap p c) = true
  dbuf_wf : e.dbuf.wf = true ∧ e.dbuf.within p.nMax = true

/-- Clause (e): what `VALID` says of the materialised array. -/
def ArrayOk (s : State) : Prop :=
  s.valid = true →
    s.forb.cfgd = true ∧
      ceilDiv8 (s.widthOf .forb * s.forb.dcnt.toNat) ≤ s.forb.clen.toNat ∧
      ∀ i, i < s.forb.dcnt.toNat →
        (s.dbufElem .forb i).toNat =
          extractSum (s.cbufByte .forb) (s.widthOf .forb) (i + 1) % 2 ^ 64

/-- Clauses (f) to (h): the two error records. -/
structure RecordsOk (s : State) : Prop where
  no_err : s.err = false → s.ecause = 0 ∧ s.einfo = 0
  no_halt : s.halt = false → s.fcause = 0 ∧ s.finfo = 0
  err_code : s.err = true → 1 ≤ s.ecause.toNat ∧ s.ecause.toNat ≤ 8
  halt_code : s.halt = true → s.fcause = 1
  one_tier : ¬(s.err = true ∧ s.halt = true)

/-- The canonical form of `SRC`. -/
def SrcOk (s : State) : Prop := s.src.wf = true ∧ s.src.within s.params.nMax = true

theorem blockInv_iff (s : State) :
    BlockInv s ↔
      (∀ c, EngineOk s.params c (s.engine c)) ∧ ArrayOk s ∧ RecordsOk s ∧ SrcOk s := by
  constructor
  · intro h
    exact ⟨fun c => ⟨h.unconfigured c, h.configured c, h.clen_le c, h.dcnt_le c, h.cbuf_wf c,
      h.dbuf_wf c⟩, h.valid_array, ⟨h.no_err, h.no_halt, h.err_code, h.halt_code, h.one_tier⟩,
      h.src_wf⟩
  · rintro ⟨he, ha, hr, hs⟩
    exact {
      unconfigured := fun c => (he c).unconfigured
      configured := fun c => (he c).configured
      clen_le := fun c => (he c).clen_le
      dcnt_le := fun c => (he c).dcnt_le
      valid_array := ha
      no_err := hr.no_err
      no_halt := hr.no_halt
      err_code := hr.err_code
      halt_code := hr.halt_code
      one_tier := hr.one_tier
      src_wf := hs
      cbuf_wf := fun c => (he c).cbuf_wf
      dbuf_wf := fun c => (he c).dbuf_wf }

/-! ### One engine -/

theorem engineOk_reset (p : Params) (c : Codec) : EngineOk p c .reset where
  unconfigured := fun _ => ⟨rfl, rfl⟩
  configured := fun h => by cases h
  clen_le := Nat.zero_le _
  dcnt_le := Nat.zero_le _
  cbuf_wf := ⟨Memory.wf_nil, Memory.within_nil _⟩
  dbuf_wf := ⟨Memory.wf_nil, Memory.within_nil _⟩

section
variable {p : Params} {c : Codec} {e : Engine}

theorem EngineOk.resetRegs (h : EngineOk p c e) : EngineOk p c e.resetRegs where
  unconfigured := fun _ => ⟨rfl, rfl⟩
  configured := fun hc => by cases hc
  clen_le := Nat.zero_le _
  dcnt_le := Nat.zero_le _
  cbuf_wf := h.cbuf_wf
  dbuf_wf := h.dbuf_wf

theorem wmax_lt (c : Codec) : wmax c < 2 ^ 6 := by cases c <;> decide

/-- `cfg` at a legal width. -/
theorem EngineOk.configured_at (h : EngineOk p c e) {b : Nat} (h1 : 1 ≤ b) (h2 : b ≤ wmax c) :
    EngineOk p c { e with width := BitVec.ofNat 6 b, cfgd := true, clen := 0, dcnt := 0 } where
  unconfigured := fun hc => by cases hc
  configured := fun _ => by
    have hb : (BitVec.ofNat 6 b).toNat = b :=
      Nat.mod_eq_of_lt (lt_of_le_of_lt h2 (wmax_lt c))
    exact ⟨by rw [hb]; exact h1, by rw [hb]; exact h2⟩
  clen_le := Nat.zero_le _
  dcnt_le := Nat.zero_le _
  cbuf_wf := h.cbuf_wf
  dbuf_wf := h.dbuf_wf

theorem EngineOk.clen_written (h : EngineOk p c e) {v : Word} (hv : v.toNat ≤ ccap p c) :
    EngineOk p c { e with clen := v } where
  unconfigured := h.unconfigured
  configured := h.configured
  clen_le := hv
  dcnt_le := h.dcnt_le
  cbuf_wf := h.cbuf_wf
  dbuf_wf := h.dbuf_wf

theorem EngineOk.cbuf_written (h : EngineOk p c e) {a : Nat} (ha : a < ccap p c) (b : Byte) :
    EngineOk p c { e with cbuf := e.cbuf.set a b } where
  unconfigured := h.unconfigured
  configured := h.configured
  clen_le := h.clen_le
  dcnt_le := h.dcnt_le
  cbuf_wf := ⟨Memory.wf_set h.cbuf_wf.1 a b, Memory.within_set h.cbuf_wf.2 ha b⟩
  dbuf_wf := h.dbuf_wf

/-- The store of a pack. -/
theorem EngineOk.bytes_stored (h : EngineOk p c e) {bytes : List Byte} {len : Word}
    (hb : bytes.length ≤ ccap p c) (hl : len.toNat ≤ ccap p c) :
    EngineOk p c { e with cbuf := e.cbuf.setPrefix bytes, clen := len } where
  unconfigured := h.unconfigured
  configured := h.configured
  clen_le := hl
  dcnt_le := h.dcnt_le
  cbuf_wf := ⟨Memory.wf_setPrefix h.cbuf_wf.1 bytes, Memory.within_setPrefix h.cbuf_wf.2 hb⟩
  dbuf_wf := h.dbuf_wf

/-- The store of an unpack. -/
theorem EngineOk.elems_stored (h : EngineOk p c e) (hc : e.cfgd = true) {vals : List Elem}
    {n : Word} (hv : vals.length ≤ p.nMax) (hn : n.toNat ≤ p.nMax) :
    EngineOk p c { e with dbuf := e.dbuf.setPrefix vals, dcnt := n } where
  unconfigured := fun hf => by rw [show e.cfgd = false from hf] at hc; cases hc
  configured := h.configured
  clen_le := h.clen_le
  dcnt_le := hn
  cbuf_wf := h.cbuf_wf
  dbuf_wf := ⟨Memory.wf_setPrefix h.dbuf_wf.1 vals, Memory.within_setPrefix h.dbuf_wf.2 hv⟩
end

/-! ### The materialised array -/

theorem arrayOk_of_not_valid {s : State} (h : s.valid = false) : ArrayOk s :=
  fun hv => by rw [h] at hv; cases hv

theorem ArrayOk.congr {s t : State} (h : ArrayOk s) (hv : t.valid = s.valid)
    (he : t.engine .forb = s.engine .forb) : ArrayOk t := by
  have hf : t.forb = s.forb := he
  have hb : t.cbufByte .forb = s.cbufByte .forb := by funext a; simp only [State.cbufByte, he]
  intro ht
  obtain ⟨hc, hl, hd⟩ := h (hv ▸ ht)
  simp only [State.widthOf, State.dbufElem, he, hf, hb] at hl hd ⊢
  exact ⟨hc, hl, hd⟩

/-- An operation on engine `c` that clears `VALID` when c = FOR. -/
theorem ArrayOk.of_invalidated {c : Codec} {s t : State} (h : ArrayOk s)
    (hv : t.valid = if c = .forb then false else s.valid)
    (he : ∀ d, d ≠ c → t.engine d = s.engine d) : ArrayOk t := by
  by_cases hc : c = .forb
  · exact arrayOk_of_not_valid (by rw [hv, if_pos hc])
  · exact h.congr (by rw [hv, if_neg hc]) (he .forb (Ne.symm hc))

/-- Rule R87 gives clause (e): an accepted `unpack.for` stores the running sum and sets `VALID`. -/
theorem arrayOk_unpacked_forb {n : Nat} {s : State} (h : CountOk .forb n s)
    (hb : EnoughBytes .forb n s) : ArrayOk (unpacked .forb n s) := by
  intro _
  have hlen : (unpackedElems .forb (s.cbufByte .forb) (s.widthOf .forb) n).length = n :=
    unpackedElems_length _ _ _ _ h.miniBlocks
  have he := unpacked_engine .forb n s
  have hcfgd : (unpacked .forb n s).forb.cfgd = true := (congrArg Engine.cfgd he).trans h.1
  have hclen : (unpacked .forb n s).forb.clen = (s.engine .forb).clen :=
    (congrArg Engine.clen he).trans rfl
  have hdcnt : (unpacked .forb n s).forb.dcnt.toNat = n := by
    have : (unpacked .forb n s).forb.dcnt = _ := congrArg Engine.dcnt he
    rw [this, hlen, BitVec.toNat_ofNat]
    exact Nat.mod_eq_of_lt (lt_trans h.lt (by decide))
  have hbytes : (unpacked .forb n s).cbufByte .forb = s.cbufByte .forb := by funext a; simp
  rw [hcfgd, hclen, hdcnt, hbytes, unpacked_widthOf]
  refine ⟨rfl, hb, fun i hi => ?_⟩
  rw [unpacked_dbufElem, hlen, if_pos hi, unpackedElems_forb_getD _ _ _ _ hi, BitVec.toNat_ofNat]

/-! ### The error records -/

theorem rejectCode_range (k : RejectKind) :
    1 ≤ (rejectCode k).toNat ∧ (rejectCode k).toNat ≤ 8 := by cases k <;> decide

theorem RecordsOk.congr {s t : State} (h : RecordsOk s) (hst : SameRecords s t) :
    RecordsOk t := by
  obtain ⟨h1, h2, h3, h4, h5, h6⟩ := hst
  exact ⟨by rw [h1, h2, h3]; exact h.no_err, by rw [h4, h5, h6]; exact h.no_halt,
    by rw [h1, h2]; exact h.err_code, by rw [h4, h5]; exact h.halt_code,
    by rw [h1, h4]; exact h.one_tier⟩

theorem RecordsOk.rejectWith {s : State} (h : RecordsOk s) (hh : s.halt = false)
    (k : RejectKind) (w : Word) : RecordsOk (rejectWith k w s) where
  no_err := fun he => by cases he
  no_halt := h.no_halt
  err_code := fun _ => rejectCode_range k
  halt_code := h.halt_code
  one_tier := fun ⟨_, ht⟩ => by rw [rejectWith_halt, hh] at ht; cases ht

theorem RecordsOk.haltWith_granularity {s : State} (h : RecordsOk s) (he : s.err = false)
    (w : Word) : RecordsOk (haltWith .granularityError w s) where
  no_err := h.no_err
  no_halt := fun hh => by cases hh
  err_code := h.err_code
  halt_code := fun _ => rfl
  one_tier := fun ⟨ht, _⟩ => by rw [haltWith_err, he] at ht; cases ht

theorem RecordsOk.clearError {s : State} (h : RecordsOk s) : RecordsOk (clearError s) where
  no_err := fun _ => ⟨rfl, rfl⟩
  no_halt := h.no_halt
  err_code := fun he => by cases he
  halt_code := h.halt_code
  one_tier := fun ⟨he, _⟩ => by cases he

theorem recordsOk_of_zero {s : State} (h1 : s.err = false) (h2 : s.ecause = 0) (h3 : s.einfo = 0)
    (h4 : s.halt = false) (h5 : s.fcause = 0) (h6 : s.finfo = 0) : RecordsOk s where
  no_err := fun _ => ⟨h2, h3⟩
  no_halt := fun _ => ⟨h5, h6⟩
  err_code := fun he => by rw [h1] at he; cases he
  halt_code := fun hh => by rw [h4] at hh; cases hh
  one_tier := fun ⟨he, _⟩ => by rw [h1] at he; cases he

/-! ### Operations that write one part -/

/-- All that clauses (a) to (e) and the canonical form of `SRC` read is unchanged. -/
def SameData (s t : State) : Prop :=
  t.params = s.params ∧ t.src = s.src ∧ t.valid = s.valid ∧ ∀ c, t.engine c = s.engine c

theorem BlockInv.of_records {s t : State} (h : BlockInv s) (hd : SameData s t)
    (hr : RecordsOk t) : BlockInv t := by
  obtain ⟨hp, hs, hv, he⟩ := hd
  obtain ⟨hE, hA, -, hS⟩ := (blockInv_iff s).mp h
  refine (blockInv_iff t).mpr ⟨fun c => ?_, hA.congr hv (he .forb), hr, ?_⟩
  · rw [hp, he]; exact hE c
  · rw [SrcOk, hp, hs]; exact hS

theorem BlockInv.recordsOk {s : State} (h : BlockInv s) : RecordsOk s :=
  ((blockInv_iff s).mp h).2.2.1

theorem BlockInv.arrayOk {s : State} (h : BlockInv s) : ArrayOk s := h.valid_array

theorem BlockInv.engineOk {s : State} (h : BlockInv s) (c : Codec) :
    EngineOk s.params c (s.engine c) := ((blockInv_iff s).mp h).1 c

theorem BlockInv.of_engine {c : Codec} {s t : State} (h : BlockInv s) (hp : t.params = s.params)
    (hs : t.src = s.src) (hr : SameRecords s t) (hne : ∀ d, d ≠ c → t.engine d = s.engine d)
    (hc : EngineOk s.params c (t.engine c)) (ha : ArrayOk t) : BlockInv t := by
  obtain ⟨hE, -, hR, hS⟩ := (blockInv_iff s).mp h
  refine (blockInv_iff t).mpr ⟨fun d => ?_, ha, hR.congr hr, ?_⟩
  · by_cases hd : d = c
    · rw [hp, hd]; exact hc
    · rw [hp, hne d hd]; exact hE d
  · rw [SrcOk, hp, hs]; exact hS

theorem BlockInv.afterHead {s : State} (h : BlockInv s) (r : Response) :
    BlockInv (afterHead r s) :=
  h.of_records ⟨rfl, rfl, rfl, afterHead_engine r s⟩
    (h.recordsOk.congr ⟨rfl, rfl, rfl, rfl, rfl, rfl⟩)

theorem BlockInv.rejectWith {s : State} (h : BlockInv s) (hh : s.halt = false) (k : RejectKind)
    (w : Word) : BlockInv (rejectWith k w s) :=
  h.of_records ⟨rfl, rfl, rfl, rejectWith_engine k w s⟩ (h.recordsOk.rejectWith hh k w)

theorem BlockInv.haltWith_granularity {s : State} (h : BlockInv s) (he : s.err = false)
    (w : Word) : BlockInv (haltWith .granularityError w s) :=
  h.of_records ⟨rfl, rfl, rfl, haltWith_engine _ w s⟩ (h.recordsOk.haltWith_granularity he w)

theorem BlockInv.clearError {s : State} (h : BlockInv s) : BlockInv (clearError s) :=
  h.of_records ⟨rfl, rfl, rfl, clearError_engine s⟩ h.recordsOk.clearError

theorem BlockInv.set_rdata {s : State} (h : BlockInv s) (v : Elem) :
    BlockInv { s with rdata := v } :=
  h.of_records ⟨rfl, rfl, rfl, fun c => by cases c <;> rfl⟩
    (h.recordsOk.congr ⟨rfl, rfl, rfl, rfl, rfl, rfl⟩)

theorem BlockInv.resetRegs {s : State} (h : BlockInv s) : BlockInv (resetRegs s) := by
  obtain ⟨hE, -, -, hS⟩ := (blockInv_iff s).mp h
  refine (blockInv_iff _).mpr ⟨fun c => ?_, arrayOk_of_not_valid rfl,
    recordsOk_of_zero rfl rfl rfl rfl rfl rfl, hS⟩
  rw [resetRegs_engine]
  exact (hE c).resetRegs

theorem BlockInv.writeSrc {s : State} (h : BlockInv s) {i : Nat} (hi : i < s.params.nMax)
    (v : Word) : BlockInv (writeSrc i v s) := by
  obtain ⟨hE, hA, hR, hS⟩ := (blockInv_iff s).mp h
  refine (blockInv_iff _).mpr ⟨fun c => ?_, hA.congr rfl rfl,
    hR.congr ⟨rfl, rfl, rfl, rfl, rfl, rfl⟩, Memory.wf_set hS.1 i v, Memory.within_set hS.2 hi v⟩
  cases c with
  | fwp => exact hE .fwp
  | forb => exact hE .forb
  | mbp => exact hE .mbp

theorem BlockInv.writeCbuf {s : State} (h : BlockInv s) {c : Codec} {a : Nat}
    (ha : a < ccap s.params c) (b : Byte) : BlockInv (writeCbuf c a b s) := by
  have hne := fun d (hd : d ≠ c) => writeCbuf_engine_ne c d a b s hd
  refine h.of_engine (c := c) (by simp) (by simp) (by simp [SameRecords]) hne ?_
    (h.arrayOk.of_invalidated (writeCbuf_valid c a b s) hne)
  rw [writeCbuf_engine]
  exact (h.engineOk c).cbuf_written ha b

theorem BlockInv.writeClen {s : State} (h : BlockInv s) (c : Codec) (v : Word) :
    BlockInv (writeClen c v s) := by
  by_cases hv : v.toNat ≤ ccap s.params c
  · rw [writeClen_accepted c v s hv]
    have hne : ∀ d, d ≠ c →
        (invalidate c (s.setEngine c { s.engine c with clen := v })).engine d = s.engine d :=
      fun d hd => by simp [hd]
    refine h.of_engine (c := c) (by simp) (by simp) (by simp [SameRecords]) hne ?_
      (h.arrayOk.of_invalidated (by simp [invalidate_valid]) hne)
    rw [invalidate_engine, engine_setEngine_same]
    exact (h.engineOk c).clen_written hv
  · rw [writeClen_ignored c v s (Nat.lt_of_not_le hv)]
    exact h

/-! ### The commands -/

theorem BlockInv.configure {s : State} (h : BlockInv s) {c : Codec} {b : Nat} (h1 : 1 ≤ b)
    (h2 : b ≤ wmax c) : BlockInv (invalidate c (configure c b s)) := by
  have hne : ∀ d, d ≠ c → (invalidate c (Machine.configure c b s)).engine d = s.engine d :=
    fun d hd => by simp [hd]
  refine h.of_engine (c := c) (by simp) (by simp) (by simp [SameRecords]) hne ?_
    (h.arrayOk.of_invalidated (by simp [invalidate_valid]) hne)
  rw [invalidate_engine, configure_engine]
  exact (h.engineOk c).configured_at h1 h2

/-- The reported length of an accepted pack is within the buffer (rules R18, R96). -/
theorem packedLength_le_ccap (p : Params) (c : Codec) {n b : Nat} (hn : n ≤ p.nMax)
    (hb : b ≤ wmax c) : packedLength c n b ≤ ccap p c := by
  have hm : b * n ≤ wmax c * p.nMax := Nat.mul_le_mul hb hn
  cases c <;> simp only [packedLength, ccap, wmax, ceilDiv8_eq] at hm ⊢ <;> omega

/-- The bytes of a pack are within the length it reports. -/
theorem packedBytes_length_le (c : Codec) (vals : List Word) {b : Nat} (hb : b ≤ wmax c)
    (h : c = .mbp → vals.length % mbsz = 0) :
    (packedBytes c vals b).length ≤ packedLength c vals.length b := by
  rw [packedBytes_eq c vals b h, packBits_length]
  cases c with
  | fwp => exact le_rfl
  | forb => exact le_rfl
  | mbp =>
    have hm : b * vals.length ≤ 32 * vals.length := Nat.mul_le_mul_right _ hb
    rw [ceilDiv8_le_iff, packedLength]
    omega

theorem BlockInv.packed {s : State} (h : BlockInv s) {c : Codec} {n : Nat} (hc : CountOk c n s) :
    BlockInv (packed c n s) := by
  have hne := packed_engine_ne c n s
  refine h.of_engine (c := c) (by simp) (by simp) (by simp [SameRecords]) hne ?_
    (h.arrayOk.of_invalidated (packed_valid c n s) hne)
  have hw : s.widthOf c ≤ wmax c := (h.configured c hc.1).2
  have hl : packedLength c n (s.widthOf c) ≤ ccap s.params c :=
    packedLength_le_ccap s.params c hc.2.1 hw
  have hb := packedBytes_length_le c (srcPrefix n s) hw (by simpa using hc.miniBlocks)
  rw [srcPrefix_length] at hb
  rw [packed_engine]
  refine (h.engineOk c).bytes_stored (hb.trans hl) ?_
  rw [packedLength_toNat c n _ hc.lt (widthOf_lt s c)]
  exact hl

theorem BlockInv.unpacked {s : State} (h : BlockInv s) {c : Codec} {n : Nat}
    (hc : CountOk c n s) (hb : EnoughBytes c n s) : BlockInv (unpacked c n s) := by
  have hne := unpacked_engine_ne c n s
  have hlen := unpackedElems_length c (s.cbufByte c) (s.widthOf c) n hc.miniBlocks
  refine h.of_engine (c := c) (by simp) (by simp) (by simp [SameRecords]) hne ?_ ?_
  · rw [unpacked_engine, hlen]
    refine (h.engineOk c).elems_stored hc.1 (hlen.trans_le hc.2.1) ?_
    rw [BitVec.toNat_ofNat]
    exact (Nat.mod_le _ _).trans hc.2.1
  · by_cases hf : c = .forb
    · subst hf
      exact arrayOk_unpacked_forb hc hb
    · exact h.arrayOk.congr (by rw [unpacked_valid, if_neg hf]) (hne .forb (Ne.symm hf))

/-- Every accepted command keeps the invariant. -/
theorem exec_keeps_blockInv {i : Instr} {s t : State} (h : BlockInv s) (hR : Ready s)
    (ht : exec i s = .next t) : BlockInv t := by
  obtain ⟨hh, he⟩ := hR
  rcases exec_next_cases ht with ⟨k, rfl⟩ | rfl | ⟨c, b, -, h1, h2, rfl⟩ | ⟨c, n, -, hc, -, rfl⟩ |
    ⟨c, n, -, hc, hb, rfl⟩ | ⟨n, -, -, -, -, rfl⟩ | ⟨-, rfl⟩ | ⟨-, rfl⟩ | ⟨-, rfl⟩
  · exact h.rejectWith hh k _
  · exact h.haltWith_granularity he _
  · exact h.configure h1 h2
  · exact h.packed hc
  · exact h.unpacked hc hb
  · exact h.set_rdata _
  · exact h
  · exact h.resetRegs
  · exact h.clearError

/-- The two operations of `CTRL` keep the invariant in every state. -/
theorem exec_ctrl_keeps_blockInv {d : Word} {i : Instr} {s t : State} (h : BlockInv s)
    (hd : decodeCtrl d = some i) (ht : exec i s = .next t) : BlockInv t := by
  rcases decodeCtrl_some hd with rfl | rfl
  · rw [exec_srst, Host.Outcome.next.injEq] at ht
    exact ht ▸ h.resetRegs
  · rw [exec_clrerr, Host.Outcome.next.injEq] at ht
    exact ht ▸ h.clearError

/-- Settles O54: each thing a step can do (`step_next_cases`) keeps the parts of the invariant. -/
theorem everyStepKeepsTheInvariant : Obligations.EveryStepKeepsTheInvariant := by
  intro s t h ht
  rcases step_next_cases ht with ⟨-, rfl⟩ | ⟨r, rfl, -⟩ | ⟨w, rest, i, -, hR, -, hx⟩ |
    ⟨w, rest, k, -, hR, -, rfl⟩ | ⟨d, rest, i, -, hd, hx⟩ | ⟨c, v, rest, -, rfl⟩ |
    ⟨i, v, rest, -, hi, rfl⟩ | ⟨c, a, b, rest, -, ha, rfl⟩ | ⟨rest, -, rfl⟩
  · exact h
  · exact h.afterHead r
  · exact exec_keeps_blockInv (h.afterHead .okay) hR hx
  · exact (h.afterHead .okay).rejectWith hR.1 k w
  · exact exec_ctrl_keeps_blockInv (h.afterHead .okay) hd hx
  · exact (h.afterHead .okay).writeClen c v
  · exact (h.afterHead .okay).writeSrc hi v
  · exact (h.afterHead .okay).writeCbuf ha b
  · exact (h.afterHead .okay).resetRegs

/-- Settles O53: after reset every engine is as `engineOk_reset` says, and the rest is 0 or empty. -/
theorem invariantHoldsAtReset : Obligations.InvariantHoldsAtReset := by
  refine (blockInv_iff State.reset).mpr ⟨fun c => ?_, arrayOk_of_not_valid rfl,
    recordsOk_of_zero rfl rfl rfl rfl rfl rfl, Memory.wf_nil, Memory.within_nil _⟩
  cases c with
  | fwp => exact engineOk_reset _ .fwp
  | forb => exact engineOk_reset _ .forb
  | mbp => exact engineOk_reset _ .mbp

end Sys2Proof.Machine
end

section
/-! The error records over a step: while an error is pending, a step that runs no reset and no `CTRL`
operation keeps them (rules R24, R25, R128). -/

namespace Sys2Proof.Machine

/-- What a step can do to the error records, from `step_next_cases`. -/
theorem step_records_cases {s t : State} (h : step s = .next t) :
    SameRecords s t ∨ Ready s ∨
    (∃ d rest i, s.script = .regWrite 0x01C 4 d :: rest ∧ decodeCtrl d = some i ∧
      exec i (afterHead .okay s) = .next t) ∨
    (∃ rest, s.script = .hardReset :: rest) := by
  rcases step_next_cases h with ⟨-, rfl⟩ | ⟨r, rfl, -⟩ | ⟨w, rest, i, -, hR, -⟩ |
    ⟨w, rest, k, -, hR, -⟩ | hctrl | ⟨c, v, rest, -, rfl⟩ | ⟨i, v, rest, -, -, rfl⟩ |
    ⟨c, a, b, rest, -, -, rfl⟩ | ⟨rest, hs, -⟩
  · exact .inl ⟨rfl, rfl, rfl, rfl, rfl, rfl⟩
  · exact .inl ⟨rfl, rfl, rfl, rfl, rfl, rfl⟩
  · exact .inr (.inl hR)
  · exact .inr (.inl hR)
  · exact .inr (.inr (.inl hctrl))
  · exact .inl (by simp [SameRecords])
  · exact .inl (by simp [SameRecords])
  · exact .inl (by simp [SameRecords])
  · exact .inr (.inr (.inr ⟨rest, hs⟩))

/-- Settles O16: of the steps of a halted block only a reset or a `CTRL` operation writes a record,
and `clrerr` writes the recoverable one alone. -/
theorem haltIsLeftOnlyByAReset : Obligations.HaltIsLeftOnlyByAReset := by
  intro s t hh h
  rcases step_records_cases h with ⟨-, -, -, h4, h5, h6⟩ | hR | ⟨d, rest, i, hs, hd, hx⟩ | hr
  · exact .inl ⟨h4.trans hh, h5, h6⟩
  · rw [hR.1] at hh
    cases hh
  · rcases decodeCtrl_some hd with rfl | rfl
    · exact .inr (.inr ⟨d, rest, hs, hd⟩)
    · rw [exec_clrerr, Host.Outcome.next.injEq] at hx
      subst hx
      exact .inl ⟨hh, rfl, rfl⟩
  · exact .inr (.inl hr)

/-- Settles O17: with `ERR = 1` commands are dropped, so only a reset or a `CTRL` operation writes
the record. -/
theorem rejectionRecordStaysUntilAcknowledged :
    Obligations.RejectionRecordStaysUntilAcknowledged := by
  intro s t he h
  rcases step_records_cases h with ⟨h1, h2, h3, -⟩ | hR | ⟨d, rest, i, hs, hd, -⟩ | hr
  · exact .inl ⟨h1.trans he, h2, h3⟩
  · rw [hR.2] at he
    cases he
  · exact .inr (.inr ⟨d, rest, i, hs, hd⟩)
  · exact .inr (.inl hr)

end Sys2Proof.Machine
end

section
/-! What a command writes and reads: its own engine only (rules R16, R47, R51). -/

namespace Sys2Proof.Machine

@[simp] theorem addressee_cfgOf (c : Codec) (b : Nat) : addressee (cfgOf c b) = some c := by
  cases c <;> rfl

@[simp] theorem addressee_packOf (c : Codec) (n : Nat) : addressee (packOf c n) = some c := by
  cases c <;> rfl

@[simp] theorem addressee_unpackOf (c : Codec) (n : Nat) : addressee (unpackOf c n) = some c := by
  cases c <;> rfl

@[simp] theorem addressee_atIndex (i : Nat) : addressee (.atIndex i) = some .forb := rfl

/-- The instructions addressed to engine `c`, by shape. -/
theorem addressed_cases {i : Instr} {c : Codec} (h : addressee i = some c) :
    (∃ b, i = cfgOf c b) ∨ (∃ n, i = packOf c n) ∨ (∃ n, i = unpackOf c n) ∨
      (c = .forb ∧ ∃ k, i = .atIndex k) := by
  rcases instr_shape i with ⟨d, b, rfl⟩ | ⟨d, n, rfl⟩ | ⟨d, n, rfl⟩ | ⟨k, rfl⟩ | rfl | rfl | rfl
  · rw [addressee_cfgOf, Option.some.injEq] at h
    exact .inl ⟨b, by rw [h]⟩
  · rw [addressee_packOf, Option.some.injEq] at h
    exact .inr (.inl ⟨n, by rw [h]⟩)
  · rw [addressee_unpackOf, Option.some.injEq] at h
    exact .inr (.inr (.inl ⟨n, by rw [h]⟩))
  · rw [addressee_atIndex, Option.some.injEq] at h
    exact .inr (.inr (.inr ⟨h.symm, k, rfl⟩))
  · cases h
  · cases h
  · cases h

/-- All that an operation of engine `c` may leave: the other engines' records and the source as
they are, and `VALID` and `RDATA` too unless c = FOR. -/
def WritesOnly (c : Codec) (s t : State) : Prop :=
  (∀ d, d ≠ c → t.engine d = s.engine d) ∧ t.src = s.src ∧
    (c ≠ .forb → t.valid = s.valid ∧ t.rdata = s.rdata)

/-- An addressed command writes its own engine only. -/
theorem exec_writesOnly {i : Instr} {c : Codec} {s t : State} (hi : addressee i = some c)
    (h : exec i s = .next t) : WritesOnly c s t := by
  rcases exec_next_cases h with ⟨k, rfl⟩ | rfl | ⟨e, b, rfl, -, -, rfl⟩ | ⟨e, n, rfl, -, -, rfl⟩ |
    ⟨e, n, rfl, -, -, rfl⟩ | ⟨n, rfl, -, -, -, rfl⟩ | ⟨rfl, -⟩ | ⟨rfl, -⟩ | ⟨rfl, -⟩
  · exact ⟨fun d _ => rejectWith_engine k _ s d, rfl, fun _ => ⟨rfl, rfl⟩⟩
  · exact ⟨fun d _ => haltWith_engine _ _ s d, rfl, fun _ => ⟨rfl, rfl⟩⟩
  · obtain rfl : e = c := by simpa using hi
    exact ⟨fun d hd => by simp [hd], by simp, fun hc => by simp [invalidate_valid, hc]⟩
  · obtain rfl : e = c := by simpa using hi
    exact ⟨packed_engine_ne e n s, by simp, fun hc => by simp [packed_valid, hc]⟩
  · obtain rfl : e = c := by simpa using hi
    exact ⟨unpacked_engine_ne e n s, by simp, fun hc => by simp [unpacked_valid, hc]⟩
  · obtain rfl : Codec.forb = c := by simpa using hi
    exact ⟨fun d _ => by cases d <;> rfl, rfl, fun hc => absurd rfl hc⟩
  · cases hi
  · cases hi
  · cases hi

/-- Settles O35, from `exec_writesOnly`. -/
theorem enginesShareNoMutableState : Obligations.EnginesShareNoMutableState := by
  intro i c s t hi h
  obtain ⟨hd, hs, hv⟩ := exec_writesOnly hi h
  exact ⟨fun d hdc => sameEngine_of_engine_eq (hd d hdc),
    fun k => by simp only [State.srcElem, hs], hv⟩

/-! ### Two states that agree on what a command may read -/

/-- The states agree on engine `c`, the source, `VALID` and the parameters (rule R47). -/
structure Agree (c : Codec) (s s' : State) : Prop where
  engine : s'.engine c = s.engine c
  src : ∀ k, s'.srcElem k = s.srcElem k
  valid : s'.valid = s.valid
  params : s'.params = s.params

section
variable {c : Codec} {s s' : State}

theorem Agree.widthOf (h : Agree c s s') : s'.widthOf c = s.widthOf c := by
  simp only [State.widthOf, h.engine]

theorem Agree.cbufByte (h : Agree c s s') : s'.cbufByte c = s.cbufByte c := by
  funext a
  simp only [State.cbufByte, h.engine]

theorem Agree.srcPrefix (h : Agree c s s') (n : Nat) : srcPrefix n s' = srcPrefix n s :=
  List.map_congr_left fun k _ => h.src k

theorem Agree.srcFits (h : Agree c s s') (n b : Nat) : srcFits n b s' = srcFits n b s := by
  simp only [Machine.srcFits, h.src]

theorem Agree.atCheck (h : Agree .forb s s') (i : Nat) : atCheck i s' = atCheck i s := by
  have hf : s'.forb = s.forb := h.engine
  simp only [Machine.atCheck, hf, h.valid]

end

/-- The next states `t` of `s` and `t'` of `s'` tell the same: the same completion, or the same
error of the same tier. -/
def SameEffect (i : Instr) (s s' t t' : State) : Prop :=
  (SameRecords s t ∧ SameRecords s' t' ∧
      ((∃ k, i = .atIndex k) → t'.rdata = t.rdata) ∧
      ((∀ k, i ≠ .atIndex k) → t.rdata = s.rdata ∧ t'.rdata = s'.rdata)) ∨
    (∃ code w, t = { s with err := true, ecause := code, einfo := w } ∧
      t' = { s' with err := true, ecause := code, einfo := w }) ∨
    (∃ code w, t = { s with halt := true, fcause := code, finfo := w } ∧
      t' = { s' with halt := true, fcause := code, finfo := w })

/-- The outcomes `o` from `s` and `o'` from `s'` of command `i` to engine `c` are alike. -/
def RunsAlike (i : Instr) (c : Codec) (s s' : State)
    (o o' : Host.Outcome State Fault Refusal) : Prop :=
  (∀ t, o = .next t → ∃ t', o' = .next t' ∧ t'.engine c = t.engine c ∧ t'.valid = t.valid ∧
      SameEffect i s s' t t') ∧
    (∀ r, o = .refused r → o' = .refused r)

section
variable {i : Instr} {c : Codec} {s s' : State}

theorem runsAlike_next {t t' : State} (he : t'.engine c = t.engine c) (hv : t'.valid = t.valid)
    (hx : SameEffect i s s' t t') : RunsAlike i c s s' (.next t) (.next t') := by
  refine ⟨fun u hu => ?_, fun r hr => by cases hr⟩
  rw [Host.Outcome.next.injEq] at hu
  subst hu
  exact ⟨t', rfl, he, hv, hx⟩

theorem runsAlike_refused (r : Refusal) : RunsAlike i c s s' (.refused r) (.refused r) :=
  ⟨fun t ht => (by cases ht), fun _ hr => hr⟩

/-- One check decides for both runs: alike bodies run alike under it. -/
theorem RunsAlike.guarded {o o' : Host.Outcome State Fault Refusal} (h : Agree c s s')
    (ho : RunsAlike i c s s' o o') (ck : Check) (w : Word) :
    RunsAlike i c s s' (guarded ck w s o) (guarded ck w s' o') := by
  cases ck with
  | pass => exact ho
  | reject k =>
    exact runsAlike_next (by simp [h.engine]) h.valid
      (.inr (.inl ⟨rejectCode k, w, rfl, rfl⟩))
  | halt k =>
    exact runsAlike_next (by simp [h.engine]) h.valid
      (.inr (.inr ⟨fatalCode k, w, rfl, rfl⟩))

/-- A completion that leaves the records and `RDATA`, of a command other than `at`. -/
theorem sameEffect_of_frame {t t' : State} (hi : ∀ k, i ≠ .atIndex k) (h : SameRecords s t)
    (h' : SameRecords s' t') (hr : t.rdata = s.rdata) (hr' : t'.rdata = s'.rdata) :
    SameEffect i s s' t t' :=
  .inl ⟨h, h', fun ⟨k, hk⟩ => absurd hk (hi k), fun _ => ⟨hr, hr'⟩⟩

theorem cfgOf_ne_atIndex (c : Codec) (b k : Nat) : cfgOf c b ≠ .atIndex k := by
  cases c <;> simp [cfgOf]

theorem packOf_ne_atIndex (c : Codec) (n k : Nat) : packOf c n ≠ .atIndex k := by
  cases c <;> simp [packOf]

theorem unpackOf_ne_atIndex (c : Codec) (n k : Nat) : unpackOf c n ≠ .atIndex k := by
  cases c <;> simp [unpackOf]

theorem runsAlike_cfgOf (h : Agree c s s') (b : Nat) :
    RunsAlike (cfgOf c b) c s s' (exec (cfgOf c b) s) (exec (cfgOf c b) s') := by
  rw [exec_cfgOf, exec_cfgOf]
  refine RunsAlike.guarded h (runsAlike_next ?_ ?_ ?_) _ _
  · simp [h.engine]
  · simp [invalidate_valid, h.valid]
  · exact sameEffect_of_frame (cfgOf_ne_atIndex c b) (by simp [SameRecords])
      (by simp [SameRecords]) (by simp) (by simp)

theorem runsAlike_packOf (h : Agree c s s') (n : Nat) :
    RunsAlike (packOf c n) c s s' (exec (packOf c n) s) (exec (packOf c n) s') := by
  rw [exec_packOf, exec_packOf, countCheck_congr c n h.engine h.params, h.widthOf, h.srcFits]
  refine RunsAlike.guarded h ?_ _ _
  split
  · refine runsAlike_next ?_ ?_ ?_
    · rw [packed_engine, packed_engine, h.engine, h.widthOf, h.srcPrefix]
    · rw [packed_valid, packed_valid, h.valid]
    · exact sameEffect_of_frame (packOf_ne_atIndex c n) (by simp [SameRecords])
        (by simp [SameRecords]) (by simp) (by simp)
  · exact runsAlike_refused _

theorem runsAlike_unpackOf (h : Agree c s s') (n : Nat) :
    RunsAlike (unpackOf c n) c s s' (exec (unpackOf c n) s) (exec (unpackOf c n) s') := by
  rw [exec_unpackOf, exec_unpackOf, unpackCheck_congr c n h.engine h.params]
  refine RunsAlike.guarded h (runsAlike_next ?_ ?_ ?_) _ _
  · rw [unpacked_engine, unpacked_engine, h.engine, h.widthOf, h.cbufByte]
  · rw [unpacked_valid, unpacked_valid, h.valid]
  · exact sameEffect_of_frame (unpackOf_ne_atIndex c n) (by simp [SameRecords])
      (by simp [SameRecords]) (by simp) (by simp)

theorem runsAlike_atIndex (h : Agree .forb s s') (k : Nat) :
    RunsAlike (.atIndex k) .forb s s' (exec (.atIndex k) s) (exec (.atIndex k) s') := by
  rw [exec_atIndex, exec_atIndex, h.atCheck]
  refine RunsAlike.guarded h (runsAlike_next ?_ ?_ (.inl ⟨?_, ?_, fun _ => ?_, ?_⟩)) _ _
  · exact h.engine
  · exact h.valid
  · exact ⟨rfl, rfl, rfl, rfl, rfl, rfl⟩
  · exact ⟨rfl, rfl, rfl, rfl, rfl, rfl⟩
  · simp only [State.dbufElem, h.engine]
  · exact fun hk => absurd rfl (hk k)

end

/-- Settles O36: each shape of command runs alike from two states that agree. -/
theorem commandsReadOnlyTheirOwnEngine : Obligations.CommandsReadOnlyTheirOwnEngine := by
  intro i c s s' hi he hs hv hp
  have h : Agree c s s' := ⟨he, hs, hv, hp⟩
  rcases addressed_cases hi with ⟨b, rfl⟩ | ⟨n, rfl⟩ | ⟨n, rfl⟩ | ⟨rfl, k, rfl⟩
  · exact runsAlike_cfgOf h b
  · exact runsAlike_packOf h n
  · exact runsAlike_unpackOf h n
  · exact runsAlike_atIndex h k

/-! ### An unpack reads below `CLEN` -/

/-- Bytes that agree below `ceil(B × n / 8)` decode to the same elements 0 to n − 1. -/
theorem extract_congr_of_bytes {f g : Nat → Byte} {b n i : Nat}
    (h : ∀ a, a < ceilDiv8 (b * n) → f a = g a) (hi : i < n) : extract f b i = extract g b i := by
  refine extract_congr f g b i fun k _ hk => ?_
  have hbits : k < b * n := by
    calc k < i * b + b := hk
      _ = (i + 1) * b := by ring
      _ ≤ n * b := Nat.mul_le_mul_right b hi
      _ = b * n := Nat.mul_comm n b
  rw [bitOf, bitOf, h]
  rw [lt_ceilDiv8_iff, Nat.shiftRight_eq_div_pow]
  omega

theorem unpackedElems_getD_congr {c : Codec} {f g : Nat → Byte} {b n i : Nat}
    (hm : c = .mbp → n % mbsz = 0) (h : ∀ a, a < ceilDiv8 (b * n) → f a = g a) (hi : i < n) :
    (unpackedElems c f b n).getD i 0 = (unpackedElems c g b n).getD i 0 := by
  by_cases hc : c = .forb
  · subst hc
    rw [unpackedElems_forb_getD _ _ _ _ hi, unpackedElems_forb_getD _ _ _ _ hi,
      extractSum_congr f g b (i + 1) fun j hj => extract_congr_of_bytes h (by omega)]
  · rw [unpackedElems_getD _ _ _ _ _ hc hm hi, unpackedElems_getD _ _ _ _ _ hc hm hi,
      extract_congr_of_bytes h hi]

theorem CountOk.congr {c : Codec} {n : Nat} {s s' : State} (h : CountOk c n s)
    (hr : SameRegs c s s') (hp : s'.params = s.params) : CountOk c n s' := by
  unfold CountOk
  rw [hr.2.1, hp]
  exact h

theorem unpacked_dbufElem_lt {c : Codec} {n i : Nat} {s : State} (h : CountOk c n s)
    (hi : i < n) : (unpacked c n s).dbufElem c i =
      (unpackedElems c (s.cbufByte c) (s.widthOf c) n).getD i 0 := by
  rw [unpacked_dbufElem, unpackedElems_length _ _ _ _ h.miniBlocks, if_pos hi]

/-- Settles O37: the elements come from the first `ceil(B × n / 8)` bytes, which the Underrun check
keeps below `CLEN`. -/
theorem unpackReadsOnlyBelowClen : Obligations.UnpackReadsOnlyBelowClen := by
  intro c n s s' t t' hr hp hbytes hc hb ht ht' i hi
  have hc' : CountOk c n s' := hc.congr hr hp
  obtain ⟨hw, -, hl, -⟩ := hr
  have hwidth : s'.widthOf c = s.widthOf c := congrArg BitVec.toNat hw
  have hb' : EnoughBytes c n s' := by rw [EnoughBytes, hwidth, hl]; exact hb
  rw [exec_unpackOf_completes c n s hc hb, Host.Outcome.next.injEq] at ht
  rw [exec_unpackOf_completes c n s' hc' hb', Host.Outcome.next.injEq] at ht'
  subst ht ht'
  rw [unpacked_dbufElem_lt hc hi, unpacked_dbufElem_lt hc' hi, hwidth]
  exact unpackedElems_getD_congr hc.miniBlocks (fun a ha => hbytes a (lt_of_lt_of_le ha hb)) hi

end Sys2Proof.Machine
end

section
/-! The register file (rules R27 to R34): which register an offset reaches, and what each one reads
as, bit by bit where it has fields. -/

namespace Sys2Proof.Machine

/-! ### Reads -/

/-- A read of the register at an offset answers with it and changes nothing else. -/
theorem step_regRead_of_reg {s : State} {rest : List Transaction} {off size : Nat} {r : Reg}
    (h : s.script = .regRead off size :: rest) (hr : regAt? off size = some r) :
    step s = .next (afterHead (.word (readReg r s)) s) := by
  simp only [step_regRead h, hr, readReg_popScript]

/-- An access that reaches no register is answered `ERROR` (rules R33, R43, R44). -/
theorem step_regRead_of_bad {s : State} {rest : List Transaction} {off size : Nat}
    (h : s.script = .regRead off size :: rest) (hr : regAt? off size = none) :
    step s = .next (afterHead .error s) := by
  simp only [step_regRead h, hr]

theorem step_regWrite_of_bad {s : State} {rest : List Transaction} {off size : Nat} {d : Word}
    (h : s.script = .regWrite off size d :: rest) (hr : regAt? off size = none) :
    step s = .next (afterHead .error s) := by
  simp only [step_regWrite h, hr]

/-! ### The fields of `STATUS` and `CSTAT` -/

theorem statusWord_toNat (s : State) :
    (statusWord s).toNat = s.err.toNat + 2 * s.halt.toNat := by
  rw [statusWord, BitVec.toNat_ofNat, Nat.shiftLeft_eq]
  cases s.err <;> cases s.halt <;> rfl

/-- Rule R28: `ERR` is bit 0, `HALT` is bit 1, and bits 31:2 are 0. -/
theorem statusWord_fields (s : State) :
    (statusWord s).getLsbD 0 = s.err ∧ (statusWord s).getLsbD 1 = s.halt ∧
      (statusWord s).toNat / 4 = 0 := by
  rw [← BitVec.testBit_toNat, ← BitVec.testBit_toNat, statusWord_toNat]
  cases s.err <;> cases s.halt <;> decide

theorem cstatWord_toNat (c : Codec) (s : State) :
    (cstatWord c s).toNat =
      s.widthOf c + 2 ^ 8 * (s.engine c).cfgd.toNat + 2 ^ 9 * (s.validOf c).toNat := by
  have hw : s.widthOf c < 64 := widthOf_lt s c
  have h1 : (s.engine c).cfgd.toNat ≤ 1 := Bool.toNat_le _
  have h2 : (s.validOf c).toNat ≤ 1 := Bool.toNat_le _
  rw [cstatWord, BitVec.toNat_ofNat, Nat.shiftLeft_eq, Nat.shiftLeft_eq]
  omega

theorem validOf_eq (c : Codec) (s : State) :
    s.validOf c = if c = .forb then s.valid else false := by cases c <;> rfl

/-! A field of a register word, from the number the word is. -/

theorem getLsbD_eq_of_div_mod {v : Word} {k : Nat} {b : Bool} (h : v.toNat / 2 ^ k % 2 = b.toNat) :
    v.getLsbD k = b := by
  rw [← BitVec.testBit_toNat, Nat.testBit_eq_decide_div_mod_eq, h]
  cases b <;> rfl

theorem extractLsb'_eq_of_div_mod {v : Word} {k n : Nat} {x : BitVec n}
    (h : v.toNat / 2 ^ k % 2 ^ n = x.toNat) : v.extractLsb' k n = x :=
  BitVec.eq_of_toNat_eq (by rw [BitVec.extractLsb'_toNat, Nat.shiftRight_eq_div_pow, h])

/-- Rule R30: `WIDTH` is bits 5:0, `CFGD` bit 8, `VALID` bit 9, and every other bit is 0. -/
theorem cstatWord_fields (c : Codec) (s : State) :
    (cstatWord c s).extractLsb' 0 6 = (s.engine c).width ∧
      (cstatWord c s).extractLsb' 6 2 = 0 ∧
      (cstatWord c s).getLsbD 8 = (s.engine c).cfgd ∧
      (cstatWord c s).getLsbD 9 = s.validOf c ∧ (cstatWord c s).extractLsb' 10 22 = 0 := by
  have hv := cstatWord_toNat c s
  have hw : s.widthOf c < 64 := widthOf_lt s c
  have h1 : (s.engine c).cfgd.toNat ≤ 1 := Bool.toNat_le _
  have h2 : (s.validOf c).toNat ≤ 1 := Bool.toNat_le _
  refine ⟨extractLsb'_eq_of_div_mod ?_, extractLsb'_eq_of_div_mod ?_, getLsbD_eq_of_div_mod ?_,
    getLsbD_eq_of_div_mod ?_, extractLsb'_eq_of_div_mod ?_⟩ <;> rw [hv]
  · change _ = s.widthOf c
    omega
  · change _ = 0
    omega
  · omega
  · omega
  · change _ = 0
    omega

/-! ### The constants of the parameters -/

theorem ccap_eq (p : Params) (c : Codec) : ccap p c = (if c = .mbp then 4 else 7) * p.nMax := by
  cases c <;> rfl

/-- `N_MAX` fits its register (rule R8). -/
theorem nMax_toNat (p : Params) : (BitVec.ofNat 32 p.nMax).toNat = p.nMax := by
  rw [BitVec.toNat_ofNat]
  exact Nat.mod_eq_of_lt (lt_trans (nMax_lt p) (by decide))

theorem ccap_toNat (p : Params) (c : Codec) : (BitVec.ofNat 32 (ccap p c)).toNat = ccap p c := by
  have hn := nMax_lt p
  rw [BitVec.toNat_ofNat]
  apply Nat.mod_eq_of_lt
  cases c <;> simp only [ccap] <;> omega

theorem setWidth_toNat_of_code (k : BitVec 4) : (k.setWidth 32).toNat = k.toNat :=
  BitVec.toNat_setWidth_of_le (by decide)

/-- Settles O45: each offset reaches its register, which reads as the state. -/
theorem globalRegistersReadTheState : Obligations.GlobalRegistersReadTheState := by
  intro s off rest h
  refine ⟨?_, ?_, ?_, ?_, ?_, ?_, ?_, ?_, ?_⟩
  · rintro rfl
    exact step_regRead_of_reg (r := .id) h rfl
  · rintro rfl
    exact ⟨statusWord s, step_regRead_of_reg (r := .status) h rfl, statusWord_fields s⟩
  · rintro rfl
    exact ⟨_, step_regRead_of_reg (r := .ecause) h rfl, setWidth_toNat_of_code s.ecause⟩
  · rintro rfl
    exact step_regRead_of_reg (r := .einfo) h rfl
  · rintro rfl
    exact ⟨_, step_regRead_of_reg (r := .fcause) h rfl, setWidth_toNat_of_code s.fcause⟩
  · rintro rfl
    exact step_regRead_of_reg (r := .finfo) h rfl
  · rintro rfl
    refine ⟨_, step_regRead_of_reg (r := .rdataLo) h rfl, ?_⟩
    simp only [readReg, BitVec.extractLsb'_toNat, Nat.shiftRight_zero]
  · rintro rfl
    refine ⟨_, step_regRead_of_reg (r := .rdataHi) h rfl, ?_⟩
    have := s.rdata.isLt
    simp only [readReg, BitVec.extractLsb'_toNat, Nat.shiftRight_eq_div_pow]
    omega
  · rintro rfl
    exact ⟨_, step_regRead_of_reg (r := .nmax) h rfl, nMax_toNat s.params⟩

theorem capsWord_eq (p : Params) (c : Codec) :
    capsWord p c = (if c = .mbp then 0x10202001
      else 0x00003801 ||| (BitVec.ofNat 32 p.gFixed <<< 16) : Word) := by
  by_cases h : c = .mbp
  · rw [if_pos h, h, capsWord_mbp]
  · rw [if_neg h, capsWord_fixed p c h]

/-- The five registers of the bank of engine `c`, at their offsets of rule R27. -/
theorem regAt?_bank (c : Codec) :
    regAt? (0x040 + 0x20 * codecIndex c + 0x00) 4 = some (.cstat c) ∧
    regAt? (0x040 + 0x20 * codecIndex c + 0x04) 4 = some (.caps c) ∧
    regAt? (0x040 + 0x20 * codecIndex c + 0x08) 4 = some (.clen c) ∧
    regAt? (0x040 + 0x20 * codecIndex c + 0x0C) 4 = some (.dcnt c) ∧
    regAt? (0x040 + 0x20 * codecIndex c + 0x10) 4 = some (.ccap c) := by
  cases c <;> decide

/-- Settles O46: each offset of the bank reaches its register, which reads as the engine. -/
theorem bankRegistersReadTheEngine : Obligations.BankRegistersReadTheEngine := by
  intro s c off rest h
  obtain ⟨hstat, hcaps, hclen, hdcnt, hccap⟩ := regAt?_bank c
  refine ⟨?_, ?_, ?_, ?_, ?_⟩
  · rintro rfl
    refine ⟨cstatWord c s, step_regRead_of_reg h hstat, ?_⟩
    rw [← validOf_eq]
    exact cstatWord_fields c s
  · rintro rfl
    rw [step_regRead_of_reg h hcaps, readReg, capsWord_eq]
  · rintro rfl
    exact step_regRead_of_reg h hclen
  · rintro rfl
    exact step_regRead_of_reg h hdcnt
  · rintro rfl
    refine ⟨_, step_regRead_of_reg h hccap, ?_⟩
    rw [readReg, ccap_toNat, ccap_eq]

/-! ### Writes, and registers with nothing to read -/

/-- Every register but `CMD`, `CTRL` and the three `CLEN` ignores a write (rule R33). -/
theorem writeReg_plain {r : Reg} (d : Word) (s : State) (h1 : r ≠ .cmd) (h2 : r ≠ .ctrl)
    (h3 : ∀ c, r ≠ .clen c) : writeReg r d s = .next s := by
  cases r with
  | cmd => exact absurd rfl h1
  | ctrl => exact absurd rfl h2
  | clen c => exact absurd rfl (h3 c)
  | _ => rfl

/-- The offsets of the three `CLEN`. -/
theorem off_of_clen_mem {off : Nat} {c : Codec}
    (h : (regMap.lookup off).getD .reserved = .clen c) : off ∈ [0x048, 0x068, 0x088] := by
  rw [off_of_clen h]
  cases c <;> decide

theorem step_regWrite_plain {s : State} {rest : List Transaction} {off : Nat} {d : Word}
    (h : s.script = .regWrite off 4 d :: rest) (h1 : off % 4 = 0) (h2 : off < 0x0C0)
    (h3 : off ∉ [0x004, 0x01C, 0x048, 0x068, 0x088]) : step s = .next (afterHead .okay s) := by
  simp only [step_regWrite h, regAt?_of_good h1 h2]
  refine writeReg_plain _ _ (fun hr => h3 ?_) (fun hr => h3 ?_) (fun c hr => h3 ?_)
  · rw [off_of_cmd hr]; decide
  · rw [off_of_ctrl hr]; decide
  · exact List.mem_of_mem_drop (i := 2) (off_of_clen_mem hr)

/-- The offsets of `CMD`, of `CTRL` and of the gaps of the map of rule R27. -/
def ReadsZero (off : Nat) : Prop :=
  off = 0x004 ∨ off = 0x01C ∨ (0x02C ≤ off ∧ off ≤ 0x03C) ∨
    (0x040 ≤ off ∧ off < 0x0A0 ∧ 0x14 ≤ off % 0x20) ∨ 0x0A0 ≤ off

theorem regMap_readsZero :
    ∀ p ∈ regMap, ReadsZero p.1 → p.2 = .cmd ∨ p.2 = .ctrl := by
  unfold ReadsZero
  decide

/-- A write-only register and a reserved offset read 0 (rule R33). -/
theorem readReg_of_readsZero {off : Nat} (h : ReadsZero off) (s : State) :
    readReg ((regMap.lookup off).getD .reserved) s = 0 := by
  by_cases hr : (regMap.lookup off).getD .reserved = .reserved
  · rw [hr, readReg]
  · rcases regMap_readsZero _ (mem_regMap rfl hr) h with hc | hc
    · rw [show (regMap.lookup off).getD .reserved = .cmd from hc, readReg]
    · rw [show (regMap.lookup off).getD .reserved = .ctrl from hc, readReg]

/-- Settles O47: ignored writes, reads of 0, bad accesses, and that no read changes anything. -/
theorem registerAccessCornerCases : Obligations.RegisterAccessCornerCases := by
  intro s off size d rest
  refine ⟨?_, ?_, ?_, fun h => ?_⟩
  · rintro rfl h1 h2 h3 h
    exact step_regWrite_plain h h1 h2 h3
  · rintro rfl h1 h2 h3 h
    rw [step_regRead_of_reg h (regAt?_of_good h1 h2), readReg_of_readsZero h3]
  · rintro hbad (h | h)
    · exact step_regRead_of_bad h (regAt?_of_bad hbad)
    · exact step_regWrite_of_bad h (regAt?_of_bad hbad)
  · cases hr : regAt? off size with
    | some r => exact ⟨_, step_regRead_of_reg h hr⟩
    | none => exact ⟨_, step_regRead_of_bad h hr⟩

/-- Settles O48: up to `CCAP` the write is `writeClen_accepted`, above it `writeClen_ignored`. -/
theorem clenWriteIsBoundedByCcap : Obligations.ClenWriteIsBoundedByCcap := by
  intro s c v rest h
  rw [← ccap_eq, step_clen h]
  refine ⟨fun hv => ?_, fun hv => ?_⟩
  · rw [writeClen_accepted c v (afterHead .okay s) hv]
    refine ⟨_, rfl, by simp, by simp [invalidate_valid], by simp, by simp, fun d hd => ?_,
      fun i => by simp, by simp [SameRecords], by simp, by simp [h]⟩
    exact sameEngine_of_engine_eq (by simp [hd])
  · rw [writeClen_ignored c v (afterHead .okay s) hv]

end Sys2Proof.Machine
end

section
/-! The state after reset (rule R38). -/

namespace Sys2Proof.Machine

theorem reset_engine (c : Codec) : State.reset.engine c = .reset := by cases c <;> rfl

/-- Settles O34: every engine starts as `Engine.reset`, whose buffers hold no written place. -/
theorem resetStateHasTheResetValues : Obligations.ResetStateHasTheResetValues := by
  refine ⟨fun c => ?_, fun i => rfl, rfl, rfl, rfl, rfl, rfl, rfl, rfl, rfl⟩
  have hc : ∀ a, State.reset.cbufByte c a = Config.powerOnCbuf c a := fun a => by
    rw [State.cbufByte, reset_engine]; rfl
  have hd : ∀ i, State.reset.dbufElem c i = Config.powerOnDbuf c i := fun i => by
    rw [State.dbufElem, reset_engine]; rfl
  rw [reset_engine]
  exact ⟨rfl, rfl, rfl, rfl, hc, hd⟩

end Sys2Proof.Machine
end

section
/-! The buffers of the host (20_memory.md): what a read answers, what a write leaves, the accesses
outside a space, and the byte views. -/

namespace Sys2Proof.Machine

/-! ### Reads -/

/-- Settles O49: inside its space each of the three reads answers with the place, rule R40. -/
theorem bufferReadsReturnTheContents : Obligations.BufferReadsReturnTheContents := by
  intro s c k rest
  refine ⟨fun h hk => ?_, fun h hk => ?_, fun h hk => ?_⟩
  · rw [step_srcRead h, if_pos hk]
  · rw [← ccap_eq] at hk
    rw [step_cbufRead h, if_pos hk]
  · rw [step_dbufRead h, if_pos hk]

/-! ### Writes -/

@[simp] theorem writeSrc_engine (i : Nat) (v : Word) (s : State) (c : Codec) :
    (writeSrc i v s).engine c = s.engine c := by cases c <;> rfl

/-- Settles O50: the place written and the others by `writeSrc_srcElem` and `writeCbuf_cbufByte`,
the rest because the two writes touch `SRC`, or `CBUF[c]` and `VALID`, alone. -/
theorem bufferWritesStoreOnePlace : Obligations.BufferWritesStoreOnePlace := by
  intro s c k v b rest
  refine ⟨fun h hk => ?_, fun h hk => ?_⟩
  · refine ⟨writeSrc k v (afterHead .okay s), by rw [step_srcWrite h, if_pos hk], ?_,
      fun i hi => ?_, fun d => ?_, rfl, rfl, by simp [SameRecords], rfl, by simp [h], rfl⟩
    · rw [writeSrc_srcElem, if_pos rfl]
    · rw [writeSrc_srcElem, if_neg hi.symm, afterHead_srcElem]
    · exact sameEngine_of_engine_eq (by simp)
  · rw [← ccap_eq] at hk
    refine ⟨writeCbuf c k b (afterHead .okay s), by rw [step_cbufWrite h, if_pos hk], ?_,
      fun a ha => ?_, ?_, fun i => ?_, fun d hd => ?_, fun i => ?_, ?_, by simp,
      by simp [SameRecords], by simp, by simp [h], by simp⟩
    · simp [writeCbuf_cbufByte]
    · simp [writeCbuf_cbufByte, ha.symm]
    · simp [SameRegs]
    · rw [writeCbuf_dbufElem, afterHead_dbufElem]
    · exact sameEngine_of_engine_eq (by simp [hd])
    · simp [State.srcElem]
    · rw [writeCbuf_valid, afterHead_valid]

/-! ### Accesses outside a space -/

/-- Rule R11: the engine numbers are 0 to 2, and no other number has an engine. -/
theorem codecNumber_cases (c : Nat) :
    (3 ≤ c ∧ codecOfNat? c = none) ∨ ∃ e, c = codecIndex e ∧ c < 3 := by
  match c with
  | 0 => exact .inr ⟨.fwp, rfl, by decide⟩
  | 1 => exact .inr ⟨.forb, rfl, by decide⟩
  | 2 => exact .inr ⟨.mbp, rfl, by decide⟩
  | c + 3 => exact .inl ⟨Nat.le_add_left 3 c, rfl⟩

/-- Outside the compressed buffers: no engine has the number, or the byte is beyond its `CCAP`
(rules R8, R18). -/
theorem cbuf_outside_cases {p : Params} {c a : Nat}
    (h : 3 ≤ c ∨ (if c = 2 then 4 else 7) * p.nMax ≤ a) :
    codecOfNat? c = none ∨ ∃ e, c = codecIndex e ∧ ccap p e ≤ a := by
  obtain ⟨-, hnone⟩ | ⟨e, rfl, hlt⟩ := codecNumber_cases c
  · exact .inl hnone
  · have ha := h.resolve_left (Nat.not_le.mpr hlt)
    exact .inr ⟨e, rfl, by cases e <;> exact ha⟩

section
variable {s : State} {rest : List Transaction} {c a : Nat}

theorem step_cbufRead_of_outside (h : s.script = .cbufRead c a :: rest)
    (hout : 3 ≤ c ∨ (if c = 2 then 4 else 7) * s.params.nMax ≤ a) :
    step s = .next (afterHead .error s) := by
  obtain hnone | ⟨e, rfl, ha⟩ := cbuf_outside_cases hout
  · rw [step_cons h, perform, cbufRead, hnone]
    rfl
  · rw [step_cbufRead h, if_neg (Nat.not_lt.mpr ha)]

theorem step_cbufWrite_of_outside {b : Byte} (h : s.script = .cbufWrite c a b :: rest)
    (hout : 3 ≤ c ∨ (if c = 2 then 4 else 7) * s.params.nMax ≤ a) :
    step s = .next (afterHead .error s) := by
  obtain hnone | ⟨e, rfl, ha⟩ := cbuf_outside_cases hout
  · rw [step_cons h, perform, cbufWrite, hnone]
    rfl
  · rw [step_cbufWrite h, if_neg (Nat.not_lt.mpr ha)]

theorem step_dbufRead_of_outside (h : s.script = .dbufRead c a :: rest)
    (hout : 3 ≤ c ∨ s.params.nMax ≤ a) : step s = .next (afterHead .error s) := by
  obtain ⟨-, hnone⟩ | ⟨e, rfl, hlt⟩ := codecNumber_cases c
  · rw [step_cons h, perform, dbufRead, hnone]
    rfl
  · have ha := hout.resolve_left (Nat.not_le.mpr hlt)
    rw [step_dbufRead h, if_neg (Nat.not_lt.mpr ha)]

end

/-- Settles O51, by the head of the script. -/
theorem accessesOutsideASpaceAnswerError : Obligations.AccessesOutsideASpaceAnswerError := by
  intro s x rest h hout
  cases x with
  | regRead off size => exact step_regRead_of_bad h (regAt?_of_bad (.inr (.inr hout)))
  | regWrite off size d => exact step_regWrite_of_bad h (regAt?_of_bad (.inr (.inr hout)))
  | srcRead i => rw [step_srcRead h, if_neg (Nat.not_lt.mpr hout)]
  | srcWrite i v => rw [step_srcWrite h, if_neg (Nat.not_lt.mpr hout)]
  | cbufRead c a => exact step_cbufRead_of_outside h hout
  | cbufWrite c a b => exact step_cbufWrite_of_outside h hout
  | dbufRead c i => exact step_dbufRead_of_outside h hout
  | hardReset => exact hout.elim

/-! ### The byte views -/

/-- Byte `k` of element `i` of the window of `SRC`, rule R42. -/
theorem srcWindowByte_eq (s : State) (i : Nat) {k : Nat} (hk : k < 4) :
    s.srcWindowByte (4 * i + k) = (s.srcElem i).extractLsb' (8 * k) 8 := by
  have hdiv : (4 * i + k) / 4 = i := by omega
  have hmod : (4 * i + k) % 4 = k := by omega
  rw [State.srcWindowByte, hdiv, hmod]

/-- Byte `k` of element `i` of the window of `DBUF[c]`, rule R42. -/
theorem dbufWindowByte_eq (s : State) (c : Codec) (i : Nat) {k : Nat} (hk : k < 8) :
    s.dbufWindowByte c (8 * i + k) = (s.dbufElem c i).extractLsb' (8 * k) 8 := by
  have hdiv : (8 * i + k) / 8 = i := by omega
  have hmod : (8 * i + k) % 8 = k := by omega
  rw [State.dbufWindowByte, hdiv, hmod]

/-- A word is its four bytes, the least significant first. -/
theorem word_toNat_eq_bytes (v : Word) :
    v.toNat = (v.extractLsb' 0 8).toNat + 2 ^ 8 * (v.extractLsb' 8 8).toNat +
      2 ^ 16 * (v.extractLsb' 16 8).toNat + 2 ^ 24 * (v.extractLsb' 24 8).toNat := by
  have hv := v.isLt
  simp only [BitVec.extractLsb'_toNat, Nat.shiftRight_eq_div_pow]
  omega

/-- Settles O52: the window bytes of an element are its bytes, in rising order. -/
theorem elementWindowsAreLittleEndian : Obligations.ElementWindowsAreLittleEndian := by
  intro s c i
  refine ⟨?_, fun k hk => dbufWindowByte_eq s c i hk⟩
  have h0 : s.srcWindowByte (4 * i) = (s.srcElem i).extractLsb' 0 8 :=
    srcWindowByte_eq s i (k := 0) (by decide)
  rw [h0, srcWindowByte_eq s i (k := 1) (by decide), srcWindowByte_eq s i (k := 2) (by decide),
    srcWindowByte_eq s i (k := 3) (by decide)]
  exact word_toNat_eq_bytes (s.srcElem i)

end Sys2Proof.Machine
end

section
/-! The words of the instructions, by shape (rules R53, R57): what each shape encodes to and which
words match its row; the decoder of `CMD` is the inverse of the encoder. -/

namespace Sys2Proof

open Machine (cfgOf packOf unpackOf codecIndex instr_shape)

/-! ### The words of each shape -/

theorem codecIndex_lt (c : Codec) : codecIndex c < 3 := by cases c <;> decide

theorem exists_codecIndex {cs : Nat} (h : cs < 3) : ∃ c, codecIndex c = cs := by
  match cs with
  | 0 => exact ⟨.fwp, rfl⟩
  | 1 => exact ⟨.forb, rfl⟩
  | 2 => exact ⟨.mbp, rfl⟩

section
variable (c : Codec) (k : Nat)

@[simp] theorem encode_cfgOf : encode (cfgOf c k) = commandWord 1 (codecIndex c) k := by
  cases c <;> rfl

@[simp] theorem encode_packOf : encode (packOf c k) = commandWord 2 (codecIndex c) k := by
  cases c <;> rfl

@[simp] theorem encode_unpackOf : encode (unpackOf c k) = commandWord 3 (codecIndex c) k := by
  cases c <;> rfl

theorem selectInstr_cfg : selectInstr 1 (codecIndex c) k = some (cfgOf c k) := by cases c <;> rfl

theorem selectInstr_pack : selectInstr 2 (codecIndex c) k = some (packOf c k) := by
  cases c <;> rfl

theorem selectInstr_unpack : selectInstr 3 (codecIndex c) k = some (unpackOf c k) := by
  cases c <;> rfl

@[simp] theorem port_cfgOf : (cfgOf c k).port = .cmd := by cases c <;> rfl

@[simp] theorem port_packOf : (packOf c k).port = .cmd := by cases c <;> rfl

@[simp] theorem port_unpackOf : (unpackOf c k).port = .cmd := by cases c <;> rfl

theorem wf_cfgOf : (cfgOf c k).wf = true ↔ k < 2 ^ 6 := by cases c <;> exact decide_eq_true_iff

theorem wf_packOf : (packOf c k).wf = true ↔ k < 2 ^ 26 := by cases c <;> exact decide_eq_true_iff

theorem wf_unpackOf : (unpackOf c k).wf = true ↔ k < 2 ^ 26 := by
  cases c <;> exact decide_eq_true_iff

theorem wf_atIndex : (Instr.atIndex k).wf = true ↔ k < 2 ^ 26 := decide_eq_true_iff

end

/-! ### The decoder of `CMD` is the inverse of the encoder -/

/-- Every well-formed command decodes from its word. -/
theorem decodeCmd_encode {i : Instr} (hw : i.wf = true) (hp : i.port = .cmd) :
    decodeCmd (encode i) = .instr i := by
  rcases instr_shape i with ⟨c, b, rfl⟩ | ⟨c, n, rfl⟩ | ⟨c, n, rfl⟩ | ⟨n, rfl⟩ | rfl | rfl | rfl
  · rw [encode_cfgOf]
    exact decodeCmd_cfgWord (codecIndex_lt c) ((wf_cfgOf c b).mp hw) (selectInstr_cfg c b)
  · rw [encode_packOf]
    exact decodeCmd_countWord (by decide) (by decide) (codecIndex_lt c) (fun h => by cases h)
      ((wf_packOf c n).mp hw) (selectInstr_pack c n)
  · rw [encode_unpackOf]
    exact decodeCmd_countWord (by decide) (by decide) (codecIndex_lt c) (fun h => by cases h)
      ((wf_unpackOf c n).mp hw) (selectInstr_unpack c n)
  · exact decodeCmd_countWord (by decide) (by decide) (by decide) (fun _ => rfl)
      ((wf_atIndex n).mp hw) rfl
  · rfl
  · cases hp
  · cases hp

/-- Step 6 of rule R57 selects the instruction whose word has the fields it was given. -/
theorem encode_of_selectInstr {op cs arg : Nat} {i : Instr} (h1 : 1 ≤ op) (h2 : op ≤ 4)
    (hcs : cs < 3) (h4 : op = 4 → cs = 1) (hb : op = 1 → arg < 2 ^ 6) (ha : arg < 2 ^ 26)
    (h : selectInstr op cs arg = some i) :
    i.wf = true ∧ i.port = .cmd ∧ encode i = commandWord op cs arg := by
  obtain ⟨c, rfl⟩ := exists_codecIndex hcs
  interval_cases op
  · rw [selectInstr_cfg, Option.some.injEq] at h
    exact h ▸ ⟨(wf_cfgOf c arg).mpr (hb rfl), port_cfgOf c arg, encode_cfgOf c arg⟩
  · rw [selectInstr_pack, Option.some.injEq] at h
    exact h ▸ ⟨(wf_packOf c arg).mpr ha, port_packOf c arg, encode_packOf c arg⟩
  · rw [selectInstr_unpack, Option.some.injEq] at h
    exact h ▸ ⟨(wf_unpackOf c arg).mpr ha, port_unpackOf c arg, encode_unpackOf c arg⟩
  · rw [h4 rfl] at h ⊢
    cases h
    exact ⟨(wf_atIndex arg).mpr ha, rfl, rfl⟩

/-- A word that decodes is `nop`'s, or it reaches step 6 of rule R57. -/
theorem decodeCmd_instr_cases {w : Word} {i : Instr} (h : decodeCmd w = .instr i) :
    (w = 0 ∧ i = .nop) ∨
      (1 ≤ opField w ∧ opField w ≤ 4 ∧ cselField w < 3 ∧ (opField w = 4 → cselField w = 1) ∧
        (opField w = 1 → argField w < 2 ^ 6) ∧
        selectInstr (opField w) (cselField w) (argField w) = some i) := by
  have hcs := cselField_lt w
  simp only [decodeCmd, Nat.shiftRight_eq_div_pow] at h
  split_ifs at h with h5 h0 hw h3 h4 h6
  · cases h
    exact .inl ⟨hw, rfl⟩
  · cases hs : selectInstr (opField w) (cselField w) (argField w) with
    | none => rw [hs] at h; cases h
    | some j =>
      rw [hs] at h
      cases h
      exact .inr ⟨by omega, by omega, by omega, by omega, by omega, rfl⟩

/-- The instruction a command word decodes to is well formed, and its word is that word. -/
theorem encode_of_decodeCmd {w : Word} {i : Instr} (h : decodeCmd w = .instr i) :
    i.wf = true ∧ i.port = .cmd ∧ encode i = w := by
  rcases decodeCmd_instr_cases h with ⟨rfl, rfl⟩ | ⟨h1, h2, h3, h4, h6, hs⟩
  · exact ⟨rfl, rfl, rfl⟩
  · have hw := encode_of_selectInstr h1 h2 h3 h4 h6 (argField_lt w) hs
    rwa [commandWord_fields] at hw

/-- Settles O2, from `encode_of_decodeCmd`. -/
theorem encodeOfDecodedCommandIsItsWord : Obligations.EncodeOfDecodedCommandIsItsWord :=
  fun _ _ h => encode_of_decodeCmd h

/-- Settles O5: every word written out, by the decoder. -/
theorem wordsOfTheSpecDecode : Obligations.WordsOfTheSpecDecode := by
  unfold Obligations.WordsOfTheSpecDecode
  decide

/-! ### Both ports -/

theorem port_ctrl_cases {i : Instr} (h : i.port = .ctrl) : i = .srst ∨ i = .clrerr := by
  cases i with
  | srst => exact .inl rfl
  | clrerr => exact .inr rfl
  | _ => cases h

/-- Every well-formed instruction decodes from its word at its port. -/
theorem decodeAt_encode {i : Instr} (hw : i.wf = true) : decodeAt i.port (encode i) = some i := by
  cases hp : i.port with
  | cmd => exact decodeAt_cmd (decodeCmd_encode hw hp)
  | ctrl => rcases port_ctrl_cases hp with rfl | rfl <;> rfl

/-- The opcode table reads a word at `CMD` first, then at `CTRL` (log 7). -/
theorem decodeTableWord_toNat (w : Word) :
    decodeTableWord 32 w.toNat = (decodeAt .cmd w).or (decodeAt .ctrl w) := by
  simp only [decodeTableWord, Nat.mod_eq_of_lt w.isLt, BitVec.ofNat_toNat, BitVec.setWidth_eq]

/-- Settles O1: `decodeAt_encode` at its port; and as a table word, since no word of `CTRL` is a
command. -/
theorem decodeOfEncodeIsTheInstruction : Obligations.DecodeOfEncodeIsTheInstruction := by
  intro i hw
  have hd := decodeAt_encode hw
  refine ⟨hd, ?_⟩
  rw [decodeTableWord_toNat]
  cases hp : i.port with
  | cmd =>
    rw [hp] at hd
    rw [hd, Option.some_or]
  | ctrl => rcases port_ctrl_cases hp with rfl | rfl <;> rfl

/-! ### The rows of the opcode table -/

/-- The word of a well-formed instruction matches its row. -/
theorem row_matches_encode {i : Instr} (h : i.wf = true) : i.row.matches (encode i) = true := by
  cases i with
  | nop => exact Laws.EncodeRow.nop h
  | cfgFwp b => exact Laws.EncodeRow.cfgFwp b h
  | cfgFor b => exact Laws.EncodeRow.cfgFor b h
  | cfgMbp b => exact Laws.EncodeRow.cfgMbp b h
  | packFwp n => exact Laws.EncodeRow.packFwp n h
  | packFor n => exact Laws.EncodeRow.packFor n h
  | packMbp n => exact Laws.EncodeRow.packMbp n h
  | unpackFwp n => exact Laws.EncodeRow.unpackFwp n h
  | unpackFor n => exact Laws.EncodeRow.unpackFor n h
  | unpackMbp n => exact Laws.EncodeRow.unpackMbp n h
  | atIndex k => exact Laws.EncodeRow.atIndex k h
  | srst => exact Laws.EncodeRow.srst h
  | clrerr => exact Laws.EncodeRow.clrerr h

/-- A row with no operand matches its one word. -/
theorem matches_fullMask {w p : Word} (m : String) (pt : Port) :
    (OpcodeRow.mk m pt p 0xFFFFFFFF).matches w = true ↔ w = p := by
  rw [OpcodeRow.matches, beq_iff_eq, show (0xFFFFFFFF : Word) = BitVec.allOnes 32 from by decide,
    BitVec.and_allOnes]

/-- A row with a 6-bit operand matches the words of its `OP` and `CSEL` whose `ARG` has 6 bits. -/
theorem eq_commandWord_of_matches_mask6 {w : Word} {op cs : Nat} {m : String} {pt : Port}
    (h : (OpcodeRow.mk m pt (commandWord op cs 0) 0xFFFFFFC0).matches w = true) :
    w = commandWord op cs (argField w) ∧ argField w < 2 ^ 6 := by
  have hp := commandWord_toNat op cs 0
  rw [matches_mask6 (by omega), hp] at h
  rw [← BitVec.toNat_inj, commandWord_toNat, argField]
  omega

/-- A row with a 26-bit operand matches the words of its `OP` and `CSEL`. -/
theorem eq_commandWord_of_matches_mask26 {w : Word} {op cs : Nat} {m : String} {pt : Port}
    (h : (OpcodeRow.mk m pt (commandWord op cs 0) 0xFC000000).matches w = true) :
    w = commandWord op cs (argField w) := by
  have hp := commandWord_toNat op cs 0
  rw [matches_mask26 (by omega), hp] at h
  rw [← BitVec.toNat_inj, commandWord_toNat, argField]
  omega

section
variable (c : Codec)

theorem row_cfgOf :
    ∃ m, ∀ b, (cfgOf c b).row = ⟨m, .cmd, commandWord 1 (codecIndex c) 0, 0xFFFFFFC0⟩ := by
  cases c <;> exact ⟨_, fun _ => rfl⟩

theorem row_packOf :
    ∃ m, ∀ n, (packOf c n).row = ⟨m, .cmd, commandWord 2 (codecIndex c) 0, 0xFC000000⟩ := by
  cases c <;> exact ⟨_, fun _ => rfl⟩

theorem row_unpackOf :
    ∃ m, ∀ n, (unpackOf c n).row = ⟨m, .cmd, commandWord 3 (codecIndex c) 0, 0xFC000000⟩ := by
  cases c <;> exact ⟨_, fun _ => rfl⟩

end

/-- A word that matches the row of a command is the word of a command of that row. -/
theorem exists_encode_of_matches {w : Word} {i : Instr} (hp : i.port = .cmd)
    (h : i.row.matches w = true) :
    ∃ j, j.wf = true ∧ j.port = .cmd ∧ j.row = i.row ∧ w = encode j := by
  have ha := argField_lt w
  rcases instr_shape i with ⟨c, b, rfl⟩ | ⟨c, n, rfl⟩ | ⟨c, n, rfl⟩ | ⟨n, rfl⟩ | rfl | rfl | rfl
  · obtain ⟨m, hrow⟩ := row_cfgOf c
    rw [hrow] at h
    obtain ⟨hw, hb⟩ := eq_commandWord_of_matches_mask6 h
    exact ⟨cfgOf c (argField w), (wf_cfgOf c _).mpr hb, port_cfgOf c _, by rw [hrow, hrow],
      by rw [encode_cfgOf, ← hw]⟩
  · obtain ⟨m, hrow⟩ := row_packOf c
    rw [hrow] at h
    have hw := eq_commandWord_of_matches_mask26 h
    exact ⟨packOf c (argField w), (wf_packOf c _).mpr ha, port_packOf c _, by rw [hrow, hrow],
      by rw [encode_packOf, ← hw]⟩
  · obtain ⟨m, hrow⟩ := row_unpackOf c
    rw [hrow] at h
    have hw := eq_commandWord_of_matches_mask26 h
    exact ⟨unpackOf c (argField w), (wf_unpackOf c _).mpr ha, port_unpackOf c _,
      by rw [hrow, hrow], by rw [encode_unpackOf, ← hw]⟩
  · have hw := eq_commandWord_of_matches_mask26 (op := 4) (cs := 1) h
    exact ⟨.atIndex (argField w), (wf_atIndex _).mpr ha, rfl, rfl, hw⟩
  · exact ⟨.nop, rfl, rfl, rfl, (matches_fullMask _ _).mp h⟩
  · cases hp
  · cases hp

/-- The rows of rule R57's table are those of the commands. -/
theorem mem_commandTable_iff {r : OpcodeRow} :
    r ∈ commandTable ↔ ∃ i : Instr, i.port = .cmd ∧ i.row = r := by
  constructor
  · intro h
    obtain ⟨i, hi, hr⟩ := List.mem_map.mp h
    have hports : ∀ j ∈ [Instr.nop, .cfgFwp 0, .cfgFor 0, .cfgMbp 0, .packFwp 0, .packFor 0,
      .packMbp 0, .unpackFwp 0, .unpackFor 0, .unpackMbp 0, .atIndex 0], j.port = .cmd := by decide
    exact ⟨i, hports i hi, hr⟩
  · rintro ⟨i, hp, rfl⟩
    cases i with
    | srst => cases hp
    | clrerr => cases hp
    | _ => simp [commandTable, Instr.row]

/-- Rule R57: a word decodes to an instruction exactly when it matches that instruction's row. -/
theorem matches_iff_decodeCmd {w : Word} {r : OpcodeRow} (hr : r ∈ commandTable) :
    r.matches w = true ↔ ∃ i, decodeCmd w = .instr i ∧ i.row = r := by
  obtain ⟨i, hp, rfl⟩ := mem_commandTable_iff.mp hr
  constructor
  · intro h
    obtain ⟨j, hj, hjp, hjr, rfl⟩ := exists_encode_of_matches hp h
    exact ⟨j, decodeCmd_encode hj hjp, hjr⟩
  · rintro ⟨j, hd, hjr⟩
    obtain ⟨hj, -, rfl⟩ := encode_of_decodeCmd hd
    exact hjr ▸ row_matches_encode hj

theorem row_mem_commandTable {w : Word} {i : Instr} (h : decodeCmd w = .instr i) :
    i.row ∈ commandTable :=
  mem_commandTable_iff.mpr ⟨i, (encode_of_decodeCmd h).2.1, rfl⟩

/-- The patterns of rule R57 are pairwise disjoint: the rows differ, and a word has one decoding. -/
theorem commandTable_disjoint :
    commandTable.Pairwise fun r r' => ∀ w : Word, ¬(r.matches w = true ∧ r'.matches w = true) := by
  have hne : commandTable.Nodup := by decide
  refine hne.imp_of_mem fun hr hr' hrr' w ⟨h, h'⟩ => hrr' ?_
  obtain ⟨i, hd, rfl⟩ := (matches_iff_decodeCmd hr).mp h
  obtain ⟨j, hd', rfl⟩ := (matches_iff_decodeCmd hr').mp h'
  rw [hd, Decoded.instr.injEq] at hd'
  rw [hd']

/-- The cause of a word that is no instruction: the first step of rule R57 that applies. -/
theorem decodeCmd_of_not_instr {w : Word} (h : ∀ i, decodeCmd w ≠ .instr i) :
    decodeCmd w =
      if 5 ≤ opField w then .illegal .illegalCommand
      else if opField w = 0 then .illegal .illegalCommand
      else if cselField w = 3 then .illegal .unknownCodecSelector
      else .illegal .illegalCommand := by
  split_ifs with h5 h0 h3
  · simp [decodeCmd, h5]
  · have hw : w ≠ 0 := fun hw => h .nop (hw ▸ rfl)
    simpa [decodeCmd, h0] using hw
  · simp [decodeCmd, h5, h0, h3]
  · simp only [decodeCmd, h5, h0, h3, if_false] at h ⊢
    split_ifs with h4 h6
    · rfl
    · rfl
    · cases hs : selectInstr (opField w) (cselField w) (argField w) with
      | none => rfl
      | some i => exact absurd (by simp [h4, h6, hs]) (h i)

end Sys2Proof
end

section
/-! A step of a write to `CMD` or `CTRL` carries the decoding out (rules R59, R102), and what stops a
step (rules R60, R83, R110). -/

namespace Sys2Proof.Machine

/-! ### Writes to `CMD` and `CTRL` -/

section
variable {s : State} {w d : Word} {i : Instr} {rest : List Transaction}

theorem step_cmd_instr (h : s.script = .regWrite 0x004 4 w :: rest) (hR : Ready s)
    (hd : decodeCmd w = .instr i) : step s = exec i (afterHead .okay s) := by
  have hR' : Ready (afterHead .okay s) := hR
  rw [step_cmd h, writeCmd_ready hR', hd]

theorem step_cmd_illegal {k : RejectKind} (h : s.script = .regWrite 0x004 4 w :: rest)
    (hR : Ready s) (hd : decodeCmd w = .illegal k) :
    step s = .next (rejectWith k w (afterHead .okay s)) := by
  have hR' : Ready (afterHead .okay s) := hR
  rw [step_cmd h, writeCmd_ready hR', hd]

theorem step_ctrl_some (h : s.script = .regWrite 0x01C 4 d :: rest) (hd : decodeCtrl d = some i) :
    step s = exec i (afterHead .okay s) := by
  rw [step_ctrl h, writeCtrl, hd]

theorem step_ctrl_none (h : s.script = .regWrite 0x01C 4 d :: rest) (hd : decodeCtrl d = none) :
    step s = .next (afterHead .okay s) := by
  rw [step_ctrl h, writeCtrl, hd]

end

/-- Settles O6, from `step_cmd_instr` and `step_ctrl_some`. -/
theorem stepRunsTheDecodedInstruction : Obligations.StepRunsTheDecodedInstruction :=
  fun _ _ _ _ => ⟨step_cmd_instr, step_ctrl_some⟩

/-- Settles O3: `matches_iff_decodeCmd` both ways, disjoint rows, the cause of any other word, and
the step. -/
theorem commandWordsAreTheElevenPatterns : Obligations.CommandWordsAreTheElevenPatterns := by
  refine ⟨fun w i hd => ?_, fun w r hr h => (matches_iff_decodeCmd hr).mp h,
    ⟨rfl, commandTable_disjoint⟩, fun w hw => ?_,
    fun s w rest hR h => ⟨fun i => step_cmd_instr h hR, fun k => step_cmd_illegal h hR⟩⟩
  · have hr := row_mem_commandTable hd
    exact ⟨hr, (matches_iff_decodeCmd hr).mpr ⟨i, hd, rfl⟩, (encode_of_decodeCmd hd).2.2⟩
  · refine decodeCmd_of_not_instr fun i hd => ?_
    have hr := row_mem_commandTable hd
    have hm := (matches_iff_decodeCmd hr).mpr ⟨i, hd, rfl⟩
    rw [hw i.row hr] at hm
    cases hm

/-! ### The operations of `CTRL` -/

/-- A word with a bit of 31:2 set asks for nothing (rule R59). -/
theorem decodeCtrl_of_high {d : Word} (h : d.toNat / 4 ≠ 0) : decodeCtrl d = none := by
  rw [decodeCtrl, Nat.shiftRight_eq_div_pow, if_pos h]

/-- Below bit 2, bit 0 decides first, then bit 1 (rule R59). -/
theorem decodeCtrl_of_low {d : Word} (h : d.toNat / 4 = 0) :
    decodeCtrl d =
      if d.getLsbD 0 then some .srst else if d.getLsbD 1 then some .clrerr else none := by
  have h' : ¬d.toNat / 2 ^ 2 ≠ 0 := not_not.mpr h
  rw [decodeCtrl, Nat.shiftRight_eq_div_pow, if_neg h']

/-- No operation of `CTRL` sets `ERR`. -/
theorem exec_ctrl_err {d : Word} {i : Instr} {s t : State} (hd : decodeCtrl d = some i)
    (h : exec i s = .next t) : t.err = false := by
  rcases decodeCtrl_some hd with rfl | rfl <;> cases h <;> rfl

/-- Settles O4: the two rows are the words of the two operations, and the step carries out
`decodeCtrl`. -/
theorem controlWriteIsSrstClrerrOrNothing : Obligations.ControlWriteIsSrstClrerrOrNothing := by
  refine ⟨fun d => ?_, fun d => ?_, fun s d rest h => ⟨fun hh => ?_, fun hl h0 => ?_,
    fun hl h0 h1 => ?_, fun hz => ?_, fun t ht he => ?_⟩⟩
  · rw [decodeCtrl_srst_iff, ← and_srstMask_eq_iff]
    exact beq_iff_eq
  · rw [decodeCtrl_clrerr_iff]
    exact matches_fullMask _ _
  · exact step_ctrl_none h (decodeCtrl_of_high hh)
  · exact step_ctrl_some h (by rw [decodeCtrl_of_low hl, if_pos h0])
  · exact step_ctrl_some h (by rw [decodeCtrl_of_low hl, h0, h1]; rfl)
  · exact step_ctrl_none h (hz ▸ rfl)
  · cases hd : decodeCtrl d with
    | some i =>
      rw [step_ctrl_some h hd] at ht
      rw [exec_ctrl_err hd ht] at he
      cases he
    | none =>
      rw [step_ctrl_none h hd, Host.Outcome.next.injEq] at ht
      rwa [← ht] at he

/-! ### What stops a step -/

/-- A command whose completion is a next state answers a next state whatever its checks decide. -/
theorem guarded_next_exists (ck : Check) (w : Word) (s u : State) :
    ∃ t, guarded ck w s (.next u) = .next t := by
  cases ck with
  | pass => exact ⟨u, rfl⟩
  | reject k => exact ⟨_, rfl⟩
  | halt k => exact ⟨_, rfl⟩

/-- A pack answers a next state, unless its checks pass and its source does not fit. -/
theorem exec_packOf_next_or_refused (c : Codec) (n : Nat) (s : State) :
    (∃ t, exec (packOf c n) s = .next t) ∨
      (exec (packOf c n) s = .refused .sourceOutOfRange ∧ CountOk c n s ∧
        ¬SrcBelow n (s.widthOf c) s) := by
  by_cases hf : SrcBelow n (s.widthOf c) s
  · rw [exec_packOf, if_pos ((srcFits_iff n _ s).mpr hf)]
    exact .inl (guarded_next_exists _ _ _ _)
  · by_cases hc : CountOk c n s
    · exact .inr ⟨exec_packOf_refuses c n s hc hf, hc, hf⟩
    · left
      rw [exec_packOf]
      cases hck : countCheck c n s with
      | pass => exact absurd ((countCheck_pass_iff c n s).mp hck) hc
      | reject k => exact ⟨_, rfl⟩
      | halt k => exact ⟨_, rfl⟩

/-- Everything `exec` can answer: a next state, or the refusal of a pack. -/
theorem exec_next_or_refused (i : Instr) (s : State) :
    (∃ t, exec i s = .next t) ∨
      (exec i s = .refused .sourceOutOfRange ∧
        ∃ c n, i = packOf c n ∧ CountOk c n s ∧ ¬SrcBelow n (s.widthOf c) s) := by
  rcases instr_shape i with ⟨c, b, rfl⟩ | ⟨c, n, rfl⟩ | ⟨c, n, rfl⟩ | ⟨n, rfl⟩ | rfl | rfl | rfl
  · exact .inl (exec_cfgOf c b s ▸ guarded_next_exists _ _ _ _)
  · exact (exec_packOf_next_or_refused c n s).imp_right fun ⟨h, hc, hf⟩ =>
      ⟨h, c, n, rfl, hc, hf⟩
  · exact .inl (exec_unpackOf c n s ▸ guarded_next_exists _ _ _ _)
  · exact .inl (guarded_next_exists _ _ _ _)
  · exact .inl ⟨s, rfl⟩
  · exact .inl ⟨_, rfl⟩
  · exact .inl ⟨_, rfl⟩

/-- The two operations of `CTRL` answer a next state in every state. -/
theorem step_ctrl_next {s : State} {d : Word} {rest : List Transaction}
    (h : s.script = .regWrite 0x01C 4 d :: rest) : ∃ t, step s = .next t := by
  cases hd : decodeCtrl d with
  | none => exact ⟨_, step_ctrl_none h hd⟩
  | some i =>
    rw [step_ctrl_some h hd]
    rcases decodeCtrl_some hd with rfl | rfl
    · exact ⟨_, exec_srst _⟩
    · exact ⟨_, exec_clrerr _⟩

/-- The checks and the fit of a pack do not see the script or the answer. -/
theorem packUnfit_afterHead {r : Response} {s : State} {c : Codec} {n : Nat}
    (hc : CountOk c n (afterHead r s))
    (hf : ¬SrcBelow n ((afterHead r s).widthOf c) (afterHead r s)) :
    CountOk c n s ∧ ¬SrcBelow n (s.widthOf c) s := by
  rw [← countCheck_pass_iff, countCheck_afterHead, countCheck_pass_iff] at hc
  rw [afterHead_widthOf] at hf
  exact ⟨hc, hf⟩

/-- A write to `CMD` answers a next state, unless it is that of a pack whose source does not fit. -/
theorem step_cmd_next_or_refused {s : State} {w : Word} {rest : List Transaction}
    (h : s.script = .regWrite 0x004 4 w :: rest) :
    (∃ t, step s = .next t) ∨
      (step s = .refused .sourceOutOfRange ∧ Ready s ∧
        ∃ c n, decodeCmd w = .instr (packOf c n) ∧ CountOk c n s ∧
          ¬SrcBelow n (s.widthOf c) s) := by
  by_cases hR : Ready s
  · cases hd : decodeCmd w with
    | illegal k => exact .inl ⟨_, step_cmd_illegal h hR hd⟩
    | instr i =>
      rw [step_cmd_instr h hR hd]
      rcases exec_next_or_refused i (afterHead .okay s) with ht | ⟨hx, c, n, rfl, hc, hf⟩
      · exact .inl ht
      · exact .inr ⟨hx, hR, c, n, rfl, packUnfit_afterHead hc hf⟩
  · have hd : s.halt = true ∨ s.err = true := by
      simpa only [Ready, not_and_or, Bool.not_eq_false] using hR
    exact .inl ⟨_, (step_cmd h).trans (writeCmd_dropped hd)⟩

/-- A register write that is no command answers a next state. -/
theorem step_regWrite_next {s : State} {off size : Nat} {d : Word} {rest : List Transaction}
    (h : s.script = .regWrite off size d :: rest) (hc : regAt? off size ≠ some .cmd) :
    ∃ t, step s = .next t := by
  cases hr : regAt? off size with
  | none => exact ⟨_, step_regWrite_of_bad h hr⟩
  | some r =>
    obtain ⟨rfl, -, hl⟩ := regAt?_inv hr
    cases r with
    | cmd => exact absurd hr hc
    | ctrl =>
      obtain rfl := off_of_ctrl hl
      exact step_ctrl_next h
    | clen c =>
      obtain rfl := off_of_clen hl
      exact ⟨_, step_clen h⟩
    | _ =>
      rw [step_regWrite h, hr]
      exact ⟨_, rfl⟩

/-- An access that is answered or out of its space leaves one of two states. -/
theorem ite_next_exists (p : Prop) [Decidable p] (a b : State) :
    ∃ t, (if p then .next a else .next b : Host.Outcome State Fault Refusal) = .next t :=
  ⟨if p then a else b, (apply_ite Host.Outcome.next p a b).symm⟩

/-- Settles O10, by the head of the script: only a `CMD` write can stop, as
`step_cmd_next_or_refused` says. -/
theorem onlyAnUnfitSourceStopsAStep : Obligations.OnlyAnUnfitSourceStopsAStep := by
  intro s
  cases hs : s.script with
  | nil => exact .inl ⟨s, step_nil hs⟩
  | cons x rest =>
    cases x with
    | regWrite off size d =>
      by_cases hr : regAt? off size = some .cmd
      · obtain ⟨rfl, -, hl⟩ := regAt?_inv hr
        obtain rfl := off_of_cmd hl
        exact (step_cmd_next_or_refused hs).imp_right fun ⟨hx, hR, c, n, hd⟩ =>
          ⟨hx, hR, c, n, d, rest, rfl, hd⟩
      · exact .inl (step_regWrite_next hs hr)
    | regRead off size =>
      cases hr : regAt? off size with
      | some r => exact .inl ⟨_, step_regRead_of_reg hs hr⟩
      | none => exact .inl ⟨_, step_regRead_of_bad hs hr⟩
    | srcRead i => exact .inl (step_srcRead hs ▸ ite_next_exists _ _ _)
    | srcWrite i v => exact .inl (step_srcWrite hs ▸ ite_next_exists _ _ _)
    | cbufRead c a =>
      obtain ⟨hc, -⟩ | ⟨e, rfl, -⟩ := codecNumber_cases c
      · exact .inl ⟨_, step_cbufRead_of_outside hs (.inl hc)⟩
      · exact .inl (step_cbufRead hs ▸ ite_next_exists _ _ _)
    | cbufWrite c a b =>
      obtain ⟨hc, -⟩ | ⟨e, rfl, -⟩ := codecNumber_cases c
      · exact .inl ⟨_, step_cbufWrite_of_outside hs (.inl hc)⟩
      · exact .inl (step_cbufWrite hs ▸ ite_next_exists _ _ _)
    | dbufRead c i =>
      obtain ⟨hc, -⟩ | ⟨e, rfl, -⟩ := codecNumber_cases c
      · exact .inl ⟨_, step_dbufRead_of_outside hs (.inl hc)⟩
      · exact .inl (step_dbufRead hs ▸ ite_next_exists _ _ _)
    | hardReset => exact .inl ⟨_, step_hardReset hs⟩

end Sys2Proof.Machine
end

section
/-! The construction of an engine by `cfg` (rule R64), and the `unpack` right after it (rule R69). -/

namespace Sys2Proof.Machine

/-! ### What a `cfg` does -/

/-- The ranges of rules R65 to R67 are the model's `wmax`. -/
theorem wmax_eq_ite (c : Codec) : wmax c = if c = .mbp then 32 else 56 := by cases c <;> rfl

theorem constructed_widthOf {c : Codec} {b : Nat} (s : State) (h : b ≤ wmax c) :
    (invalidate c (configure c b s)).widthOf c = b := by
  rw [invalidate_widthOf, configure_widthOf c b s (lt_of_le_of_lt h (wmax_lt c))]

theorem exec_cfgOf_rejects (c : Codec) (b : Nat) (s : State) (h : b = 0 ∨ wmax c < b) :
    exec (cfgOf c b) s = .next (rejectWith .illegalWidth (encode (cfgOf c b)) s) := by
  rw [exec_cfgOf, cfgCheck_of_not c b h, guarded_reject]

/-- The frame of an addressed command: besides what it writes of its own engine, only the records
and the host's side remain to be checked. -/
theorem WritesOnly.sameOutside {c : Codec} {s t : State} (h : WritesOnly c s t)
    (hr : SameRecords s t) (hh : SameHost s t) : SameOutside c s t := by
  obtain ⟨hd, hs, -⟩ := h
  exact ⟨fun d hdc => sameEngine_of_engine_eq (hd d hdc), fun k => by simp only [State.srcElem, hs],
    hr, hh⟩

/-- Settles O19: at a legal width the next state is that of `exec_cfgOf_completes`, whose frame is
that of any command to engine `c`; at any other width the width check fails. -/
theorem cfgConstructsTheEngine : Obligations.CfgConstructsTheEngine := by
  intro c b s
  rw [← wmax_eq_ite]
  constructor
  · intro h1 h2
    have hx := exec_cfgOf_completes c b s h1 h2
    have hout : SameOutside c s (invalidate c (configure c b s)) :=
      (exec_writesOnly (addressee_cfgOf c b) hx).sameOutside (by simp [SameRecords])
        (by simp [SameHost])
    exact ⟨_, hx, constructed_widthOf s h2, by simp, by simp, by simp,
      by rw [invalidate_valid, configure_valid], by simp, fun a => by simp, fun i => by simp, hout⟩
  · exact exec_cfgOf_rejects c b s

/-! ### The `unpack` right after it -/

/-- An `unpack` whose count is right but whose bytes are not all there (rule R122). -/
theorem exec_unpackOf_underrun {c : Codec} {n : Nat} {s : State} (h : CountOk c n s)
    (hb : ¬EnoughBytes c n s) :
    exec (unpackOf c n) s = .next (rejectWith .underrun (encode (unpackOf c n)) s) := by
  rw [exec_unpackOf, unpackCheck_underrun c n s h hb, guarded_reject]

/-- An engine whose `CLEN` is 0 has not even the first bit of the first element. -/
theorem not_enoughBytes_of_clen_zero {c : Codec} {n : Nat} {s : State}
    (hl : (s.engine c).clen = 0) (hw : 0 < s.widthOf c) (hn : 0 < n) : ¬EnoughBytes c n s := by
  have hbits : 0 < s.widthOf c * n := Nat.mul_pos hw hn
  have hzero : (s.engine c).clen.toNat = 0 := by rw [hl]; rfl
  rw [EnoughBytes, hzero, ceilDiv8_le_iff]
  omega

/-- Settles O20: the constructed engine has `CLEN = 0` at a width above 0, so the bytes of one
element are missing. -/
theorem reconfiguredEngineHoldsNoData : Obligations.ReconfiguredEngineHoldsNoData := by
  intro c b n s t h1 h2 hx hn hmax hg
  rw [← wmax_eq_ite] at h2
  obtain rfl : invalidate c (configure c b s) = t :=
    Host.Outcome.next.inj ((exec_cfgOf_completes c b s h1 h2).symm.trans hx)
  have hcount : CountOk c n (invalidate c (configure c b s)) :=
    ⟨by simp, by simpa using hmax, by simpa using hg⟩
  have hw : 0 < (invalidate c (configure c b s)).widthOf c := by rwa [constructed_widthOf s h2]
  exact exec_unpackOf_underrun hcount (not_enoughBytes_of_clen_zero (by simp) hw hn)

end Sys2Proof.Machine
end

section
/-! The pack datapath (rules R72, R73): what it has written and what it still holds after every
value, and that its bytes are those of the layout (rules R71, R75). -/

namespace Sys2Proof.Machine

/-! ### One byte of the layout -/

/-- Byte `a` of `PackBits(V, B)`, in the closed form of rule R75; past the end it is padding. -/
def packedByte (vals : List Word) (b a : Nat) : Byte :=
  BitVec.ofNat 8 (bitSum (fun j => packedBit vals b (8 * a + j)) 8)

theorem packBits_eq_map (vals : List Word) (b : Nat) :
    packBits vals b = (List.range (ceilDiv8 (b * vals.length))).map (packedByte vals b) := rfl

theorem getLsbD_packedByte (vals : List Word) (b a : Nat) {j : Nat} (hj : j < 8) :
    (packedByte vals b a).getLsbD j = packedBit vals b (8 * a + j) := by
  rw [packedByte, BitVec.getLsbD_ofNat, testBit_bitSum]
  simp [hj]

/-- A register that holds the layout from byte `p` on gives byte `p + a` at its bits `8 × a` on. -/
theorem extract_eq_packedByte {vals : List Word} {b p : Nat} {x : BitVec 64}
    (hx : ∀ t, x.getLsbD t = packedBit vals b (8 * p + t)) (a : Nat) :
    x.extractLsb' (8 * a) 8 = packedByte vals b (p + a) := by
  refine BitVec.eq_of_getLsbD_eq fun j hj => ?_
  rw [BitVec.getLsbD_extractLsb', getLsbD_packedByte _ _ _ hj, hx, decide_eq_true hj,
    Bool.true_and, Nat.mul_add, Nat.add_assoc]

/-- A further value leaves the bytes that lie wholly in the values before it. -/
theorem packedByte_append {vals : List Word} {b a : Nat} (v : Word) (hb : 1 ≤ b)
    (ha : 8 * a + 8 ≤ b * vals.length) : packedByte (vals ++ [v]) b a = packedByte vals b a := by
  refine BitVec.eq_of_getLsbD_eq fun j hj => ?_
  rw [getLsbD_packedByte _ _ _ hj, getLsbD_packedByte _ _ _ hj, packedBit_append _ _ _ _ hb,
    if_pos (by omega)]

/-! ### The invariant -/

/-- The invariant of rule R72 after the values `vals`: the whole bytes are written, and the
accumulator holds the rest of the layout. -/
structure DatapathInv (b : Nat) (vals : List Word) (d : Datapath) : Prop where
  nb : d.nb = b * vals.length % 8
  wptr : d.wptr = b * vals.length / 8
  out : d.out = (List.range d.wptr).map (packedByte vals b)
  acc : ∀ t, d.acc.getLsbD t = packedBit vals b (8 * d.wptr + t)

theorem datapathInv_init (b : Nat) : DatapathInv b [] Datapath.init where
  nb := by simp [Datapath.init]
  wptr := by simp [Datapath.init]
  out := rfl
  acc := fun t => by simp [Datapath.init, packedBit]

section
variable {b : Nat} {vals : List Word} {d : Datapath}

theorem DatapathInv.bits_eq (h : DatapathInv b vals d) : 8 * d.wptr + d.nb = b * vals.length := by
  rw [h.nb, h.wptr, Nat.div_add_mod]

theorem DatapathInv.nb_lt (h : DatapathInv b vals d) : d.nb < 8 := by
  rw [h.nb]
  exact Nat.mod_lt _ (by decide)

/-- The merge of rule R72: the next value goes above the bits the accumulator holds. -/
theorem DatapathInv.merge_acc (h : DatapathInv b vals d) (h1 : 1 ≤ b) (h56 : b ≤ 56) {v : Word}
    (hv : v.toNat < 2 ^ b) (t : Nat) :
    (d.acc ||| (v.setWidth 64 <<< d.nb)).getLsbD t =
      packedBit (vals ++ [v]) b (8 * d.wptr + t) := by
  have hbits := h.bits_eq
  have hnb := h.nb_lt
  rw [BitVec.getLsbD_or, h.acc, packedBit_append _ _ _ _ h1, BitVec.getLsbD_shiftLeft,
    BitVec.getLsbD_setWidth]
  by_cases ht : t < d.nb
  · rw [if_pos (by omega)]
    simp [ht]
  · have hsub : 8 * d.wptr + t - b * vals.length = t - d.nb := by omega
    rw [if_neg (by omega), packedBit_padding _ _ _ (by omega), hsub]
    by_cases htb : t < d.nb + b
    · have h64 : t < 64 := by omega
      have h64' : t - d.nb < 64 := by omega
      have hlt : 8 * d.wptr + t < b * vals.length + b := by omega
      simp [ht, h64, h64', hlt]
    · have hlt : ¬8 * d.wptr + t < b * vals.length + b := by omega
      have hv0 : v.getLsbD (t - d.nb) = false := by
        rw [← BitVec.testBit_toNat]
        exact Nat.testBit_eq_false_of_lt
          (lt_of_lt_of_le hv (Nat.pow_le_pow_right (by decide) (by omega)))
      simp [hv0, hlt]

/-- One turn of the outer loop keeps the invariant. -/
theorem DatapathInv.push (h : DatapathInv b vals d) (h1 : 1 ≤ b) (h56 : b ≤ 56) {v : Word}
    (hv : v.toNat < 2 ^ b) : DatapathInv b (vals ++ [v]) (d.push b v) := by
  have hbits := h.bits_eq
  have hnb := h.nb_lt
  have hmerge := h.merge_acc h1 h56 hv
  have hlen : b * (vals ++ [v]).length = 8 * d.wptr + (d.nb + b) := by
    rw [List.length_append, List.length_singleton, Nat.mul_add, Nat.mul_one, ← hbits, Nat.add_assoc]
  have hout : d.out = (List.range d.wptr).map (packedByte (vals ++ [v]) b) := by
    rw [h.out]
    refine List.map_congr_left fun a ha => (packedByte_append v h1 ?_).symm
    have := List.mem_range.mp ha
    omega
  rw [Datapath.push, Datapath.flush_eq _ _ (by simp only; omega)]
  refine ⟨?_, ?_, ?_, fun t => ?_⟩
  · simp only; omega
  · simp only; omega
  · simp only [extract_eq_packedByte hmerge, hout, List.range_add, List.map_append, List.map_map]
    rfl
  · simp only [BitVec.getLsbD_ushiftRight, hmerge]
    congr 1
    ring

end

/-- The invariant after any number of fitting values. -/
theorem datapathInv_foldl {b : Nat} (h1 : 1 ≤ b) (h56 : b ≤ 56) (vals : List Word)
    (hv : ∀ v ∈ vals, v.toNat < 2 ^ b) :
    DatapathInv b vals (vals.foldl (Datapath.push b) Datapath.init) := by
  induction vals using List.reverseRecOn with
  | nil => exact datapathInv_init b
  | append_singleton vals v ih =>
    rw [List.foldl_append]
    exact (ih fun x hx => hv x (by simp [hx])).push h1 h56 (hv v (by simp))

section
variable {b : Nat} {vals : List Word} {d : Datapath}

theorem DatapathInv.acc_lt (h : DatapathInv b vals d) : d.acc.toNat < 2 ^ d.nb := by
  refine Nat.lt_pow_two_of_testBit _ fun t ht => ?_
  have hbits := h.bits_eq
  rw [BitVec.testBit_toNat, h.acc, packedBit_padding _ _ _ (by omega)]

/-- Rule R73: what is left over is the last byte, its padding bits 0. -/
theorem DatapathInv.finish_out (h : DatapathInv b vals d) : d.finish.out = packBits vals b := by
  have hbits := h.bits_eq
  have hnb := h.nb_lt
  rw [packBits_eq_map, ceilDiv8_eq, Datapath.finish]
  by_cases h0 : 0 < d.nb
  · have hlen : (b * vals.length + 7) / 8 = d.wptr + 1 := by omega
    have hlast : d.acc.extractLsb' 0 8 = packedByte vals b d.wptr := extract_eq_packedByte h.acc 0
    rw [if_pos h0, Datapath.emit, hlen, List.range_succ, List.map_append, ← h.out, hlast]
    rfl
  · have hlen : (b * vals.length + 7) / 8 = d.wptr := by omega
    rw [if_neg h0, hlen, h.out]

end

/-- Settles O42, from the invariant at the end of the values and the finalisation. -/
theorem packDatapathComputesPackBits : Obligations.PackDatapathComputesPackBits :=
  fun vals _ h1 h56 hv => (datapathInv_foldl h1 h56 vals hv).finish_out

/-- Settles O43, from `datapathInv_foldl`. -/
theorem packDatapathKeepsItsInvariant : Obligations.PackDatapathKeepsItsInvariant := by
  intro vals b h1 h56 hv d
  have h : DatapathInv b vals d := datapathInv_foldl h1 h56 vals hv
  rw [Nat.mul_comm, Nat.shiftRight_eq_div_pow]
  exact ⟨h.nb, h.wptr, by rw [h.out, List.length_map, List.length_range], h.acc_lt⟩

end Sys2Proof.Machine
end

section
/-! The fixed-width commands (41_fixed_width.md): what an accepted pack and an accepted unpack leave,
when a pack is refused, and that a command issued again changes nothing. -/

namespace Sys2Proof.Machine

/-! ### What an accepted pack leaves -/

/-- A pack writes what its engine owns and nothing outside. -/
theorem packed_sameOutside (c : Codec) (n : Nat) (s : State) : SameOutside c s (packed c n s) :=
  ⟨fun d hd => sameEngine_of_engine_eq (packed_engine_ne c n s d hd), packed_srcElem c n s,
    by simp [SameRecords], by simp [SameHost]⟩

/-- FWP and FOR report the exact length (rule R74). -/
theorem packedLength_fixed {c : Codec} (hc : c ≠ .mbp) (n b : Nat) :
    packedLength c n b = ceilDiv8 (b * n) := by
  cases c with
  | fwp => rfl
  | forb => rfl
  | mbp => exact absurd rfl hc

section
variable {c : Codec} {n : Nat} {s : State}

theorem CountOk.packed_clen (h : CountOk c n s) :
    ((packed c n s).engine c).clen.toNat = packedLength c n (s.widthOf c) := by
  rw [packed_engine]
  exact packedLength_toNat c n _ h.lt (widthOf_lt s c)

theorem CountOk.packedBytes_length (h : CountOk c n s) (b : Nat) :
    (packedBytes c (srcPrefix n s) b).length = ceilDiv8 (b * n) := by
  rw [packedBytes_eq _ _ _ (by simpa using h.miniBlocks), packBits_length, srcPrefix_length]

/-- Rule R71 in the buffer: the bits of element `i`. -/
theorem CountOk.bitOf_packed_elem (h : CountOk c n s) {i j : Nat} (hi : i < n)
    (hj : j < s.widthOf c) :
    bitOf ((packed c n s).cbufByte c) (i * s.widthOf c + j) = (s.srcElem i).getLsbD j := by
  have hk : i * s.widthOf c + j < s.widthOf c * n := by
    calc i * s.widthOf c + j < i * s.widthOf c + s.widthOf c := by omega
      _ = (i + 1) * s.widthOf c := by ring
      _ ≤ n * s.widthOf c := Nat.mul_le_mul_right _ hi
      _ = s.widthOf c * n := Nat.mul_comm _ _
  have hk8 : i * s.widthOf c + j < 8 * ceilDiv8 (s.widthOf c * n) := by
    rw [ceilDiv8_eq]
    omega
  rw [bitOf_packed c n _ s h.miniBlocks hk8, packedBit_elem _ _ _ _ (by simpa using hi) hj,
    srcPrefix_getD n i s hi]

/-- Rule R71 in the buffer: the padding bits. -/
theorem CountOk.bitOf_packed_padding (h : CountOk c n s) {k : Nat} (hk : s.widthOf c * n ≤ k)
    (hk8 : k < 8 * ceilDiv8 (s.widthOf c * n)) : bitOf ((packed c n s).cbufByte c) k = false := by
  rw [bitOf_packed c n k s h.miniBlocks hk8,
    packedBit_padding _ _ _ (by rwa [srcPrefix_length])]

theorem CountOk.packed_cbufByte_beyond (h : CountOk c n s) {a : Nat}
    (ha : ceilDiv8 (s.widthOf c * n) ≤ a) : (packed c n s).cbufByte c a = s.cbufByte c a := by
  rw [packed_cbufByte, h.packedBytes_length, if_neg (Nat.not_lt.mpr ha)]

end

/-- Settles O21: the next state is that of `exec_packOf_completes`, read bit by bit. -/
theorem packFixedWritesTheLayout : Obligations.PackFixedWritesTheLayout := by
  intro c n s hc h hfit
  refine ⟨packed c n s, exec_packOf_completes c n s h hfit, ?_,
    fun i j hi hj => h.bitOf_packed_elem hi hj, fun k hk hk8 => h.bitOf_packed_padding hk hk8,
    fun a ha => h.packed_cbufByte_beyond ha, by simp, by simp, by simp,
    packed_dbufElem c n s c, packed_valid c n s, packed_rdata c n s, packed_sameOutside c n s⟩
  rw [h.packed_clen, packedLength_fixed hc]

/-! ### When a pack is refused -/

theorem not_srcBelow_iff {n b : Nat} {s : State} :
    ¬SrcBelow n b s ↔ ∃ i, i < n ∧ 2 ^ b ≤ (s.srcElem i).toNat := by
  simp only [SrcBelow, not_forall, not_lt, exists_prop]

theorem exec_packOf_refused_iff (c : Codec) (n : Nat) (s : State) :
    exec (packOf c n) s = .refused .sourceOutOfRange ↔
      CountOk c n s ∧ ¬SrcBelow n (s.widthOf c) s := by
  refine ⟨fun h => ?_, fun ⟨hc, hf⟩ => exec_packOf_refuses c n s hc hf⟩
  rcases exec_packOf_next_or_refused c n s with ⟨t, ht⟩ | ⟨-, hcf⟩
  · rw [ht] at h
    cases h
  · exact hcf

/-- Settles O23, from `exec_packOf_refused_iff`; a 32-bit word is unfit below width 32 only. -/
theorem packIsRefusedExactlyForAnUnfitSource :
    Obligations.PackIsRefusedExactlyForAnUnfitSource := by
  intro c n s
  rw [exec_packOf_refused_iff, not_srcBelow_iff]
  refine ⟨Iff.rfl, fun ⟨_, i, _, hi⟩ => ?_⟩
  have hlt : 2 ^ s.widthOf c < 2 ^ 32 := lt_of_le_of_lt hi (s.srcElem i).isLt
  exact Nat.le_of_lt_succ ((Nat.pow_lt_pow_iff_right (by decide)).mp hlt)

/-! ### What an accepted unpack leaves -/

/-- An unpack writes what its engine owns and nothing outside. -/
theorem unpacked_sameOutside (c : Codec) (n : Nat) (s : State) :
    SameOutside c s (unpacked c n s) :=
  ⟨fun d hd => sameEngine_of_engine_eq (unpacked_engine_ne c n s d hd), unpacked_srcElem c n s,
    by simp [SameRecords], by simp [SameHost]⟩

section
variable {c : Codec} {n i : Nat} {s : State}

theorem CountOk.unpacked_dcnt (h : CountOk c n s) :
    ((unpacked c n s).engine c).dcnt.toNat = n := by
  rw [unpacked_engine]
  simp only [unpackedElems_length _ _ _ _ h.miniBlocks, BitVec.toNat_ofNat]
  exact Nat.mod_eq_of_lt (lt_trans h.lt (by decide))

theorem CountOk.unpacked_dbufElem_beyond (h : CountOk c n s) (hi : n ≤ i) :
    (unpacked c n s).dbufElem c i = s.dbufElem c i := by
  rw [unpacked_dbufElem, unpackedElems_length _ _ _ _ h.miniBlocks, if_neg (Nat.not_lt.mpr hi)]

/-- Rules R80 and R97: FWP and MBP store the extracted element. -/
theorem CountOk.unpacked_dbufElem_extract (h : CountOk c n s) (hc : c ≠ .forb) (hi : i < n) :
    (unpacked c n s).dbufElem c i = BitVec.ofNat 64 (extract (s.cbufByte c) (s.widthOf c) i) := by
  rw [unpacked_dbufElem_lt h hi, unpackedElems_getD _ _ _ _ _ hc h.miniBlocks hi]

/-- Rule R78 in the decoded element: the `B` bits from bit `i × B` on, and zeros above. -/
theorem CountOk.getLsbD_unpacked (h : CountOk c n s) (hc : c ≠ .forb) (hi : i < n) {j : Nat}
    (hj : j < 64) : ((unpacked c n s).dbufElem c i).getLsbD j =
      (decide (j < s.widthOf c) && bitOf (s.cbufByte c) (i * s.widthOf c + j)) := by
  rw [h.unpacked_dbufElem_extract hc hi, BitVec.getLsbD_ofNat, testBit_extract, decide_eq_true hj,
    Bool.true_and]

end

/-- An unpack leaves `WIDTH`, `CFGD` and `CLEN` of its engine. -/
theorem unpacked_keeps_regs (c : Codec) (n : Nat) (s : State) :
    ((unpacked c n s).engine c).width = (s.engine c).width ∧
      ((unpacked c n s).engine c).cfgd = (s.engine c).cfgd ∧
      ((unpacked c n s).engine c).clen = (s.engine c).clen := by
  rw [unpacked_engine]
  exact ⟨rfl, rfl, rfl⟩

/-- Settles O24: the next state is that of `exec_unpackOf_completes`, read bit by bit. -/
theorem unpackFwpExtractsTheElements : Obligations.UnpackFwpExtractsTheElements := by
  intro n s h hb
  obtain ⟨hwidth, hcfgd, hclen⟩ := unpacked_keeps_regs .fwp n s
  exact ⟨unpacked .fwp n s, exec_unpackOf_completes .fwp n s h hb, h.unpacked_dcnt,
    fun i j hi hj => h.getLsbD_unpacked (by decide) hi hj,
    fun i hi => h.unpacked_dbufElem_beyond hi, hwidth, hcfgd, hclen,
    unpacked_cbufByte .fwp n s .fwp, unpacked_valid .fwp n s, unpacked_rdata .fwp n s,
    unpacked_sameOutside .fwp n s⟩

/-! ### A command issued again -/

/-- An operation that stores in engine `c` what the engine already holds changes nothing. -/
theorem storePacked_eq_self {c : Codec} {bytes : List Byte} {len : Nat} {s : State}
    (hb : (s.engine c).cbuf.setPrefix bytes = (s.engine c).cbuf)
    (hl : (s.engine c).clen = BitVec.ofNat 32 len) : storePacked c bytes len s = s := by
  rw [storePacked, hb, ← hl, setEngine_self]

theorem storeDecoded_eq_self {c : Codec} {vals : List Elem} {s : State}
    (hv : (s.engine c).dbuf.setPrefix vals = (s.engine c).dbuf)
    (hn : (s.engine c).dcnt = BitVec.ofNat 32 vals.length) : storeDecoded c vals s = s := by
  rw [storeDecoded, hv, ← hn, setEngine_self]

theorem invalidate_eq_self {c : Codec} {s : State} (h : c = .forb → s.valid = false) :
    invalidate c s = s := by
  cases c with
  | fwp => rfl
  | forb => rw [invalidate, ← h rfl]
  | mbp => rfl

theorem validate_eq_self {c : Codec} {s : State} (h : c = .forb → s.valid = true) :
    validate c s = s := by
  cases c with
  | fwp => rfl
  | forb => rw [validate, ← h rfl]
  | mbp => rfl

theorem packed_packed (c : Codec) (n : Nat) (s : State) :
    packed c n (packed c n s) = packed c n s := by
  have hsrc : srcPrefix n (packed c n s) = srcPrefix n s :=
    List.map_congr_left fun i _ => packed_srcElem c n s i
  have hstore : storePacked c (packedBytes c (srcPrefix n s) (s.widthOf c))
      (packedLength c n (s.widthOf c)) (packed c n s) = packed c n s :=
    storePacked_eq_self (by rw [packed_engine, Memory.setPrefix_setPrefix _ _ _ rfl])
      (by rw [packed_engine])
  rw [packed.eq_def c n (packed c n s), hsrc, packed_widthOf, hstore]
  exact invalidate_eq_self fun hc => by rw [packed_valid, if_pos hc]

theorem unpacked_unpacked (c : Codec) (n : Nat) (s : State) :
    unpacked c n (unpacked c n s) = unpacked c n s := by
  have hbytes : (unpacked c n s).cbufByte c = s.cbufByte c :=
    funext fun a => unpacked_cbufByte c n s c a
  have hstore : storeDecoded c (unpackedElems c (s.cbufByte c) (s.widthOf c) n) (unpacked c n s) =
      unpacked c n s :=
    storeDecoded_eq_self (by rw [unpacked_engine, Memory.setPrefix_setPrefix _ _ _ rfl])
      (by rw [unpacked_engine])
  rw [unpacked.eq_def c n (unpacked c n s), hbytes, unpacked_widthOf, hstore]
  exact validate_eq_self fun hc => by rw [unpacked_valid, if_pos hc]

theorem CountOk.packed {c : Codec} {n : Nat} {s : State} (h : CountOk c n s) (m : Nat) :
    CountOk c n (packed c m s) := by
  simpa [CountOk] using h

theorem CountOk.unpacked {c : Codec} {n : Nat} {s : State} (h : CountOk c n s) (m : Nat) :
    CountOk c n (unpacked c m s) := by
  simpa [CountOk] using h

theorem EnoughBytes.unpacked {c : Codec} {n : Nat} {s : State} (h : EnoughBytes c n s) (m : Nat) :
    EnoughBytes c n (unpacked c m s) := by
  simpa [EnoughBytes] using h

/-- A command whose check does not see the error records gives the same error again, and an error
record is written with the same values; so only its completion remains to be looked at. -/
theorem guarded_again {check : State → Check} {body body' : Host.Outcome State Fault Refusal}
    {w : Word} {s t : State} (hreject : ∀ k, check (rejectWith k w s) = check s)
    (hhalt : ∀ k, check (haltWith k w s) = check s)
    (h : guarded (check s) w s body = .next t)
    (hpass : check s = .pass → guarded (check t) w t body' = .next t) :
    guarded (check t) w t body' = .next t := by
  rcases guarded_next h with ⟨hc, -⟩ | ⟨k, hc, rfl⟩ | ⟨k, hc, rfl⟩
  · exact hpass hc
  · rw [hreject, hc]
    rfl
  · rw [hhalt, hc]
    rfl

theorem exec_packOf_again {c : Codec} {n : Nat} {s t : State}
    (h : exec (packOf c n) s = .next t) : exec (packOf c n) t = .next t := by
  have hg := h
  rw [exec_packOf] at hg ⊢
  refine guarded_again (check := countCheck c n)
    (fun k => countCheck_congr c n (rejectWith_engine k _ s c) rfl)
    (fun k => countCheck_congr c n (haltWith_engine k _ s c) rfl) hg fun hck => ?_
  rw [← exec_packOf]
  have hc := (countCheck_pass_iff c n s).mp hck
  by_cases hf : SrcBelow n (s.widthOf c) s
  · rw [exec_packOf_completes c n s hc hf, Host.Outcome.next.injEq] at h
    have hf' : SrcBelow n ((packed c n s).widthOf c) (packed c n s) := by
      simpa [SrcBelow] using hf
    rw [← h, exec_packOf_completes c n _ (hc.packed n) hf', packed_packed]
  · rw [exec_packOf_refuses c n s hc hf] at h
    cases h

theorem exec_unpackOf_again {c : Codec} {n : Nat} {s t : State}
    (h : exec (unpackOf c n) s = .next t) : exec (unpackOf c n) t = .next t := by
  have hg := h
  rw [exec_unpackOf] at hg ⊢
  refine guarded_again (check := unpackCheck c n)
    (fun k => unpackCheck_congr c n (rejectWith_engine k _ s c) rfl)
    (fun k => unpackCheck_congr c n (haltWith_engine k _ s c) rfl) hg fun hck => ?_
  rw [← exec_unpackOf]
  obtain ⟨hc, hb⟩ := (unpackCheck_pass_iff c n s).mp hck
  rw [exec_unpackOf_completes c n s hc hb, Host.Outcome.next.injEq] at h
  rw [← h, exec_unpackOf_completes c n _ (hc.unpacked n) (hb.unpacked n), unpacked_unpacked]

/-- Settles O29, from `exec_packOf_again` and `exec_unpackOf_again`. -/
theorem repeatingACommandChangesNothing : Obligations.RepeatingACommandChangesNothing := by
  rintro c n i s t (rfl | rfl) h
  · exact exec_packOf_again h
  · exact exec_unpackOf_again h

end Sys2Proof.Machine
end

section
/-! The script of a codec, `cfg.c B`, `pack.c N`, `unpack.c N` (41_fixed_width.md rule R82), run step
by step from a Ready state: each command completes, and what the last one leaves. -/

namespace Sys2Proof.Machine

/-! ### One command of a script -/

/-- Issuing a well-formed command in the Ready state carries it out. -/
theorem step_issue {i : Instr} {s : State} {rest : List Transaction}
    (h : s.script = issue i :: rest) (hR : Ready s) (hw : i.wf = true) (hp : i.port = .cmd) :
    step s = exec i (afterHead .okay s) := by
  refine step_cmd_instr (w := encode i) (rest := rest) ?_ hR (decodeCmd_encode hw hp)
  rw [h, issue, hp]
  rfl

/-- A run whose first step is a next state goes on from there. -/
theorem run_succ {k : Nat} {s t : State} (h : step s = .next t) :
    Sys2Proof.core.run (k + 1) s = Sys2Proof.core.run k t := by
  have h' : Sys2Proof.core.step s = .next t := h
  simp only [Host.Core.run, h']

/-! ### The states of the script -/

/-- After `cfg.c B`. -/
def scriptConfigured (c : Codec) (b : Nat) (s : State) : State :=
  invalidate c (configure c b (afterHead .okay s))

/-- After `cfg.c B`, `pack.c N`. -/
def scriptPacked (c : Codec) (b n : Nat) (s : State) : State :=
  packed c n (afterHead .okay (scriptConfigured c b s))

/-- After `cfg.c B`, `pack.c N`, `unpack.c N`. -/
def scriptUnpacked (c : Codec) (b n : Nat) (s : State) : State :=
  unpacked c n (afterHead .okay (scriptPacked c b n s))

/-- What the host owes for the script of engine `c` at width `b` and count `n`
(70_reset_and_hazards.md rule R138). -/
structure ScriptDuties (c : Codec) (b n : Nat) (s : State) : Prop where
  one_le_width : 1 ≤ b
  width_le : b ≤ wmax c
  count_le : n ≤ s.params.nMax
  count_mod : n % granularity s.params c = 0
  src_below : SrcBelow n b s

section
variable {c : Codec} {b n : Nat} {s : State}

@[simp] theorem scriptConfigured_srcElem (i : Nat) :
    (scriptConfigured c b s).srcElem i = s.srcElem i := by simp [scriptConfigured]

theorem scriptConfigured_ready (h : Ready s) : Ready (scriptConfigured c b s) := by
  simpa [Ready, scriptConfigured] using h

theorem scriptPacked_ready (h : Ready s) : Ready (scriptPacked c b n s) := by
  simpa [Ready, scriptPacked, scriptConfigured] using h

theorem scriptUnpacked_ready (h : Ready s) : Ready (scriptUnpacked c b n s) := by
  simpa [Ready, scriptUnpacked, scriptPacked, scriptConfigured] using h

theorem ScriptDuties.configured_widthOf (h : ScriptDuties c b n s) :
    (afterHead .okay (scriptConfigured c b s)).widthOf c = b := by
  rw [afterHead_widthOf]
  exact constructed_widthOf _ h.width_le

theorem ScriptDuties.configured_countOk (h : ScriptDuties c b n s) :
    CountOk c n (afterHead .okay (scriptConfigured c b s)) := by
  simpa [CountOk, scriptConfigured] using ⟨h.count_le, h.count_mod⟩

theorem ScriptDuties.configured_srcBelow (h : ScriptDuties c b n s) :
    SrcBelow n ((afterHead .okay (scriptConfigured c b s)).widthOf c)
      (afterHead .okay (scriptConfigured c b s)) := by
  rw [h.configured_widthOf]
  simpa [SrcBelow] using h.src_below

theorem ScriptDuties.packed_widthOf (h : ScriptDuties c b n s) :
    (afterHead .okay (scriptPacked c b n s)).widthOf c = b := by
  rw [afterHead_widthOf, scriptPacked, Machine.packed_widthOf, h.configured_widthOf]

theorem ScriptDuties.packed_countOk (h : ScriptDuties c b n s) :
    CountOk c n (afterHead .okay (scriptPacked c b n s)) := by
  simpa [CountOk, scriptPacked] using h.configured_countOk.packed n

theorem ScriptDuties.packed_clen (h : ScriptDuties c b n s) :
    ((scriptPacked c b n s).engine c).clen.toNat = packedLength c n b := by
  rw [scriptPacked, h.configured_countOk.packed_clen, h.configured_widthOf]

/-- The pack supplied at least the bytes the unpack asks for. -/
theorem ScriptDuties.packed_enoughBytes (h : ScriptDuties c b n s) :
    EnoughBytes c n (afterHead .okay (scriptPacked c b n s)) := by
  have hcount := h.configured_countOk
  have hle := packedBytes_length_le c (srcPrefix n (afterHead .okay (scriptConfigured c b s)))
    h.width_le (by simpa using hcount.miniBlocks)
  rw [hcount.packedBytes_length, srcPrefix_length] at hle
  rwa [EnoughBytes, h.packed_widthOf, afterHead_engine, h.packed_clen]

/-! ### The run -/

theorem ScriptDuties.run (h : ScriptDuties c b n s) (hR : Ready s) {rest : List Transaction}
    (hs : s.script = issue (cfgOf c b) :: issue (packOf c n) :: issue (unpackOf c n) :: rest) :
    Sys2Proof.core.run 3 s = .next (scriptUnpacked c b n s) := by
  have hn : n < 2 ^ 26 := h.configured_countOk.lt
  have hs1 : (scriptConfigured c b s).script =
      issue (packOf c n) :: issue (unpackOf c n) :: rest := by
    simp [scriptConfigured, hs]
  have hs2 : (scriptPacked c b n s).script = issue (unpackOf c n) :: rest := by
    simp [scriptPacked, hs1]
  have hcfg : step s = .next (scriptConfigured c b s) := by
    rw [step_issue hs hR ((wf_cfgOf c b).mpr (lt_of_le_of_lt h.width_le (wmax_lt c)))
      (port_cfgOf c b)]
    exact exec_cfgOf_completes c b _ h.one_le_width h.width_le
  have hpack : step (scriptConfigured c b s) = .next (scriptPacked c b n s) := by
    rw [step_issue hs1 (scriptConfigured_ready hR) ((wf_packOf c n).mpr hn) (port_packOf c n)]
    exact exec_packOf_completes c n _ h.configured_countOk h.configured_srcBelow
  have hunpack : step (scriptPacked c b n s) = .next (scriptUnpacked c b n s) := by
    rw [step_issue hs2 (scriptPacked_ready hR) ((wf_unpackOf c n).mpr hn) (port_unpackOf c n)]
    exact exec_unpackOf_completes c n _ h.packed_countOk h.packed_enoughBytes
  rw [run_succ hcfg, run_succ hpack, run_succ hunpack]
  rfl

/-! ### What the script leaves -/

theorem ScriptDuties.clen (h : ScriptDuties c b n s) :
    ((scriptUnpacked c b n s).engine c).clen.toNat = packedLength c n b := by
  obtain ⟨-, -, hclen⟩ := unpacked_keeps_regs c n (afterHead .okay (scriptPacked c b n s))
  rw [scriptUnpacked, hclen, afterHead_engine, h.packed_clen]

theorem ScriptDuties.dcnt (h : ScriptDuties c b n s) :
    ((scriptUnpacked c b n s).engine c).dcnt.toNat = n := h.packed_countOk.unpacked_dcnt

/-- `Extract(PackBits(V, B), B, i) = V[i]`, in the buffer the unpack reads. -/
theorem ScriptDuties.extract_packed (h : ScriptDuties c b n s) {i : Nat} (hi : i < n) :
    extract ((afterHead .okay (scriptPacked c b n s)).cbufByte c) b i = (s.srcElem i).toNat := by
  refine extract_of_bits _ _ b i (h.src_below i hi) fun j hj => ?_
  have hbit := h.configured_countOk.bitOf_packed_elem hi (j := j) (by rwa [h.configured_widthOf])
  rw [h.configured_widthOf, afterHead_srcElem, scriptConfigured_srcElem] at hbit
  simpa [bitOf, scriptPacked] using hbit

/-- The round trip of FWP and MBP. -/
theorem ScriptDuties.dbufElem (h : ScriptDuties c b n s) (hc : c ≠ .forb) {i : Nat} (hi : i < n) :
    (scriptUnpacked c b n s).dbufElem c i = (s.srcElem i).setWidth 64 := by
  rw [scriptUnpacked, h.packed_countOk.unpacked_dbufElem_extract hc hi, h.packed_widthOf,
    h.extract_packed hi, BitVec.ofNat_toNat]

end

/-- Settles O38: the run of the script, and what it leaves. -/
theorem roundTripLawOfFwp : Obligations.RoundTripLawOfFwp := by
  intro b n s rest hR h1 h56 hmax hg hfit hs
  have h : ScriptDuties .fwp b n s := ⟨h1, h56, hmax, hg, hfit⟩
  obtain ⟨hhalt, herr⟩ := scriptUnpacked_ready (c := .fwp) (b := b) (n := n) hR
  exact ⟨scriptUnpacked .fwp b n s, h.run hR hs, herr, hhalt, h.clen, h.dcnt,
    fun i hi => h.dbufElem (by decide) hi⟩

end Sys2Proof.Machine
end

section
/-! The frame-of-reference commands (42_frame_of_reference.md): `at` (rule R88), the running sum of
`unpack.for` (rules R86, R87) and the exact sums its script leaves (rule R90). -/

namespace Sys2Proof.Machine

/-! ### `at` -/

section
variable {i : Nat} {s : State}

theorem atCheck_notConfigured (h : s.forb.cfgd = false) : atCheck i s = .reject .notConfigured := by
  rw [atCheck, if_pos h]

theorem atCheck_stale (h : s.forb.cfgd = true) (hv : s.valid = false) :
    atCheck i s = .reject .stale := by
  simp [atCheck, h, hv]

theorem atCheck_index (h : s.forb.cfgd = true) (hv : s.valid = true)
    (hi : s.forb.dcnt.toNat ≤ i) : atCheck i s = .reject .index := by
  simp [atCheck, h, hv, hi]

theorem exec_atIndex_rejects {k : RejectKind} (h : atCheck i s = .reject k) :
    exec (.atIndex i) s = .next (rejectWith k (encode (.atIndex i)) s) := by
  rw [exec_atIndex, h, guarded_reject]

end

/-- Settles O27: the checks of `at` in the order of rule R88, and the completion behind them. -/
theorem atReadsTheMaterialisedArray : Obligations.AtReadsTheMaterialisedArray :=
  fun i s => ⟨exec_atIndex_completes i s,
    fun h => exec_atIndex_rejects (atCheck_notConfigured h),
    fun h hv => exec_atIndex_rejects (atCheck_stale h hv),
    fun h hv hi => exec_atIndex_rejects (atCheck_index h hv hi)⟩

/-! ### The running sum -/

/-- Rule R86 in the decoded element: the sum of the extracted elements 0 to `i`, modulo 2^64. -/
theorem CountOk.unpacked_dbufElem_sum {n i : Nat} {s : State} (h : CountOk .forb n s)
    (hi : i < n) : ((Machine.unpacked .forb n s).dbufElem .forb i).toNat =
      extractSum (s.cbufByte .forb) (s.widthOf .forb) (i + 1) % 2 ^ 64 := by
  rw [unpacked_dbufElem_lt h hi, unpackedElems_forb_getD _ _ _ _ hi, BitVec.toNat_ofNat]

theorem unpacked_forb_valid (n : Nat) (s : State) : (unpacked .forb n s).valid = true :=
  unpacked_valid .forb n s

/-- Settles O25: the next state is that of `exec_unpackOf_completes`, read element by element. -/
theorem unpackForMaterialisesTheRunningSum : Obligations.UnpackForMaterialisesTheRunningSum := by
  intro n s h hb
  obtain ⟨hwidth, hcfgd, hclen⟩ := unpacked_keeps_regs .forb n s
  exact ⟨unpacked .forb n s, exec_unpackOf_completes .forb n s h hb, h.unpacked_dcnt,
    unpacked_forb_valid n s, fun i hi => h.unpacked_dbufElem_sum hi,
    fun i hi => h.unpacked_dbufElem_beyond hi, hwidth, hcfgd, hclen,
    unpacked_cbufByte .forb n s .forb, unpacked_rdata .forb n s, unpacked_sameOutside .forb n s⟩

/-! ### The exact sums of the script -/

/-- A source element is a 32-bit word (90_conflicts.md C1). -/
theorem srcSum_le (s : State) (m : Nat) : srcSum s m ≤ m * (2 ^ 32 - 1) := by
  induction m with
  | zero => exact Nat.zero_le _
  | succ m ih =>
    have hword : (s.srcElem m).toNat < 2 ^ 32 := (s.srcElem m).isLt
    rw [srcSum]
    omega

section
variable {b n i : Nat} {s : State}

/-- The exact sum over the packed buffer is the exact sum over the source. -/
theorem ScriptDuties.extractSum_packed {c : Codec} (h : ScriptDuties c b n s) {m : Nat}
    (hm : m ≤ n) :
    extractSum ((afterHead .okay (scriptPacked c b n s)).cbufByte c) b m = srcSum s m := by
  induction m with
  | zero => rfl
  | succ m ih => rw [extractSum, srcSum, ih (Nat.le_of_succ_le hm), h.extract_packed hm]

/-- The exact sums of FOR: `N_MAX` is below 2^26, so they stay below 2^58 and never wrap. -/
theorem ScriptDuties.dbufElem_forb (h : ScriptDuties .forb b n s) (hi : i < n) :
    ((scriptUnpacked .forb b n s).dbufElem .forb i).toNat = srcSum s (i + 1) := by
  have hn : n < 2 ^ 26 := h.configured_countOk.lt
  have hsum := srcSum_le s (i + 1)
  rw [scriptUnpacked, h.packed_countOk.unpacked_dbufElem_sum hi, h.packed_widthOf,
    h.extractSum_packed (m := i + 1) hi]
  exact Nat.mod_eq_of_lt (by omega)

theorem ScriptDuties.unpacked_cfgd {c : Codec} (h : ScriptDuties c b n s) :
    ((scriptUnpacked c b n s).engine c).cfgd = true := (h.packed_countOk.unpacked n).1

end

/-- Settles O39: the run of the script, what it leaves, and `at` in the state it leaves. -/
theorem prefixSumLawOfFor : Obligations.PrefixSumLawOfFor := by
  intro b n s rest hR h1 h56 hmax hg hfit hs
  have h : ScriptDuties .forb b n s := ⟨h1, h56, hmax, hg, hfit⟩
  obtain ⟨hhalt, herr⟩ := scriptUnpacked_ready (c := .forb) (b := b) (n := n) hR
  have hvalid : (scriptUnpacked .forb b n s).valid = true := unpacked_forb_valid n _
  refine ⟨scriptUnpacked .forb b n s, h.run hR hs, herr, hhalt, hvalid, h.dcnt, h.clen,
    fun i hi => h.dbufElem_forb hi, fun i hi => ?_⟩
  exact ⟨_, exec_atIndex_completes i _ h.unpacked_cfgd hvalid (lt_of_lt_of_eq hi h.dcnt.symm),
    h.dbufElem_forb hi⟩

end Sys2Proof.Machine
end

section
/-! The life of `VALID` (42_frame_of_reference.md rule R89): `validEvent` at each head of the script,
and what each operation does to the flag. -/

namespace Sys2Proof.Machine

/-! ### The commands -/

/-- What an accepted command does to `VALID`, as `validEvent` lists it (`validEvent_cmd_instr`). -/
def commandEvent (i : Instr) (s : State) : Option Bool :=
  match i with
  | .cfgFor b => if 1 ≤ b ∧ b ≤ 56 then some false else none
  | .packFor n => if countCheck .forb n s = .pass then some false else none
  | .unpackFor n => if unpackCheck .forb n s = .pass then some true else none
  | _ => none

theorem commandEvent_afterHead (r : Response) (i : Instr) (s : State) :
    commandEvent i (afterHead r s) = commandEvent i s := by
  cases i <;> simp [commandEvent]

/-- No command to FWP or MBP is an event. -/
theorem commandEvent_of_addressee_ne {i : Instr} {c : Codec} (hi : addressee i = some c)
    (hc : c ≠ .forb) (s : State) : commandEvent i s = none := by
  cases i with
  | cfgFor b => exact absurd (Option.some.inj hi).symm hc
  | packFor n => exact absurd (Option.some.inj hi).symm hc
  | unpackFor n => exact absurd (Option.some.inj hi).symm hc
  | _ => rfl

/-- `nop` is the one command addressed to no engine. -/
theorem eq_nop_of_unaddressed {i : Instr} (hp : i.port = .cmd) (hi : addressee i = none) :
    i = .nop := by
  cases i with
  | nop => rfl
  | srst => cases hp
  | clrerr => cases hp
  | _ => cases hi

/-- An error of either tier leaves `VALID`, so a command writes it only behind its checks. -/
theorem guarded_valid {ck : Check} {w : Word} {s t : State} {v : Bool}
    {body : Host.Outcome State Fault Refusal} (h : guarded ck w s body = .next t)
    (hb : body = .next t → t.valid = v) :
    t.valid = (if ck = .pass then some v else none).getD s.valid := by
  rcases guarded_next h with ⟨rfl, ht⟩ | ⟨k, rfl, rfl⟩ | ⟨k, rfl, rfl⟩
  · exact hb ht
  · rfl
  · rfl

section
variable {s t : State}

theorem exec_cfgFor_valid {b : Nat} (h : exec (cfgOf .forb b) s = .next t) :
    t.valid = (commandEvent (cfgOf .forb b) s).getD s.valid := by
  rw [exec_cfgOf] at h
  have hv := guarded_valid (v := false) h fun ht => by cases ht; rfl
  rwa [if_congr (cfgCheck_pass_iff .forb b) rfl rfl] at hv

theorem exec_packFor_valid {n : Nat} (h : exec (packOf .forb n) s = .next t) :
    t.valid = (commandEvent (packOf .forb n) s).getD s.valid := by
  rw [exec_packOf] at h
  refine guarded_valid h fun ht => ?_
  split at ht
  · cases ht
    rfl
  · cases ht

theorem exec_unpackFor_valid {n : Nat} (h : exec (unpackOf .forb n) s = .next t) :
    t.valid = (commandEvent (unpackOf .forb n) s).getD s.valid := by
  rw [exec_unpackOf] at h
  exact guarded_valid h fun ht => by cases ht; rfl

theorem exec_atIndex_valid {i : Nat} (h : exec (.atIndex i) s = .next t) :
    t.valid = s.valid := by
  rw [exec_atIndex] at h
  rcases guarded_next h with ⟨-, ht⟩ | ⟨k, -, rfl⟩ | ⟨k, -, rfl⟩
  · cases ht
    rfl
  · rfl
  · rfl

/-- Every command does to `VALID` what `commandEvent` says. -/
theorem exec_valid {i : Instr} (hp : i.port = .cmd) (h : exec i s = .next t) :
    t.valid = (commandEvent i s).getD s.valid := by
  cases hi : addressee i with
  | none =>
    obtain rfl := eq_nop_of_unaddressed hp hi
    cases h
    rfl
  | some c =>
    by_cases hc : c = .forb
    · subst hc
      rcases addressed_cases hi with ⟨b, rfl⟩ | ⟨n, rfl⟩ | ⟨n, rfl⟩ | ⟨-, k, rfl⟩
      · exact exec_cfgFor_valid h
      · exact exec_packFor_valid h
      · exact exec_unpackFor_valid h
      · exact exec_atIndex_valid h
    · obtain ⟨-, -, hv⟩ := exec_writesOnly hi h
      rw [commandEvent_of_addressee_ne hi hc]
      exact (hv hc).1

end

/-! ### The host writes -/

theorem writeClen_valid (c : Codec) (v : Word) (s : State) :
    (writeClen c v s).valid =
      if c = .forb ∧ v.toNat ≤ ccap s.params .forb then false else s.valid := by
  by_cases hv : v.toNat ≤ ccap s.params c
  · rw [writeClen_accepted c v s hv, invalidate_valid, setEngine_valid]
    cases c <;> simp [hv]
  · rw [writeClen_ignored c v s (Nat.lt_of_not_le hv), if_neg]
    rintro ⟨rfl, hle⟩
    exact hv hle

/-! ### `validEvent`, by the head of the script -/

section
variable {s : State} {rest : List Transaction}

theorem validEvent_nil (h : s.script = []) : validEvent s = none := by
  rw [validEvent, h]

theorem validEvent_cmd_instr {w : Word} {i : Instr} (h : s.script = .regWrite 0x004 4 w :: rest)
    (hR : Ready s) (hd : decodeCmd w = .instr i) : validEvent s = commandEvent i s := by
  obtain ⟨hhalt, herr⟩ := hR
  cases i <;> simp [validEvent, commandEvent, h, hhalt, herr, hd]

theorem validEvent_cmd_illegal {w : Word} {k : RejectKind}
    (h : s.script = .regWrite 0x004 4 w :: rest) (hd : decodeCmd w = .illegal k) :
    validEvent s = none := by
  simp [validEvent, h, hd]

theorem validEvent_ctrl {d : Word} (h : s.script = .regWrite 0x01C 4 d :: rest) :
    validEvent s = if decodeCtrl d = some .srst then some false else none := by
  simp [validEvent, h]

theorem validEvent_clen {c : Codec} {v : Word}
    (h : s.script = .regWrite (0x048 + 0x20 * codecIndex c) 4 v :: rest) :
    validEvent s =
      if c = .forb ∧ v.toNat ≤ ccap s.params .forb then some false else none := by
  cases c <;> simp [validEvent, h, codecIndex]

theorem validEvent_srcWrite {i : Nat} {v : Word} (h : s.script = .srcWrite i v :: rest) :
    validEvent s = none := by
  rw [validEvent, h]

theorem validEvent_cbufWrite {c : Codec} {a : Nat} {b : Byte}
    (h : s.script = .cbufWrite (codecIndex c) a b :: rest) (ha : a < ccap s.params c) :
    validEvent s = if c = .forb then some false else none := by
  cases c <;> simp [validEvent, h, codecIndex, ha]

theorem validEvent_hardReset (h : s.script = .hardReset :: rest) :
    validEvent s = some false := by
  rw [validEvent, h]

end

/-- Settles O28: for each thing a step can do (`step_next_cases`) its effect on `VALID` is the
event of the head of the script. -/
theorem validFollowsItsLifecycle : Obligations.ValidFollowsItsLifecycle := by
  intro s t h
  rcases step_next_cases h with ⟨hs, rfl⟩ | ⟨r, rfl, hv⟩ | ⟨w, rest, i, hs, hR, hd, hx⟩ |
    ⟨w, rest, k, hs, -, hd, rfl⟩ | ⟨d, rest, i, hs, hd, hx⟩ | ⟨c, v, rest, hs, rfl⟩ |
    ⟨i, v, rest, hs, -, rfl⟩ | ⟨c, a, b, rest, hs, ha, rfl⟩ | ⟨rest, hs, rfl⟩
  · rw [validEvent_nil hs]
    rfl
  · rw [hv]
    rfl
  · obtain ⟨-, hp, -⟩ := encode_of_decodeCmd hd
    rw [validEvent_cmd_instr hs hR hd, ← commandEvent_afterHead .okay]
    exact exec_valid hp hx
  · rw [validEvent_cmd_illegal hs hd]
    rfl
  · rw [validEvent_ctrl hs, hd]
    rcases decodeCtrl_some hd with rfl | rfl <;> cases hx <;> rfl
  · rw [validEvent_clen hs, writeClen_valid, afterHead_params]
    split <;> rfl
  · rw [validEvent_srcWrite hs]
    rfl
  · rw [validEvent_cbufWrite hs ha, writeCbuf_valid]
    split <;> rfl
  · rw [validEvent_hardReset hs]
    rfl

end Sys2Proof.Machine
end

section
/-! The mini-block commands (43_mini_block.md): what `pack.mbp` and `unpack.mbp` leave, lane by lane
(rules R93 to R97), the round trip (rule R99), and that the used bytes are those of the fixed-width
layout (rule R100). -/

namespace Sys2Proof.Machine

/-! ### Lanes -/

/-- The bits of lane `j` of mini-block `m` are those of element `16 × m + j` (rules R93, R100). -/
theorem laneBit_eq (b m j k : Nat) : 16 * b * m + j * b + k = (16 * m + j) * b + k := by ring

section
variable {n a : Nat} {s : State}

/-- A lane of a whole mini-block is an element of the count. -/
theorem lane_lt {m j : Nat} (hm : m < n / 16) (hj : j < 16) : 16 * m + j < n := by omega

/-! ### What an accepted pack leaves -/

/-- The used bytes of `pack.mbp` have no padding (rule R95). -/
theorem CountOk.mbp_usedLength (h : CountOk .mbp n s) (b : Nat) : ceilDiv8 (b * n) = b * n / 8 := by
  have hdvd : 8 ∣ b * n :=
    Dvd.dvd.mul_left (Dvd.dvd.trans (by decide) (Nat.dvd_of_mod_eq_zero (h.miniBlocks rfl))) b
  rw [ceilDiv8_eq]
  omega

/-- A used byte of any pack is that of the fixed-width layout (rules R71, R100). -/
theorem CountOk.packed_cbufByte_used {c : Codec} (h : CountOk c n s)
    (ha : a < ceilDiv8 (s.widthOf c * n)) :
    (Machine.packed c n s).cbufByte c a =
      (packBits (srcPrefix n s) (s.widthOf c)).getD a 0 := by
  rw [packed_cbufByte, h.packedBytes_length, if_pos ha,
    packedBytes_eq _ _ _ (by simpa using h.miniBlocks)]

end

/-- A pack leaves `WIDTH`, `CFGD` and `DCNT` of its engine. -/
theorem packed_keeps_regs (c : Codec) (n : Nat) (s : State) :
    ((packed c n s).engine c).width = (s.engine c).width ∧
      ((packed c n s).engine c).cfgd = (s.engine c).cfgd ∧
      ((packed c n s).engine c).dcnt = (s.engine c).dcnt := by
  rw [packed_engine]
  exact ⟨rfl, rfl, rfl⟩

/-- Settles O22: the next state is that of `exec_packOf_completes`, a lane being an element. -/
theorem packMbpWritesMiniBlocks : Obligations.PackMbpWritesMiniBlocks := by
  intro n s h hfit
  obtain ⟨hwidth, hcfgd, hdcnt⟩ := packed_keeps_regs .mbp n s
  refine ⟨packed .mbp n s, exec_packOf_completes .mbp n s h hfit, h.packed_clen,
    fun m j k hm hj hk => ?_, fun a ha => ?_, hwidth, hcfgd, hdcnt,
    packed_dbufElem .mbp n s .mbp, packed_valid .mbp n s, packed_rdata .mbp n s,
    packed_sameOutside .mbp n s⟩
  · rw [laneBit_eq]
    exact h.bitOf_packed_elem (lane_lt hm hj) hk
  · exact h.packed_cbufByte_beyond ((h.mbp_usedLength _).trans_le ha)

/-- Settles O26: the next state is that of `exec_unpackOf_completes`, a lane being an element. -/
theorem unpackMbpExtractsTheLanes : Obligations.UnpackMbpExtractsTheLanes := by
  intro n s h hb
  obtain ⟨hwidth, hcfgd, hclen⟩ := unpacked_keeps_regs .mbp n s
  refine ⟨unpacked .mbp n s, exec_unpackOf_completes .mbp n s h hb, h.unpacked_dcnt,
    fun m j k hm hj hk => ?_, fun i hi => h.unpacked_dbufElem_beyond hi, hwidth, hcfgd, hclen,
    unpacked_cbufByte .mbp n s .mbp, unpacked_valid .mbp n s, unpacked_rdata .mbp n s,
    unpacked_sameOutside .mbp n s⟩
  rw [laneBit_eq]
  exact h.getLsbD_unpacked (by decide) (lane_lt hm hj) hk

/-! ### The laws -/

/-- Settles O40: the run of the script, and what it leaves. -/
theorem roundTripLawOfMbp : Obligations.RoundTripLawOfMbp := by
  intro b n s rest hR h1 h32 hmax hg hfit hs
  have h : ScriptDuties .mbp b n s := ⟨h1, h32, hmax, hg, hfit⟩
  obtain ⟨hhalt, herr⟩ := scriptUnpacked_ready (c := .mbp) (b := b) (n := n) hR
  exact ⟨scriptUnpacked .mbp b n s, h.run hR hs, herr, hhalt, h.dcnt,
    fun i hi => h.dbufElem (by decide) hi⟩

/-- A pack whose checks pass answers a next state only by completing. -/
theorem CountOk.eq_packed {c : Codec} {n : Nat} {s t : State} (h : CountOk c n s)
    (ht : exec (packOf c n) s = .next t) : t = Machine.packed c n s := by
  have hfit : SrcBelow n (s.widthOf c) s := by
    by_contra hf
    rw [exec_packOf_refuses c n s h hf] at ht
    cases ht
  rw [exec_packOf_completes c n s h hfit, Host.Outcome.next.injEq] at ht
  exact ht.symm

/-- Settles O44: both packs write the fixed-width layout of one source at one width. -/
theorem miniBlockBytesEqualFixedWidthBytes : Obligations.MiniBlockBytesEqualFixedWidthBytes := by
  intro n s t u _ hw hm hf ht hu a ha
  obtain rfl : t = packed .mbp n s := hm.eq_packed ht
  obtain rfl : u = packed .fwp n s := hf.eq_packed hu
  have hused : a < ceilDiv8 (s.widthOf .mbp * n) := ha.trans_eq (hm.mbp_usedLength _).symm
  rw [hm.packed_cbufByte_used hused, hf.packed_cbufByte_used (by rwa [hw]), hw]

end Sys2Proof.Machine
end

section
/-! The system operations and the acceptance of a write to `CMD` (44_system.md): what an accepted
command does to the error records, when a write is dropped (rules R102, R103), the operations of
`CTRL` (rules R104, R105), and the port a table word is issued at (logs 2 and 7). -/

namespace Sys2Proof.Machine

/-! ### A command and the error records -/

/-- A command completes and leaves both records, or raises one error with its own word. -/
theorem exec_cmd_records {i : Instr} {s t : State} (hp : i.port = .cmd) (h : exec i s = .next t) :
    SameRecords s t ∨ (∃ k, t = rejectWith k (encode i) s) ∨
      ∃ k, t = haltWith k (encode i) s := by
  rcases exec_next_cases h with ⟨k, rfl⟩ | rfl | ⟨c, b, -, -, -, rfl⟩ | ⟨c, n, -, -, -, rfl⟩ |
    ⟨c, n, -, -, -, rfl⟩ | ⟨n, -, -, -, -, rfl⟩ | ⟨-, rfl⟩ | ⟨rfl, -⟩ | ⟨rfl, -⟩
  · exact .inr (.inl ⟨k, rfl⟩)
  · exact .inr (.inr ⟨_, rfl⟩)
  · exact .inl (by simp [SameRecords])
  · exact .inl (by simp [SameRecords])
  · exact .inl (by simp [SameRecords])
  · exact .inl ⟨rfl, rfl, rfl, rfl, rfl, rfl⟩
  · exact .inl ⟨rfl, rfl, rfl, rfl, rfl, rfl⟩
  · cases hp
  · cases hp

theorem SameRecords.ready {s t : State} (h : SameRecords s t) (hR : Ready s) : Ready t := by
  obtain ⟨herr, -, -, hhalt, -⟩ := h
  obtain ⟨hh, he⟩ := hR
  exact ⟨hhalt.trans hh, herr.trans he⟩

/-! ### A write to `CMD` -/

theorem not_ready_iff {s : State} : ¬Ready s ↔ s.halt = true ∨ s.err = true := by
  simp only [Ready, not_and_or, Bool.not_eq_false]

section
variable {s : State} {w : Word} {rest : List Transaction}

/-- While an error of either tier is pending the command is dropped (rule R102). -/
theorem step_cmd_dropped (h : s.script = .regWrite 0x004 4 w :: rest)
    (hd : s.halt = true ∨ s.err = true) : step s = .next (afterHead .okay s) :=
  (step_cmd h).trans (writeCmd_dropped hd)

/-- What an accepted word leaves: no error, or one record that holds the word. -/
theorem step_cmd_ready_cases {t : State} (h : s.script = .regWrite 0x004 4 w :: rest)
    (hR : Ready s) (ht : step s = .next t) :
    Ready t ∨ (∃ k, t = rejectWith k w (afterHead .okay s)) ∨
      ∃ k, t = haltWith k w (afterHead .okay s) := by
  cases hd : decodeCmd w with
  | illegal k =>
    rw [step_cmd_illegal h hR hd, Host.Outcome.next.injEq] at ht
    exact .inr (.inl ⟨k, ht.symm⟩)
  | instr i =>
    obtain ⟨-, hp, rfl⟩ := encode_of_decodeCmd hd
    rw [step_cmd_instr h hR hd] at ht
    exact (exec_cmd_records hp ht).imp_left fun hr => hr.ready hR

end

/-- Settles O7: a pending error drops the command; else the step is the decoding's, and
`step_cmd_ready_cases` says what it leaves. -/
theorem commandAcceptance : Obligations.CommandAcceptance := by
  intro s w rest h
  refine ⟨fun hh => step_cmd_dropped h (.inl hh), fun _ he => step_cmd_dropped h (.inr he),
    fun hR i => step_cmd_instr h hR, fun hR k => step_cmd_illegal h hR, fun hR t ht => ?_⟩
  rcases step_cmd_ready_cases h hR ht with ⟨hhalt, herr⟩ | ⟨k, rfl⟩ | ⟨k, rfl⟩
  · exact .inl ⟨herr, hhalt⟩
  · exact .inr (.inl ⟨rejectCode k, rfl⟩)
  · exact .inr (.inr ⟨fatalCode k, rfl⟩)

/-! ### `nop` and the other words with `OP = 0` -/

/-- Step 2 of rule R57: of the words with `OP = 0` only the word 0 is an instruction. -/
theorem decodeCmd_of_opField_zero {w : Word} (hop : opField w = 0) (hw : w ≠ 0) :
    decodeCmd w = .illegal .illegalCommand := by
  simpa [decodeCmd, hop] using hw

/-- Settles O30: an accepted `nop` and a dropped one leave the same state. -/
theorem nopChangesNothing : Obligations.NopChangesNothing := by
  refine ⟨exec_nop, fun s rest h => ?_, fun s w rest h hR hop hw =>
    step_cmd_illegal h hR (decodeCmd_of_opField_zero hop hw)⟩
  by_cases hR : Ready s
  · exact step_cmd_instr (i := .nop) h hR rfl
  · exact step_cmd_dropped h (not_ready_iff.mp hR)

/-! ### The operations of `CTRL` -/

/-- Settles O31: `clrerr` is `clearError`, and the word 2 runs it in every state. -/
theorem clrerrClearsTheRecoverableRecord : Obligations.ClrerrClearsTheRecoverableRecord :=
  ⟨exec_clrerr, fun _ _ h => step_ctrl_some h ((decodeCtrl_clrerr_iff _).mpr rfl)⟩

/-- Settles O32: `srst` is `resetRegs`, field by field, and both its words run it in every state. -/
theorem srstResetsRegistersAndKeepsBuffers : Obligations.SrstResetsRegistersAndKeepsBuffers := by
  refine ⟨fun s => ⟨resetRegs s, exec_srst s, fun c => ?_, rfl, rfl, rfl, rfl, rfl, rfl, rfl, rfl,
    resetRegs_srcElem s, rfl, rfl, rfl⟩,
    fun s d rest hd h => step_ctrl_some h ((decodeCtrl_srst_iff d).mpr hd)⟩
  rw [resetRegs_engine]
  exact ⟨rfl, rfl, rfl, rfl, resetRegs_cbufByte s c, resetRegs_dbufElem s c⟩

/-! ### The word of the opcode table placed next -/

theorem decodeAt_cmd_iff {w : Word} {i : Instr} :
    decodeAt .cmd w = some i ↔ decodeCmd w = .instr i := by
  cases hd : decodeCmd w with
  | instr j => simp [decodeAt, hd, Decoded.instr?]
  | illegal k => simp [decodeAt, hd, Decoded.instr?]

/-- An instruction decodes at its own port only. -/
theorem port_of_decodeAt {p : Port} {w : Word} {i : Instr} (h : decodeAt p w = some i) :
    i.port = p := by
  cases p with
  | cmd =>
    obtain ⟨-, hp, -⟩ := encode_of_decodeCmd (decodeAt_cmd_iff.mp h)
    exact hp
  | ctrl => rcases decodeCtrl_some h with rfl | rfl <;> rfl

/-- A table word is issued at the port it decodes at (log 7). -/
theorem decodeAt_tablePort (w : Word) :
    decodeAt (tablePort w) w = (decodeAt .cmd w).or (decodeAt .ctrl w) := by
  cases hc : decodeAt .cmd w with
  | some i => simp [tablePort, hc]
  | none => cases hk : decodeAt .ctrl w <;> simp [tablePort, hc, hk]

/-- The issue of a word runs what it decodes to: at `CMD` in the Ready state, at `CTRL` in every
state (rules R59, R61, R102). -/
theorem step_issueWord {p : Port} {w : Word} {i : Instr} {s : State} {rest : List Transaction}
    (h : s.script = issueWord p w :: rest) (hd : decodeAt p w = some i)
    (ha : Ready s ∨ p = .ctrl) : step s = exec i (afterHead .okay s) := by
  cases p with
  | ctrl => exact step_ctrl_some h hd
  | cmd =>
    have hR : Ready s := ha.resolve_right nofun
    exact step_cmd_instr h hR (decodeAt_cmd_iff.mp hd)

/-- Settles O8: the word is issued at the port it decodes at, which is that of its instruction. -/
theorem placedTableWordIsRunNext : Obligations.PlacedTableWordIsRunNext := by
  intro s w i _ hd ha
  have hport := (decodeAt_tablePort (BitVec.ofNat 32 (w % 2 ^ 32))).trans hd
  rw [port_of_decodeAt hport] at ha
  exact step_issueWord rfl hport ha

end Sys2Proof.Machine
end

section
/-! The checks of a command (60_exceptions.md): what its own checks decide (rules R118, R120 to R122),
the fourteen lines of rule R127 in three groups, and which steps raise an error (rules R110, R114,
R115). -/

namespace Sys2Proof.Machine

/-! ### The checks of one instruction -/

/-- What checks 8 to 14 of rule R127 decide about an accepted instruction. -/
def commandCheck (s : State) : Instr → Check
  | .nop => .pass
  | .cfgFwp b => cfgCheck .fwp b
  | .cfgFor b => cfgCheck .forb b
  | .cfgMbp b => cfgCheck .mbp b
  | .packFwp n => countCheck .fwp n s
  | .packFor n => countCheck .forb n s
  | .packMbp n => countCheck .mbp n s
  | .unpackFwp n => unpackCheck .fwp n s
  | .unpackFor n => unpackCheck .forb n s
  | .unpackMbp n => unpackCheck .mbp n s
  | .atIndex k => atCheck k s
  | .srst => .pass
  | .clrerr => .pass

section
variable {i : Instr} {c : Codec} {n : Nat} {s : State}

@[simp] theorem commandCheck_cfgOf : commandCheck s (cfgOf c n) = cfgCheck c n := by cases c <;> rfl

@[simp] theorem commandCheck_packOf : commandCheck s (packOf c n) = countCheck c n s := by
  cases c <;> rfl

@[simp] theorem commandCheck_unpackOf : commandCheck s (unpackOf c n) = unpackCheck c n s := by
  cases c <;> rfl

@[simp] theorem commandCheck_atIndex : commandCheck s (.atIndex n) = atCheck n s := rfl

theorem commandCheck_afterHead (r : Response) :
    commandCheck (afterHead r s) i = commandCheck s i := by
  cases i <;> simp [commandCheck]

/-- A `pack` and an `unpack` with one count fail the same count check. -/
theorem commandCheck_of_countCheck {k : Check} (hi : i = packOf c n ∨ i = unpackOf c n)
    (h : countCheck c n s = k) (hk : k ≠ .pass) : commandCheck s i = k := by
  rcases hi with rfl | rfl
  · rw [commandCheck_packOf, h]
  · rw [commandCheck_unpackOf, unpackCheck_of_countCheck c n s k h hk]

theorem guarded_guarded (ck : Check) (w : Word) (s : State)
    (body : Host.Outcome State Fault Refusal) :
    guarded ck w s (guarded ck w s body) = guarded ck w s body := by
  cases ck <;> rfl

/-- Every instruction runs under its checks, with its own word. -/
theorem exec_guarded (i : Instr) (s : State) :
    exec i s = guarded (commandCheck s i) (encode i) s (exec i s) := by
  rcases instr_shape i with ⟨c, b, rfl⟩ | ⟨c, n, rfl⟩ | ⟨c, n, rfl⟩ | ⟨n, rfl⟩ | rfl | rfl | rfl
  · rw [commandCheck_cfgOf, exec_cfgOf, guarded_guarded]
  · rw [commandCheck_packOf, exec_packOf, guarded_guarded]
  · rw [commandCheck_unpackOf, exec_unpackOf, guarded_guarded]
  · rw [commandCheck_atIndex, exec_atIndex, guarded_guarded]
  · rfl
  · rfl
  · rfl

theorem exec_rejected {k : RejectKind} (h : commandCheck s i = .reject k) :
    exec i s = .next (rejectWith k (encode i) s) := by
  rw [exec_guarded, h, guarded_reject]

theorem exec_halted {k : FatalKind} (h : commandCheck s i = .halt k) :
    exec i s = .next (haltWith k (encode i) s) := by
  rw [exec_guarded, h, guarded_halt]

/-- A command whose checks pass raises no error. -/
theorem exec_passed_records {t : State} (hp : i.port = .cmd) (hc : commandCheck s i = .pass)
    (h : exec i s = .next t) : SameRecords s t := by
  rcases instr_shape i with ⟨c, b, rfl⟩ | ⟨c, n, rfl⟩ | ⟨c, n, rfl⟩ | ⟨n, rfl⟩ | rfl | rfl | rfl
  · rw [commandCheck_cfgOf] at hc
    rw [exec_cfgOf, hc, guarded_pass, Host.Outcome.next.injEq] at h
    simp [SameRecords, ← h]
  · rw [commandCheck_packOf, countCheck_pass_iff] at hc
    simp [SameRecords, hc.eq_packed h]
  · rw [commandCheck_unpackOf] at hc
    rw [exec_unpackOf, hc, guarded_pass, Host.Outcome.next.injEq] at h
    simp [SameRecords, ← h]
  · rw [commandCheck_atIndex] at hc
    rw [exec_atIndex, hc, guarded_pass, Host.Outcome.next.injEq] at h
    simp [SameRecords, ← h]
  · rw [exec_nop, Host.Outcome.next.injEq] at h
    simp [SameRecords, h]
  · cases hp
  · cases hp

end

/-- Settles O12: the granularity fails behind a constructed engine and a count within the capacity,
before `CLEN` is looked at. -/
theorem badGranularityHaltsTheBlock : Obligations.BadGranularityHaltsTheBlock := by
  intro c n i s hi hc hmax hg
  have hgran : granularity s.params c = if c = .mbp then 32 else s.params.gFixed := by
    cases c <;> rfl
  have hcheck := countCheck_granularity c n s hc hmax (hgran ▸ hg)
  exact exec_halted (commandCheck_of_countCheck hi hcheck nofun)

/-- Settles O13: the construction is the first check of all three. -/
theorem unconfiguredEngineRejects : Obligations.UnconfiguredEngineRejects := by
  intro c n i s hi hc
  have hcheck : commandCheck s i = .reject .notConfigured := by
    rcases hi with hi | hi | ⟨rfl, rfl⟩
    · exact commandCheck_of_countCheck (.inl hi) (countCheck_notConfigured c n s hc) nofun
    · exact commandCheck_of_countCheck (.inr hi) (countCheck_notConfigured c n s hc) nofun
    · exact atCheck_notConfigured hc
  exact exec_rejected hcheck

/-- Settles O14: the capacity is checked before the granularity. -/
theorem countAboveCapacityRejects : Obligations.CountAboveCapacityRejects := by
  intro c n i s hi hc hmax
  exact exec_rejected (commandCheck_of_countCheck hi (countCheck_capacity c n s hc hmax) nofun)

/-- Settles O15: missing bytes are the negation of `EnoughBytes`. -/
theorem missingBytesReject : Obligations.MissingBytesReject :=
  fun _ _ _ h hb => exec_unpackOf_underrun h (Nat.not_le.mpr hb)

/-! ### The fourteen lines of rule R127 -/

/-- What a check reports, with the codes of rule R112. -/
def Check.verdict : Check → Option Verdict
  | .pass => none
  | .reject k => some (.rejected (rejectCode k))
  | .halt k => some (.halted (fatalCode k))

@[simp] theorem Check.verdict_pass : Check.pass.verdict = none := rfl

@[simp] theorem Check.verdict_reject (k : RejectKind) :
    (Check.reject k).verdict = some (.rejected (rejectCode k)) := rfl

@[simp] theorem Check.verdict_halt (k : FatalKind) :
    (Check.halt k).verdict = some (.halted (fatalCode k)) := rfl

/-- What the decoder reports. -/
def decodedVerdict : Decoded → Option Verdict
  | .instr _ => none
  | .illegal k => some (.rejected (rejectCode k))

/-- Lines 1 and 2: a command is dropped. -/
def dropLines (s : State) : List (Bool × Verdict) := [(s.halt, .dropped), (s.err, .dropped)]

/-- Lines 3 to 7: a word is no instruction. -/
def decodeLines (w : Word) : List (Bool × Verdict) :=
  [ (decide (5 ≤ opField w), .rejected 2),
    (decide (opField w = 0 ∧ w ≠ 0), .rejected 2),
    (decide (cselField w = 3), .rejected 1),
    (decide (opField w = 4 ∧ cselField w ≠ 1), .rejected 2),
    (decide (opField w = 1 ∧ argField w >>> 6 ≠ 0), .rejected 2) ]

/-- Lines 8 to 14: a check of the instruction with code `op`, engine `c` and operand `arg` fails. -/
def checkLines (op : Nat) (c : Codec) (arg : Nat) (s : State) : List (Bool × Verdict) :=
  [ (decide (op = 1 ∧ (arg = 0 ∨ wmax c < arg)), .rejected 3),
    (decide ((op = 2 ∨ op = 3 ∨ op = 4) ∧ (s.engine c).cfgd = false), .rejected 4),
    (decide ((op = 2 ∨ op = 3) ∧ s.params.nMax < arg), .rejected 5),
    (decide ((op = 2 ∨ op = 3) ∧ arg % granularity s.params c ≠ 0), .halted 1),
    (decide (op = 3 ∧ (s.engine c).clen.toNat < ceilDiv8 (s.widthOf c * arg)), .rejected 6),
    (decide (op = 4 ∧ s.valid = false), .rejected 7),
    (decide (op = 4 ∧ s.forb.dcnt.toNat ≤ arg), .rejected 8) ]

theorem priorityList_eq_append (w : Word) (s : State) :
    priorityList w s = dropLines s ++ (decodeLines w ++
      checkLines (opField w) ((codecOfNat? (cselField w)).getD .fwp) (argField w) s) := rfl

theorem firstVerdict_cons (p : Bool) (v : Verdict) (rest : List (Bool × Verdict)) :
    firstVerdict ((p, v) :: rest) = if p then some v else firstVerdict rest := by cases p <;> rfl

theorem firstVerdict_append (l l' : List (Bool × Verdict)) :
    firstVerdict (l ++ l') = (firstVerdict l).or (firstVerdict l') := by
  induction l with
  | nil => rfl
  | cons x l ih =>
    obtain ⟨p, v⟩ := x
    cases p with
    | false => exact ih
    | true => rfl

theorem firstVerdict_dropLines_ready {s : State} (h : Ready s) :
    firstVerdict (dropLines s) = none := by
  obtain ⟨hhalt, herr⟩ := h
  simp [dropLines, firstVerdict, hhalt, herr]

theorem firstVerdict_dropLines_pending {s : State} (h : s.halt = true ∨ s.err = true) :
    firstVerdict (dropLines s) = some .dropped := by
  simp only [dropLines, firstVerdict_cons]
  rcases h with h | h <;> simp [h]

/-- Lines 3 to 7 are the decode procedure of rule R57. -/
theorem firstVerdict_decodeLines (w : Word) :
    firstVerdict (decodeLines w) = decodedVerdict (decodeCmd w) := by
  by_cases hw : w = 0
  · rw [hw]
    rfl
  · simp only [decodeLines, firstVerdict_cons, decide_eq_true_eq, ne_eq, hw, not_false_eq_true,
      and_true, decodeCmd, if_false]
    split_ifs with h5 h0 h3 h4 h6
    · rfl
    · rfl
    · rfl
    · rfl
    · rfl
    · have hcs := cselField_lt w
      have hsome := selectInstr_isSome (arg := argField w) (by omega) (by omega) (by omega) h4
      obtain ⟨i, hi⟩ := Option.isSome_iff_exists.mp hsome
      rw [hi]
      rfl

section
variable (c : Codec) (k : Nat) (s : State)

/-- Checks 9 to 12 as one chain. -/
theorem unpackCheck_eq_ite :
    unpackCheck c k s =
      if (s.engine c).cfgd = false then .reject .notConfigured
      else if s.params.nMax < k then .reject .capacity
      else if k % granularity s.params c ≠ 0 then .halt .granularityError
      else if (s.engine c).clen.toNat < ceilDiv8 (s.widthOf c * k) then .reject .underrun
      else .pass := by
  unfold unpackCheck countCheck bytesNeeded
  split_ifs <;> rfl

theorem firstVerdict_checkLines_cfg :
    firstVerdict (checkLines 1 c k s) = (cfgCheck c k).verdict := by
  simp [checkLines, firstVerdict_cons, firstVerdict, cfgCheck, apply_ite Check.verdict, rejectCode]

theorem firstVerdict_checkLines_pack :
    firstVerdict (checkLines 2 c k s) = (countCheck c k s).verdict := by
  unfold countCheck
  split_ifs <;> simp [checkLines, firstVerdict, rejectCode, fatalCode, *]

theorem firstVerdict_checkLines_unpack :
    firstVerdict (checkLines 3 c k s) = (unpackCheck c k s).verdict := by
  rw [unpackCheck_eq_ite]
  split_ifs <;> simp [checkLines, firstVerdict, rejectCode, fatalCode, *]

theorem firstVerdict_checkLines_at :
    firstVerdict (checkLines 4 .forb k s) = (atCheck k s).verdict := by
  unfold atCheck
  split_ifs <;> simp [checkLines, firstVerdict, rejectCode, State.engine, *]

end

/-- Lines 8 to 14 are the checks of the instruction the word decodes to. -/
theorem firstVerdict_checkLines {w : Word} {i : Instr} (h : decodeCmd w = .instr i) (s : State) :
    firstVerdict (checkLines (opField w) ((codecOfNat? (cselField w)).getD .fwp) (argField w) s) =
      (commandCheck s i).verdict := by
  rcases decodeCmd_instr_cases h with ⟨rfl, rfl⟩ | ⟨h1, h2, hcs, h4, -, hs⟩
  · rfl
  · obtain ⟨c, hc⟩ := exists_codecIndex hcs
    rw [← hc] at hs h4
    rw [← hc, codecOfNat?_codecIndex, Option.getD_some]
    generalize opField w = op at *
    interval_cases op
    · rw [selectInstr_cfg, Option.some.injEq] at hs
      rw [← hs, commandCheck_cfgOf, firstVerdict_checkLines_cfg]
    · rw [selectInstr_pack, Option.some.injEq] at hs
      rw [← hs, commandCheck_packOf, firstVerdict_checkLines_pack]
    · rw [selectInstr_unpack, Option.some.injEq] at hs
      rw [← hs, commandCheck_unpackOf, firstVerdict_checkLines_unpack]
    · have hforb := codecOfNat?_codecIndex c
      rw [h4 rfl] at hforb
      cases hforb
      cases hs
      exact firstVerdict_checkLines_at _ s

/-- Settles O11: the lines that drop, the lines of the decoder and the lines of the instruction's
own checks, in this order. -/
theorem firstFailingCheckDecides : Obligations.FirstFailingCheckDecides := by
  intro s w rest h
  rw [priorityList_eq_append, firstVerdict_append, firstVerdict_append]
  by_cases hR : Ready s
  · rw [firstVerdict_dropLines_ready hR, firstVerdict_decodeLines, Option.none_or]
    cases hd : decodeCmd w with
    | illegal k => exact step_cmd_illegal h hR hd
    | instr i =>
      obtain ⟨-, hp, rfl⟩ := encode_of_decodeCmd hd
      have hx := step_cmd_instr h hR hd
      rw [decodedVerdict, Option.none_or, firstVerdict_checkLines hd,
        ← commandCheck_afterHead .okay]
      cases hc : commandCheck (afterHead .okay s) i with
      | reject k => exact hx.trans (exec_rejected hc)
      | halt k => exact hx.trans (exec_halted hc)
      | pass =>
        refine ⟨i, rfl, hx, fun t ht => ?_⟩
        obtain ⟨hhalt, herr⟩ := (exec_passed_records hp hc (hx.symm.trans ht)).ready hR
        exact ⟨herr, hhalt⟩
  · have hpending := not_ready_iff.mp hR
    rw [firstVerdict_dropLines_pending hpending]
    exact step_cmd_dropped h hpending

/-! ### Which steps raise an error -/

/-- From `s` to `t` an error of one of the tiers is raised. -/
def RaisesError (s t : State) : Prop :=
  (s.err = false ∧ t.err = true) ∨ (s.halt = false ∧ t.halt = true)

theorem SameRecords.not_raisesError {s t : State} (h : SameRecords s t) : ¬RaisesError s t := by
  obtain ⟨herr, -, -, hhalt, -⟩ := h
  simp [RaisesError, herr, hhalt]

theorem resetRegs_not_raisesError (s u : State) : ¬RaisesError s (resetRegs u) := by
  simp [RaisesError]

/-- No operation of `CTRL` raises an error. -/
theorem exec_ctrl_not_raisesError {d : Word} {i : Instr} {r : Response} {s t : State}
    (hd : decodeCtrl d = some i) (h : exec i (afterHead r s) = .next t) : ¬RaisesError s t := by
  rcases decodeCtrl_some hd with rfl | rfl
  · cases h
    exact resetRegs_not_raisesError s _
  · cases h
    simp [RaisesError]

/-- Rule R110: a step that raises an error is an accepted write to `CMD`. -/
theorem step_raisesError {s t : State} (h : step s = .next t) (hr : RaisesError s t) :
    Ready s ∧ ∃ w rest, s.script = .regWrite 0x004 4 w :: rest := by
  rcases step_next_cases h with ⟨-, rfl⟩ | ⟨r, rfl, -⟩ | ⟨w, rest, i, hs, hR, -⟩ |
    ⟨w, rest, k, hs, hR, -⟩ | ⟨d, rest, i, -, hd, hx⟩ | ⟨c, v, rest, -, rfl⟩ |
    ⟨i, v, rest, -, -, rfl⟩ | ⟨c, a, b, rest, -, -, rfl⟩ | ⟨rest, -, rfl⟩
  · exact absurd hr (SameRecords.not_raisesError ⟨rfl, rfl, rfl, rfl, rfl, rfl⟩)
  · exact absurd hr (SameRecords.not_raisesError ⟨rfl, rfl, rfl, rfl, rfl, rfl⟩)
  · exact ⟨hR, w, rest, hs⟩
  · exact ⟨hR, w, rest, hs⟩
  · exact absurd hr (exec_ctrl_not_raisesError hd hx)
  · exact absurd hr (SameRecords.not_raisesError (by simp [SameRecords]))
  · exact absurd hr (SameRecords.not_raisesError (by simp [SameRecords]))
  · exact absurd hr (SameRecords.not_raisesError (by simp [SameRecords]))
  · exact absurd hr (resetRegs_not_raisesError s _)

/-- Settles O18: the step is an accepted `CMD` write, and what it leaves is an error record that holds
the word. -/
theorem errorsAreRaisedByCommandsOnly : Obligations.ErrorsAreRaisedByCommandsOnly := by
  intro s t h hr
  obtain ⟨hR, w, rest, hs⟩ := step_raisesError h hr
  have ⟨hhalt, herr⟩ := hR
  refine ⟨hR, w, rest, hs, ?_⟩
  rcases step_cmd_ready_cases hs hR h with ⟨hhalt', herr'⟩ | ⟨k, rfl⟩ | ⟨k, rfl⟩
  · simp [herr', hhalt'] at hr
  · exact ⟨by simp, rfl, rfl, rfl, .inl ⟨rfl, rfl, hhalt, rfl, rfl⟩⟩
  · exact ⟨by simp, rfl, rfl, rfl, .inr ⟨rfl, rfl, herr, rfl, rfl⟩⟩

/-! ### The host's validator -/

section
variable {c : Codec} {b n : Nat} {s : State}

@[simp] theorem scriptUnpacked_srcElem (i : Nat) :
    (scriptUnpacked c b n s).srcElem i = s.srcElem i := by
  simp [scriptUnpacked, scriptPacked]

theorem srcSum_congr {t : State} (h : SameSrc s t) (m : Nat) : srcSum t m = srcSum s m := by
  induction m with
  | zero => rfl
  | succ m ih => rw [srcSum, srcSum, ih, h m]

/-- Rule R125: every decoded element of the script is the one the validator expects. -/
theorem ScriptDuties.dbufElem_expected (h : ScriptDuties c b n s) {i : Nat} (hi : i < n) :
    ((scriptUnpacked c b n s).dbufElem c i).toNat =
      expectedElem c (scriptUnpacked c b n s) i := by
  have hword : ((s.srcElem i).setWidth 64).toNat = (s.srcElem i).toNat :=
    BitVec.toNat_setWidth_of_le (by decide)
  cases c with
  | fwp => rw [h.dbufElem (by decide) hi, hword, expectedElem, scriptUnpacked_srcElem]
  | forb => rw [h.dbufElem_forb hi, expectedElem, srcSum_congr fun k => scriptUnpacked_srcElem k]
  | mbp => rw [h.dbufElem (by decide) hi, hword, expectedElem, scriptUnpacked_srcElem]

end

/-- Settles O41: the script's run is the one of `ScriptDuties.run`, whose elements are the expected
ones and whose length for FWP and FOR is the exact one. -/
theorem hostValidatorFindsNoDefect : Obligations.HostValidatorFindsNoDefect := by
  intro c b n s t rest hR h1 hb hmax hg hfit hs ht
  rw [← wmax_eq_ite] at hb
  have h : ScriptDuties c b n s := ⟨h1, hb, hmax, hg, hfit⟩
  obtain rfl : scriptUnpacked c b n s = t := Host.Outcome.next.inj ((h.run hR hs).symm.trans ht)
  refine ⟨fun ⟨i, hi, hne⟩ => hne (h.dbufElem_expected hi), fun ⟨hc, hne⟩ => hne ?_⟩
  rw [h.clen, packedLength_fixed hc]

end Sys2Proof.Machine
end

section
/-! The hard reset (70_reset_and_hazards.md): its effect and the state it leaves (rules R134, R135). -/

namespace Sys2Proof.Machine

theorem resetRegs_ready (s : State) : Ready (resetRegs s) := ⟨resetRegs_halt s, resetRegs_err s⟩

/-- Settles O33: the transaction and the instruction both run `resetRegs`, which clears the two flags
that the outputs show. -/
theorem hardResetHasTheEffectOfSrst : Obligations.HardResetHasTheEffectOfSrst := by
  intro s rest h
  have hstep : step s = .next (resetRegs (afterHead .okay s)) := step_hardReset h
  exact ⟨hstep.trans (exec_srst _).symm, _, hstep, resetRegs_ready _, resetRegs_err _,
    resetRegs_halt _⟩

end Sys2Proof.Machine
end

section
/-! The host's side over a step (00_scope.md rules R5, R6, R15): no operation writes the parameters,
the script or the answer, so that a step only takes the transaction it performs off the script and
answers it. -/

namespace Sys2Proof.Machine

/-- No instruction, whatever its outcome, writes the host's side. -/
theorem exec_sameHost {i : Instr} {s t : State} (h : exec i s = .next t) : SameHost s t := by
  rcases exec_next_cases h with ⟨k, rfl⟩ | rfl | ⟨c, b, -, -, -, rfl⟩ | ⟨c, n, -, -, -, rfl⟩ |
    ⟨c, n, -, -, -, rfl⟩ | ⟨n, -, -, -, -, rfl⟩ | ⟨-, rfl⟩ | ⟨-, rfl⟩ | ⟨-, rfl⟩
  · exact ⟨rfl, rfl, rfl⟩
  · exact ⟨rfl, rfl, rfl⟩
  · simp [SameHost]
  · simp [SameHost]
  · simp [SameHost]
  · exact ⟨rfl, rfl, rfl⟩
  · exact ⟨rfl, rfl, rfl⟩
  · exact ⟨rfl, rfl, rfl⟩
  · exact ⟨rfl, rfl, rfl⟩

/-- An idle step is the identity; every other one leaves the host's side as its answer leaves it. -/
theorem step_sameHost {s t : State} (h : step s = .next t) :
    (s.script = [] ∧ t = s) ∨ ∃ r, SameHost (afterHead r s) t := by
  rcases step_next_cases h with hidle | ⟨r, rfl, -⟩ | ⟨w, rest, i, -, -, -, hx⟩ |
    ⟨w, rest, k, -, -, -, rfl⟩ | ⟨d, rest, i, -, -, hx⟩ | ⟨c, v, rest, -, rfl⟩ |
    ⟨i, v, rest, -, -, rfl⟩ | ⟨c, a, b, rest, -, -, rfl⟩ | ⟨rest, -, rfl⟩
  · exact .inl hidle
  · exact .inr ⟨r, rfl, rfl, rfl⟩
  · exact .inr ⟨.okay, exec_sameHost hx⟩
  · exact .inr ⟨.okay, rfl, rfl, rfl⟩
  · exact .inr ⟨.okay, exec_sameHost hx⟩
  · exact .inr ⟨.okay, by simp [SameHost]⟩
  · exact .inr ⟨.okay, rfl, rfl, rfl⟩
  · exact .inr ⟨.okay, by simp [SameHost]⟩
  · exact .inr ⟨.okay, rfl, rfl, rfl⟩

/-- A step performs the first pending transaction on the state whose script is the rest. -/
theorem step_eq_perform {s : State} {x : Transaction} {rest : List Transaction}
    (h : s.script = x :: rest) : step s = perform x { s with script := rest } := by
  have hpop : popScript s = { s with script := rest } := by rw [popScript, h, List.tail_cons]
  rw [step_cons h, hpop]

/-- Settles O55: the first part is `step_sameHost`, the second `step_eq_perform`. -/
theorem stepsKeepTheParameters : Obligations.StepsKeepTheParameters := by
  refine ⟨fun s t h => ?_, fun _ _ _ => step_eq_perform⟩
  rcases step_sameHost h with ⟨hidle, rfl⟩ | ⟨r, hparams, hscript, -⟩
  · exact ⟨rfl, by rw [hidle, List.tail_nil]⟩
  · exact ⟨hparams, hscript⟩

/-- Settles O9, by the equation of a step at the empty script. -/
theorem idleBlockKeepsItsState : Obligations.IdleBlockKeepsItsState :=
  fun _ => step_nil

end Sys2Proof.Machine
end
